-- ==== Sys2Proof/Word.lean ====
section
/-! DEFINITION. The words of the block: a command word is 64 bits (30_encoding.md R70), a byte of a string or of the
output stream 8 bits (20_memory.md R57). -/

namespace Sys2Proof

/-- One word of the command port: a header or an operand word (R70). -/
abbrev Word := BitVec 64

/-- One byte of the output stream, of a name or of a string operand (R51, R77). -/
abbrev Byte := BitVec 8

end Sys2Proof
end

