-- ==== Sys2Proof/Config.lean ====
section
/-! DEFINITION. The configuration of a TABLOG-CORE (00_scope.md R7): the parameters given before reset is released, which
no command changes. What makes one well-formed is in `Sys2Proof.WellFormed`. -/

namespace Sys2Proof

/-- The byte width of a column type: `COLTYPE[c].bytes` is 1, 2, 4 or 8 (R7). -/
inductive ByteWidth where
  | one | two | four | eight
  deriving DecidableEq, Repr

/-- `COLTYPE[c].bytes`. -/
def ByteWidth.bytes : ByteWidth → Nat
  | .one => 1
  | .two => 2
  | .four => 4
  | .eight => 8

/-- `W(c) = 8 * COLTYPE[c].bytes` (R7). -/
def ByteWidth.bits : ByteWidth → Nat
  | .one => 8
  | .two => 16
  | .four => 32
  | .eight => 64

/-- A column type T = (signed, W) (R11). -/
structure ColumnType where
  signed : Bool
  width : ByteWidth
  deriving DecidableEq, Repr

/-- W of a column type. -/
def ColumnType.bits (t : ColumnType) : Nat := t.width.bits

/-- `min_T` (R11). -/
def ColumnType.minValue (t : ColumnType) : Int :=
  if t.signed then -(2 : Int) ^ (t.bits - 1) else 0

/-- `max_T` (R11). -/
def ColumnType.maxValue (t : ColumnType) : Int :=
  if t.signed then (2 : Int) ^ (t.bits - 1) - 1 else (2 : Int) ^ t.bits - 1

/-- A value of type T is an integer in `[min_T, max_T]` (R11). -/
def ColumnType.holds (t : ColumnType) (v : Int) : Bool :=
  decide (t.minValue ≤ v) && decide (v ≤ t.maxValue)

/-- `PRED_KIND[c]`: `L12A` or `SL(N)` (R7, D13). -/
inductive PredKind where
  | l12a
  | sl (n : Nat)
  deriving DecidableEq, Repr

/-- What the configuration says of one column: COLTYPE, PRED_KIND and NAME (R7). -/
structure ColumnConfig where
  type : ColumnType
  kind : PredKind
  name : List Byte
  deriving DecidableEq, Repr

/-- One node of the trie ROM (47_string_trie.md R215). -/
structure TrieNode where
  char : Byte
  childIndex : Nat
  childCount : Nat
  encodedLength : Nat
  encodedValue : Nat
  deriving DecidableEq, Repr

/-- `MAX_STATE(W)` for W = 8, 16, 32 and 64 (R7, 42_adaptive_golomb.md R132, D8). -/
structure MaxStates where
  w8 : Nat
  w16 : Nat
  w32 : Nat
  w64 : Nat
  deriving DecidableEq, Repr

/-- `MAX_STATE` at a width. -/
def MaxStates.at (m : MaxStates) : ByteWidth → Nat
  | .one => m.w8
  | .two => m.w16
  | .four => m.w32
  | .eight => m.w64

/-- The default `MAX_STATE(W) = (W - 1) << 2` (R7, R132). -/
def MaxStates.default : MaxStates := ⟨28, 60, 124, 252⟩

/-- A configuration (R7). The columns are numbered from 0 in list order. -/
structure Config where
  cols : List ColumnConfig
  formatVersion : Nat
  trie : List TrieNode
  firstLevelMin : Byte
  firstLevelCount : Nat
  maxState : MaxStates
  l12aInitPrev0 : Int
  l12aInitPrev1 : Int
  l12aInitSel : Int
  deriving DecidableEq, Repr

/-- `NCOL`, the field count (R7). -/
def Config.ncol (cfg : Config) : Nat := cfg.cols.length

/-- What `Config.col` answers for a column the configuration does not have. No command reads it: a column index is checked
against NCOL first (60_exceptions.md R243 step 4). -/
def ColumnConfig.absent : ColumnConfig := ⟨⟨false, .one⟩, .l12a, []⟩

/-- The parameters of column c. -/
def Config.col (cfg : Config) (c : Nat) : ColumnConfig := cfg.cols.getD c ColumnConfig.absent

/-- The example trie `TRIE_EX` of 95_test_vectors.md section 0: "a", "b", "c", "ab", "abc". -/
def Config.exampleTrie : List TrieNode :=
  [⟨0x61, 3, 1, 3, 0⟩, ⟨0x62, 0, 0, 3, 1⟩, ⟨0x63, 0, 0, 3, 2⟩, ⟨0x62, 4, 1, 3, 3⟩, ⟨0x63, 0, 0, 3, 4⟩]

/-- The configuration of `Machine.State.reset`. DESIGN CHOICE (log 2): the spec leaves the parameters open (R7, D13, D15,
D18), and this is the configuration of its program P7 (95_test_vectors.md): column 0 uint8 SL(2) named "ab", column 1
int16 L12A named "x", FORMAT_VERSION 3, the example trie, and every parameter with a default at its default. Unsafe:
a statement about `State.reset` alone rests on it. -/
def Config.example : Config where
  cols := [⟨⟨false, .one⟩, .sl 2, [0x61, 0x62]⟩, ⟨⟨true, .two⟩, .l12a, [0x78]⟩]
  formatVersion := 3
  trie := Config.exampleTrie
  firstLevelMin := 0x61
  firstLevelCount := 3
  maxState := MaxStates.default
  l12aInitPrev0 := 0
  l12aInitPrev1 := 0
  l12aInitSel := 0

end Sys2Proof
end

