-- ==== Sys2Proof/Syntax.lean ====
section
/-! DEFINITION. The commands of TABLOG-CORE: one constructor for each row of spec/opcode_table.json (30_encoding.md R75). -/

namespace Sys2Proof

/-- A command with its operands (R71 to R78). Operand words stand as they came in; what they mean is in
`Sys2Proof.Machine.Operands`. -/
inductive Instr where
  /-- `BW_WRITE n, d` (R103). -/
  | bwWrite (n : Byte) (d : Word)
  /-- `BW_WRITE_BIT b` (R104). -/
  | bwWriteBit (b : Bool)
  /-- `BW_FLUSH` (R105). -/
  | bwFlush
  /-- `BW_END` (R106). -/
  | bwEnd
  /-- `EG_ENCODE n` (R122). -/
  | egEncode (n : Word)
  /-- `AEG_ENCODE c, n` (R135). -/
  | aegEncode (c : Byte) (n : Word)
  /-- `PRED_FEED c, v` (R156). -/
  | predFeed (c : Byte) (v : Word)
  /-- `COL_WRITE c, v` (R172). -/
  | colWrite (c : Byte) (v : Word)
  /-- `COL_RESET c` (R173). -/
  | colReset (c : Byte)
  /-- `TAB_WRITE_ROW v0, …, v(NCOL−1)` (R187): one operand word for each column. -/
  | tabWriteRow (vs : List Word)
  /-- `TAB_END_BLOCK` (R188). -/
  | tabEndBlock
  /-- `TAB_CLOSE` (R189). -/
  | tabClose
  /-- `STATUS_READ` (R190). -/
  | statusRead
  /-- `FR_BYTE b` (R203). -/
  | frByte (b : Byte)
  /-- `FR_START` (R204). -/
  | frStart
  /-- `FR_END` (R205). -/
  | frEnd
  /-- `STR_COMPRESS "s"` (R223): the length L in bytes and the ceil(L/8) words that hold the bytes (R77). -/
  | strCompress (len : BitVec 16) (ws : List Word)
  deriving DecidableEq, Repr

end Sys2Proof
end

