-- ==== Sys2Proof/WellFormed.lean ====
section
/-! DEFINITION. Which configurations (00_scope.md R8, 47_string_trie.md R224) and which commands (30_encoding.md R72) are
well-formed. An ill-formed configuration gets no run; an ill-formed command is one that no header can carry. -/

namespace Sys2Proof

/-- The number of operand words that carry L bytes: `ceil(L / 8)` (R72). -/
def stringWords (len : Nat) : Nat := (len + 7) / 8

/-- A command has exactly the operand words its header calls for (R72): NCOL for a row, `ceil(L/8)` for a string. Every
other command carries its operands in its own fields. -/
def Instr.wf (ncol : Nat) : Instr → Bool
  | .bwWrite _ _ => true
  | .bwWriteBit _ => true
  | .bwFlush => true
  | .bwEnd => true
  | .egEncode _ => true
  | .aegEncode _ _ => true
  | .predFeed _ _ => true
  | .colWrite _ _ => true
  | .colReset _ => true
  | .tabWriteRow vs => vs.length == ncol
  | .tabEndBlock => true
  | .tabClose => true
  | .statusRead => true
  | .frByte _ => true
  | .frStart => true
  | .frEnd => true
  | .strCompress len ws => ws.length == stringWords len.toNat

/-! ### The trie (R224) -/

/-- `TRIE[i]` is a child of node n. -/
def TrieNode.hasChild (n : TrieNode) (i : Nat) : Bool :=
  decide (n.childIndex ≤ i) && decide (i < n.childIndex + n.childCount)

/-- R224 condition 1. -/
def Config.firstLevelFits (cfg : Config) : Bool :=
  decide (1 ≤ cfg.firstLevelCount) && decide (cfg.firstLevelCount ≤ cfg.trie.length) &&
    decide (cfg.firstLevelMin.toNat + cfg.firstLevelCount ≤ 256)

/-- R224 condition 2. -/
def Config.firstLevelIndexed (cfg : Config) : Bool :=
  (List.range cfg.firstLevelCount).all fun i =>
    match cfg.trie[i]? with
    | some n => n.char.toNat == cfg.firstLevelMin.toNat + i
    | none => false

/-- R224 condition 3. -/
def Config.childrenInRange (cfg : Config) : Bool :=
  cfg.trie.all fun n =>
    n.childCount == 0 ||
      (decide (cfg.firstLevelCount ≤ n.childIndex) && decide (n.childIndex + n.childCount ≤ cfg.trie.length))

/-- No node is a child of both m and n. -/
def TrieNode.disjointChildren (m n : TrieNode) : Bool :=
  m.childCount == 0 || n.childCount == 0 || decide (m.childIndex + m.childCount ≤ n.childIndex) ||
    decide (n.childIndex + n.childCount ≤ m.childIndex)

/-- R224 condition 4 on a list of nodes: no two of them share a child. -/
def noSharedChild : List TrieNode → Bool
  | [] => true
  | n :: ns => ns.all n.disjointChildren && noSharedChild ns

/-- The characters of a node's children, in table order. -/
def Config.childChars (cfg : Config) (n : TrieNode) : List Byte :=
  ((cfg.trie.drop n.childIndex).take n.childCount).map (·.char)

/-- R224 condition 5. -/
def Config.siblingsDistinct (cfg : Config) : Bool :=
  cfg.trie.all fun n => decide (cfg.childChars n).Nodup

/-- R224 condition 6. -/
def Config.codesFit (cfg : Config) : Bool :=
  cfg.trie.all fun n =>
    decide (1 ≤ n.encodedLength) && decide (n.encodedLength ≤ 64) && decide (n.encodedValue < 2 ^ n.encodedLength)

/-- The first node that has `TRIE[i]` as a child, if any; under condition 4 the only one. -/
def Config.parentOf (cfg : Config) (i : Nat) : Option Nat :=
  cfg.trie.findIdx? fun n => n.hasChild i

/-- Following parents from `TRIE[i]` ends at a node without one within k steps. -/
def Config.rootedWithin (cfg : Config) : Nat → Nat → Bool
  | 0, _ => false
  | k + 1, i =>
    match cfg.parentOf i with
    | none => true
    | some j => cfg.rootedWithin k j

/-- R224 condition 7: a path of parents that is longer than the table has a node twice, so the parent relation is acyclic
exactly when every node is rooted within as many steps as there are nodes. -/
def Config.acyclic (cfg : Config) : Bool :=
  (List.range cfg.trie.length).all fun i => cfg.rootedWithin cfg.trie.length i

/-- A trie configuration is well-formed (R224). -/
def Config.trieWf (cfg : Config) : Bool :=
  cfg.firstLevelFits && cfg.firstLevelIndexed && cfg.childrenInRange && noSharedChild cfg.trie &&
    cfg.siblingsDistinct && cfg.codesFit && cfg.acyclic

/-! ### The other parameters (R8) -/

/-- `SL(N)` has 2 ≤ N ≤ 255 (R7, R8). -/
def PredKind.wf : PredKind → Bool
  | .l12a => true
  | .sl n => decide (2 ≤ n) && decide (n ≤ 255)

/-- `INIT_STATE(W) = (W/8) << 2` (R7, 42_adaptive_golomb.md R131). -/
def ByteWidth.initState (w : ByteWidth) : Nat := w.bytes <<< 2

/-- `INIT_STATE(W) ≤ MAX_STATE(W) ≤ (W − 1) << 2` at one width (R7, R132). -/
def MaxStates.fitsAt (m : MaxStates) (w : ByteWidth) : Bool :=
  decide (w.initState ≤ m.at w) && decide (m.at w ≤ (w.bits - 1) <<< 2)

/-- Every `L12A_INIT_*` value is representable in the type of every L12A column, and the selector is in −8..7 (R8, log 8). -/
def Config.l12aInitFits (cfg : Config) : Bool :=
  decide (-8 ≤ cfg.l12aInitSel) && decide (cfg.l12aInitSel ≤ 7) &&
    cfg.cols.all fun cc =>
      match cc.kind with
      | .l12a => cc.type.holds cfg.l12aInitPrev0 && cc.type.holds cfg.l12aInitPrev1
      | .sl _ => true

/-- A configuration is well-formed (R8; the ranges of MAX_STATE and of N are those of R7, log 9). That every
`COLTYPE[c].bytes` is 1, 2, 4 or 8 holds by its type. -/
def Config.wf (cfg : Config) : Bool :=
  decide (cfg.ncol ≤ 256) && (cfg.cols.all fun cc => cc.kind.wf) && cfg.l12aInitFits &&
    (cfg.cols.all fun cc => decide (cc.name.length ≤ 65535)) && decide (cfg.formatVersion + 1 < 2 ^ 64) &&
    (cfg.maxState.fitsAt .one && cfg.maxState.fitsAt .two && cfg.maxState.fitsAt .four && cfg.maxState.fitsAt .eight) &&
    cfg.trieWf

end Sys2Proof
end

