-- ==== Sys2Proof/Decode.lean ====
section
/-! DEFINITION. The decoder from the words of the command port to commands, and the encoder (30_encoding.md R70 to R81,
R83, R84). Both are total; the decoder rejects by name. -/

namespace Sys2Proof

/-! ### The header (R71) -/

/-- `OP = H[7:0]`. -/
def opField (h : Word) : Byte := h.extractLsb' 0 8
/-- `A = H[15:8]`. -/
def aField (h : Word) : Byte := h.extractLsb' 8 8
/-- `L = H[31:16]`. -/
def lField (h : Word) : BitVec 16 := h.extractLsb' 16 16
/-- `RSV = H[63:32]`. -/
def rsvField (h : Word) : BitVec 32 := h.extractLsb' 32 32

/-! ### The opcode map (R75) -/

/-- The opcodes of R75, in its order. -/
inductive Opcode where
  | bwWrite | bwWriteBit | bwFlush | bwEnd | egEncode | aegEncode | predFeed | colWrite | colReset
  | tabWriteRow | tabEndBlock | tabClose | statusRead | frByte | frStart | frEnd | strCompress
  deriving DecidableEq, Repr

/-- The OP value of an opcode (R75). -/
def Opcode.code : Opcode → Byte
  | .bwWrite => 0x01
  | .bwWriteBit => 0x02
  | .bwFlush => 0x03
  | .bwEnd => 0x04
  | .egEncode => 0x08
  | .aegEncode => 0x0C
  | .predFeed => 0x10
  | .colWrite => 0x14
  | .colReset => 0x15
  | .tabWriteRow => 0x18
  | .tabEndBlock => 0x19
  | .tabClose => 0x1A
  | .statusRead => 0x1B
  | .frByte => 0x20
  | .frStart => 0x21
  | .frEnd => 0x22
  | .strCompress => 0x28

/-- The opcode of an OP value; every value outside R75 is undefined. -/
def Opcode.ofByte? (b : Byte) : Option Opcode :=
  match b.toNat with
  | 0x01 => some .bwWrite
  | 0x02 => some .bwWriteBit
  | 0x03 => some .bwFlush
  | 0x04 => some .bwEnd
  | 0x08 => some .egEncode
  | 0x0C => some .aegEncode
  | 0x10 => some .predFeed
  | 0x14 => some .colWrite
  | 0x15 => some .colReset
  | 0x18 => some .tabWriteRow
  | 0x19 => some .tabEndBlock
  | 0x1A => some .tabClose
  | 0x1B => some .statusRead
  | 0x20 => some .frByte
  | 0x21 => some .frStart
  | 0x22 => some .frEnd
  | 0x28 => some .strCompress
  | _ => none

/-- The bits of A that an opcode uses; the others must be 0 (R73). -/
def Opcode.aUsed : Opcode → Byte
  | .bwWrite | .aegEncode | .predFeed | .colWrite | .colReset | .frByte => 0xFF
  | .bwWriteBit => 0x01
  | .bwFlush | .bwEnd | .egEncode | .tabWriteRow | .tabEndBlock | .tabClose | .statusRead | .frStart | .frEnd
  | .strCompress => 0x00

/-- The bits of L that an opcode uses: all of them for `STR_COMPRESS`, none for any other (R74). -/
def Opcode.lUsed : Opcode → BitVec 16
  | .strCompress => 0xFFFF
  | .bwWrite | .bwWriteBit | .bwFlush | .bwEnd | .egEncode | .aegEncode | .predFeed | .colWrite | .colReset
  | .tabWriteRow | .tabEndBlock | .tabClose | .statusRead | .frByte | .frStart | .frEnd => 0x0000

/-- K, the number of operand words (R72). -/
def Opcode.operandCount (ncol : Nat) (len : BitVec 16) : Opcode → Nat
  | .bwWrite | .egEncode | .aegEncode | .predFeed | .colWrite => 1
  | .tabWriteRow => ncol
  | .strCompress => stringWords len.toNat
  | .bwWriteBit | .bwFlush | .bwEnd | .colReset | .tabEndBlock | .tabClose | .statusRead | .frByte | .frStart
  | .frEnd => 0

/-! ### Decoding -/

/-- Why the decoder gives no command. The last four are the illegal headers of R80; which of several reasons is named
carries no meaning, since all of them fault with `ILLEGAL_COMMAND`. -/
inductive Reject where
  /-- No header word has arrived. -/
  | noHeader
  /-- The header is legal, and not all of its operand words have arrived (R269). -/
  | incomplete
  /-- OP is not in R75. -/
  | undefinedOpcode
  /-- RSV is not 0. -/
  | reservedBits
  /-- L is not 0 for an opcode other than `STR_COMPRESS`. -/
  | lengthBits
  /-- A has a 1 in a bit that the opcode does not use. -/
  | operandBits
  deriving DecidableEq, Repr

/-- The opcode of a legal header, or why the header is illegal (R80). -/
def headerOpcode (h : Word) : Except Reject Opcode :=
  match Opcode.ofByte? (opField h) with
  | none => .error .undefinedOpcode
  | some op =>
    if rsvField h ≠ 0 then .error .reservedBits
    else if lField h &&& ~~~op.lUsed ≠ 0 then .error .lengthBits
    else if aField h &&& ~~~op.aUsed ≠ 0 then .error .operandBits
    else .ok op

/-- The command of a legal header with this opcode and its operand words. -/
def Opcode.build (h : Word) (ds : List Word) : Opcode → Instr
  | .bwWrite => .bwWrite (aField h) (ds.headD 0)
  | .bwWriteBit => .bwWriteBit ((aField h).getLsbD 0)
  | .bwFlush => .bwFlush
  | .bwEnd => .bwEnd
  | .egEncode => .egEncode (ds.headD 0)
  | .aegEncode => .aegEncode (aField h) (ds.headD 0)
  | .predFeed => .predFeed (aField h) (ds.headD 0)
  | .colWrite => .colWrite (aField h) (ds.headD 0)
  | .colReset => .colReset (aField h)
  | .tabWriteRow => .tabWriteRow ds
  | .tabEndBlock => .tabEndBlock
  | .tabClose => .tabClose
  | .statusRead => .statusRead
  | .frByte => .frByte (aField h)
  | .frStart => .frStart
  | .frEnd => .frEnd
  | .strCompress => .strCompress (lField h) ds

/-- Decode the first command of a list of words, for a block with NCOL columns, and give the words after it. The header
alone fixes how many words the command has (R72, R81). -/
def decode (ncol : Nat) : List Word → Except Reject (Instr × List Word)
  | [] => .error .noHeader
  | h :: ws =>
    match headerOpcode h with
    | .error r => .error r
    | .ok op =>
      let k := op.operandCount ncol (lField h)
      if ws.length < k then .error .incomplete
      else .ok (op.build h (ws.take k), ws.drop k)

/-! ### Encoding -/

/-- The opcode of a command. -/
def Instr.opcode : Instr → Opcode
  | .bwWrite _ _ => .bwWrite
  | .bwWriteBit _ => .bwWriteBit
  | .bwFlush => .bwFlush
  | .bwEnd => .bwEnd
  | .egEncode _ => .egEncode
  | .aegEncode _ _ => .aegEncode
  | .predFeed _ _ => .predFeed
  | .colWrite _ _ => .colWrite
  | .colReset _ => .colReset
  | .tabWriteRow _ => .tabWriteRow
  | .tabEndBlock => .tabEndBlock
  | .tabClose => .tabClose
  | .statusRead => .statusRead
  | .frByte _ => .frByte
  | .frStart => .frStart
  | .frEnd => .frEnd
  | .strCompress _ _ => .strCompress

/-- The field A of a command's header (R73). -/
def Instr.aOperand : Instr → Byte
  | .bwWrite n _ => n
  | .bwWriteBit b => (BitVec.ofBool b).setWidth 8
  | .aegEncode c _ => c
  | .predFeed c _ => c
  | .colWrite c _ => c
  | .colReset c => c
  | .frByte b => b
  | .bwFlush | .bwEnd | .egEncode _ | .tabWriteRow _ | .tabEndBlock | .tabClose | .statusRead | .frStart | .frEnd
  | .strCompress _ _ => 0

/-- The field L of a command's header (R74). -/
def Instr.lOperand : Instr → BitVec 16
  | .strCompress len _ => len
  | .bwWrite _ _ | .bwWriteBit _ | .bwFlush | .bwEnd | .egEncode _ | .aegEncode _ _ | .predFeed _ _ | .colWrite _ _
  | .colReset _ | .tabWriteRow _ | .tabEndBlock | .tabClose | .statusRead | .frByte _ | .frStart | .frEnd => 0

/-- The operand words of a command (R72, R75). -/
def Instr.operandWords : Instr → List Word
  | .bwWrite _ d => [d]
  | .egEncode n => [n]
  | .aegEncode _ n => [n]
  | .predFeed _ v => [v]
  | .colWrite _ v => [v]
  | .tabWriteRow vs => vs
  | .strCompress _ ws => ws
  | .bwWriteBit _ | .bwFlush | .bwEnd | .colReset _ | .tabEndBlock | .tabClose | .statusRead | .frByte _ | .frStart
  | .frEnd => []

/-- The header `RSV, L, A, OP` with RSV = 0 (R71). -/
def packHeader (op : Byte) (a : Byte) (l : BitVec 16) : Word := (0#32 ++ l ++ a ++ op : BitVec (32 + 16 + 8 + 8))

/-- The header of a command. -/
def Instr.header (i : Instr) : Word := packHeader i.opcode.code i.aOperand i.lOperand

/-- The words of a command (R70). -/
def encode (i : Instr) : List Word := i.header :: i.operandWords

/-- The mask of R75: a header H selects the row of this opcode when `H & mask = match`. -/
def Opcode.headerMask (op : Opcode) : Word := ~~~packHeader 0 op.aUsed op.lUsed

/-- The match value of R75. -/
def Opcode.headerMatch (op : Opcode) : Word := packHeader op.code 0 0

/-! ### Words carried as bytes (20_memory.md R55) -/

/-- A word as eight bytes, least significant first. -/
def wordBytes (w : Word) : List Byte := (List.range 8).map fun i => w.extractLsb' (8 * i) 8

/-- The bytes of a list of words, each word least significant byte first. -/
def bytesOfWords (ws : List Word) : List Byte := ws.flatMap wordBytes

/-- The whole words of a byte sequence; fewer than eight bytes make no word yet. -/
def wordsOfBytes : List Byte → List Word
  | b0 :: b1 :: b2 :: b3 :: b4 :: b5 :: b6 :: b7 :: bs =>
    (b7 ++ b6 ++ b5 ++ b4 ++ b3 ++ b2 ++ b1 ++ b0 : BitVec (8 + 8 + 8 + 8 + 8 + 8 + 8 + 8)) :: wordsOfBytes bs
  | _ => []

/-! ### The opcode table's rows as the host numbers them -/

/-- The words of the command whose bits are the low nbits of w, the header's bit 0 first; as many operand words as the
header calls for, every bit above nbits 0. An illegal header has none (60_exceptions.md R244). -/
def tableWords (ncol nbits w : Nat) : List Word :=
  let v := w % 2 ^ nbits
  let h : Word := BitVec.ofNat 64 v
  let k :=
    match headerOpcode h with
    | .ok op => op.operandCount ncol (lField h)
    | .error _ => 0
  h :: (List.range k).map fun i => BitVec.ofNat 64 (v >>> (64 * (i + 1)))

/-- The command the decoder reads from the low nbits of w, for the columns of `Config.example` (log 2). -/
def decodeTableWord (nbits w : Nat) : Option Instr :=
  match decode Config.example.ncol (tableWords Config.example.ncol nbits w) with
  | .ok (i, _) => some i
  | .error _ => none

/-! ### Pseudo-commands (R83) -/

/-- `BW_ZEROS n` is `BW_WRITE n, 0`. -/
def bwZeros (n : Byte) : Instr := .bwWrite n 0
/-- `BW_ONES n` is `BW_WRITE n, 2^n − 1`. -/
def bwOnes (n : Byte) : Instr := .bwWrite n (BitVec.ofNat 64 (2 ^ n.toNat - 1))
/-- `BW_BYTE b` is `BW_WRITE 8, b`. -/
def bwByte (b : Byte) : Instr := .bwWrite 8 (b.setWidth 64)
/-- `END_BIT_STREAM` is `BW_END`. -/
def endBitStream : Instr := .bwEnd

end Sys2Proof
end

