-- ==== Sys2Proof/Machine/Operands.lean ====
section
/-! DEFINITION. Operand forms and the arithmetic of column values: residues (00_scope.md R10, R11), column words
(30_encoding.md R76), packed strings (R77), bit fields (40_bitwriter.md R100), `abs_diff` and `sat` (43_predictors.md R145,
R146). -/

namespace Sys2Proof.Machine

/-! ### Residues and readings (R10, R11) -/

/-- `u_W(x) = x mod 2^W`. -/
def unsignedResidue (w : Nat) (x : Int) : Nat := (x % ((2 ^ w : Nat) : Int)).toNat

/-- `s_W(x)`: the two's-complement reading of `u_W(x)`. -/
def signedResidue (w : Nat) (x : Int) : Int :=
  let u := unsignedResidue w x
  if u < 2 ^ (w - 1) then (u : Int) else (u : Int) - ((2 ^ w : Nat) : Int)

/-- `int_T(b)`: W bits read as type T. -/
def readAs (t : ColumnType) (b : Nat) : Int :=
  if t.signed then signedResidue t.bits b else b

/-! ### Column words (R76, R79) -/

/-- The operand word D is a well-formed column word of type T: the sign extension of its low W bits when T is signed, the
zero extension when T is unsigned. -/
def columnWordOk (t : ColumnType) (d : Word) : Bool :=
  if t.signed then d == (d.setWidth t.bits).signExtend 64 else d == (d.setWidth t.bits).setWidth 64

/-- The value a well-formed column word carries. -/
def columnValue (t : ColumnType) (d : Word) : Int :=
  if t.signed then (d.setWidth t.bits).toInt else ((d.setWidth t.bits).toNat : Int)

/-- A value of type T as a column word: sign- or zero-extended to 64 bits (R79, 43_predictors.md R156). -/
def columnWord (t : ColumnType) (v : Int) : Word :=
  if t.signed then (BitVec.ofInt t.bits v).signExtend 64 else (BitVec.ofInt t.bits v).setWidth 64

/-! ### Strings packed in words (R77) -/

/-- The L bytes of the string, byte i from byte `i mod 8` of word `i div 8`, least significant byte first. -/
def stringBytes (len : Nat) (ws : List Word) : List Byte := (bytesOfWords ws).take len

/-- The bytes past position L − 1 are 0. -/
def paddingClear (len : Nat) (ws : List Word) : Bool := ((bytesOfWords ws).drop len).all fun b => b == 0

/-! ### Bit fields (R100) -/

/-- The n least significant bits of d, in emission order: `d[0]` first. -/
def fieldBits (d n : Nat) : List Bool := (List.range n).map d.testBit

/-- `floor_log2(x)` for x ≥ 1 (R10). -/
def floorLog2 (x : Nat) : Nat := x.log2

/-! ### Shared arithmetic of the column units -/

/-- `abs_diff_T(a, b)` (R145): the magnitude by unsigned subtraction, and whether a is higher. -/
def absDiff (t : ColumnType) (a b : Int) : Nat × Bool :=
  if a > b then (unsignedResidue t.bits (unsignedResidue t.bits a - unsignedResidue t.bits b), true)
  else (unsignedResidue t.bits (unsignedResidue t.bits b - unsignedResidue t.bits a), false)

/-- `sat_T(x)` (R146). -/
def saturate (t : ColumnType) (x : Int) : Int := min (max x t.minValue) t.maxValue

end Sys2Proof.Machine
end

