-- ==== Sys2Proof/Machine/Units.lean ====
section
/-! DEFINITION. The state of one column unit `col[c]` (10_state.md R27 to R30) and its fresh value (44_column.md R171). -/

namespace Sys2Proof.Machine

/-- The predictor state of a column: R29 for an L12A column, R30 for an SL column. Values are integers of the column type
(00_scope.md R11, log 10). -/
inductive PredState where
  /-- `prev0`, `prev1` (the older and the newer of the last two values) and the selector, a 4-bit two's-complement number. -/
  | l12a (prev0 prev1 : Int) (sel : BitVec 4)
  /-- The history, oldest first; only the sequence is visible (R30). -/
  | sl (hist : List Int)
  deriving DecidableEq, Repr

/-- `col[c].prev0`; 0 for a unit that has no such register, which no command reads (log 11). -/
def PredState.prev0 : PredState → Int
  | .l12a p _ _ => p
  | .sl _ => 0

/-- `col[c].prev1`; 0 for a unit that has no such register, which no command reads (log 11). -/
def PredState.prev1 : PredState → Int
  | .l12a _ p _ => p
  | .sl _ => 0

/-- `col[c].sel`; 0 for a unit that has no such register, which no command reads (log 11). -/
def PredState.sel : PredState → BitVec 4
  | .l12a _ _ s => s
  | .sl _ => 0

/-- `col[c].hist`; empty for a unit that has no such register, which no command reads (log 11). -/
def PredState.hist : PredState → List Int
  | .l12a _ _ _ => []
  | .sl h => h

/-- One column unit: the state byte of its adaptive coder (R28) and its predictor state. -/
structure ColUnit where
  aeg : BitVec 8
  pred : PredState
  deriving DecidableEq, Repr

/-- The predictor state of a fresh column (R171). -/
def PredState.fresh (cfg : Config) : PredKind → PredState
  | .l12a => .l12a cfg.l12aInitPrev0 cfg.l12aInitPrev1 (BitVec.ofInt 4 cfg.l12aInitSel)
  | .sl _ => .sl []

/-- A fresh column unit: `aeg = COLTYPE[c].bytes << 2` and a fresh predictor (R171). -/
def ColUnit.fresh (cfg : Config) (cc : ColumnConfig) : ColUnit where
  aeg := BitVec.ofNat 8 (cc.type.width.bytes <<< 2)
  pred := PredState.fresh cfg cc.kind

end Sys2Proof.Machine
end

