-- ==== Sys2Proof/Machine/State.lean ====
section
/-! DEFINITION. The state of TABLOG-CORE (10_state.md R20 to R37), what a step can end in, and the state after reset. -/

namespace Sys2Proof.Machine

/-- `TAB.block` (R25). -/
inductive BlockState where
  | noBlock | inBlock
  deriving DecidableEq, Repr

/-- The values of the 4-bit fault code that are ever produced (60_exceptions.md R240): 7 to 15 are reserved and never
produced (log 12). `FaultCode.bits` gives the code's bits. -/
inductive FaultCode where
  | none | illegalCommand | columnRange | bitcountRange | valueRange | afterClose | refused
  deriving DecidableEq, Repr

/-- The response `RSP = (ok, code, data)` of a command (10_state.md R32, 30_encoding.md R79). -/
structure Response where
  ok : Bool
  code : FaultCode
  data : BitVec 64
  deriving DecidableEq, Repr

/-- What the host does at the command port: it sends a word of a command (30_encoding.md R70), or it resets the block
(70_reset_and_hazards.md R260). -/
inductive HostInput where
  | word (w : Word)
  | reset
  deriving DecidableEq, Repr

/-- The state of the block. The first field is the configuration, which the spec makes an argument of the step relation
(00_scope.md R7, log 1); the last two are the model's own: the host's side of the command port (log 4) and the responses
handed to the host (log 5). Every other field is the register of 10_state.md that its comment names. -/
structure State where
  /-- The configuration (R7). -/
  cfg : Config
  /-- `BW.buffer` (R22). -/
  bwBuffer : BitVec 8
  /-- `BW.used` (R22). -/
  bwUsed : BitVec 3
  /-- `FR.hadEscape` (R24). -/
  hadEscape : Bool
  /-- `TAB.block` (R25). -/
  block : BlockState
  /-- `TAB.closed` (R26). -/
  closed : Bool
  /-- `FLT.faulted` (R31). -/
  faulted : Bool
  /-- `FLT.code` (R31). -/
  faultCode : FaultCode
  /-- `col[0]` to `col[NCOL−1]` (R27). -/
  cols : List ColUnit
  /-- `OUT` (R33): the bytes handed to the byte sink, oldest first. -/
  out : List Byte
  /-- What the host has presented at the command port and the block has not taken, in order. -/
  port : List HostInput
  /-- The responses handed to the host, oldest first. -/
  responses : List Response
  deriving DecidableEq, Repr

/-- The reasons for which the machine stops with a fault: none. Every fault of 60_exceptions.md ends its command with a
response and a sticky flag and the block goes on (R241, R247), so it is a next state; and no step of this model stops with
a fault. Safe (log 15). -/
inductive Fault where
  deriving DecidableEq, Repr

/-- The reasons for which the model gives no meaning. -/
inductive Refusal where
  /-- Raised by the arm of `exec` for a command that has no meaning yet. No arm raises it: every command is modelled. Safe. -/
  | notModelled (mnemonic : String)
  /-- Raised by `step` when the configuration is ill-formed: the spec gives such a configuration no run (00_scope.md R8,
  47_string_trie.md R224, 70_reset_and_hazards.md R262). Safe. -/
  | illFormedConfiguration
  deriving DecidableEq, Repr

/-- The state right after reset of a block with this configuration (R37, 70_reset_and_hazards.md R260), when the host has
presented nothing and nothing stands in OUT. -/
def State.resetWith (cfg : Config) : State where
  cfg := cfg
  bwBuffer := 0
  bwUsed := 0
  hadEscape := false
  block := .noBlock
  closed := false
  faulted := false
  faultCode := .none
  cols := cfg.cols.map (ColUnit.fresh cfg)
  out := []
  port := []
  responses := []

/-- The state right after reset. Every register has the value of R37. DESIGN CHOICE: the configuration (log 2) and the
empty OUT (log 3), which the spec leaves to the host. -/
def State.reset : State := State.resetWith Config.example

/-! ### One update for each group of fields that is written together

The shared operations are written with these, so that one simp lemma for each field of each update, in
`Sys2Proof.Laws.State`, is all that a proof needs of them. -/

/-- Write `BW.buffer` and `BW.used`. -/
def State.setBits (s : State) (buffer : BitVec 8) (used : BitVec 3) : State :=
  { s with bwBuffer := buffer, bwUsed := used }

/-- Write `FR.hadEscape`. -/
def State.setEscape (s : State) (e : Bool) : State := { s with hadEscape := e }

/-- Write `TAB.block`. -/
def State.setBlock (s : State) (b : BlockState) : State := { s with block := b }

/-- Write `TAB.closed`. -/
def State.setClosed (s : State) (c : Bool) : State := { s with closed := c }

/-- Write `FLT.faulted` and `FLT.code`. -/
def State.setFault (s : State) (f : Bool) (code : FaultCode) : State := { s with faulted := f, faultCode := code }

/-- Write every column unit. -/
def State.setCols (s : State) (us : List ColUnit) : State := { s with cols := us }

/-- Write OUT. -/
def State.setOut (s : State) (bs : List Byte) : State := { s with out := bs }

/-- Write what is waiting at the command port. -/
def State.setPort (s : State) (p : List HostInput) : State := { s with port := p }

/-- Write the responses handed out. -/
def State.setResponses (s : State) (rs : List Response) : State := { s with responses := rs }

end Sys2Proof.Machine
end

