-- ==== Sys2Proof/Machine/Flags.lean ====
section
/-! DEFINITION. How flags and adaptive states are computed: the escape flag (46_framing.md R200, R201), the coder state
(42_adaptive_golomb.md R134), the selector (43_predictors.md R154), the fault code (60_exceptions.md R240) and the STATUS
register (10_state.md R34). -/

namespace Sys2Proof.Machine

/-! ### Framing bytes (R200): ASCII codes, which the spec takes from general knowledge. PRESUMED, safe (log 17) -/

/-- `ESC`, `'T'`. -/
def escByte : Byte := 0x54
/-- `START`, `'l'`. -/
def startByte : Byte := 0x6C
/-- `END`, `'#'`. -/
def endByte : Byte := 0x23
/-- `DBL`, `' '`. -/
def dblByte : Byte := 0x20

/-- `START`, `END` and `DBL` are the function bytes (R200). -/
def isFunctionByte (b : Byte) : Bool := b == startByte || b == endByte || b == dblByte

/-- `FR_accept(b)` inserts `DBL` before b: b is a function byte that follows an `ESC` (R201). -/
def needsDbl (hadEscape : Bool) (b : Byte) : Bool := hadEscape && isFunctionByte b

/-- `FR.hadEscape` after the payload byte b (R201). -/
def escapeAfter (b : Byte) : Bool := b == escByte

/-! ### The adaptive coder (R130, R134) -/

/-- `k = state >> STATE_SHIFT` with STATE_SHIFT = 2 (R130). -/
def shiftOf (state : BitVec 8) : Nat := state.toNat >>> 2

/-- The coder state after the quotient p (R134). -/
def adaptState (maxState : Nat) (state : BitVec 8) (p : Nat) : BitVec 8 :=
  if p = 0 then BitVec.ofNat 8 (state.toNat - 1)
  else if 1 < p then BitVec.ofNat 8 (min (state.toNat + 1) maxState)
  else state

/-! ### The selector (R154) -/

/-- The selector after candidate errors ea and eb: one step towards the model with the smaller error, within −8..7. -/
def adaptSelector (sel : BitVec 4) (ea eb : Nat) : BitVec 4 :=
  if ea < eb then BitVec.ofInt 4 (min (sel.toInt + 1) 7)
  else if eb < ea then BitVec.ofInt 4 (max (sel.toInt - 1) (-8))
  else sel

/-! ### The fault code and STATUS -/

/-- The 4 bits of a fault code (R240). -/
def FaultCode.bits : FaultCode → BitVec 4
  | .none => 0
  | .illegalCommand => 1
  | .columnRange => 2
  | .bitcountRange => 3
  | .valueRange => 4
  | .afterClose => 5
  | .refused => 6

/-- The bit of `TAB.block` (R25). -/
def BlockState.bit : BlockState → Bool
  | .noBlock => false
  | .inBlock => true

/-- The STATUS register (R34), most significant field first; `NCOL_LO` is `NCOL mod 256`. -/
def statusWord (s : State) : BitVec 64 :=
  (0#32 ++ BitVec.ofNat 8 s.cfg.ncol ++ s.bwBuffer ++ 0#4 ++ s.faultCode.bits ++ 0#1 ++ BitVec.ofBool s.faulted ++
    BitVec.ofBool s.closed ++ BitVec.ofBool s.block.bit ++ BitVec.ofBool s.hadEscape ++ s.bwUsed :
    BitVec (32 + 8 + 8 + 4 + 4 + 1 + 1 + 1 + 1 + 1 + 3))

end Sys2Proof.Machine
end

