-- ==== Sys2Proof/Machine/Ops.lean ====
section
/-! DEFINITION. The named operations over the state that the commands share: the output stream, the Framing unit, the
BitWriter, the Elias-gamma encoder, the column registers, responses and faults, reset, and taking the next command from the
port. -/

namespace Sys2Proof.Machine

/-! ### The output stream and the Framing unit (20_memory.md R51, 46_framing.md R201, R202) -/

/-- `OutAppend(b)` (R51). -/
def outAppend (b : Byte) (s : State) : State := s.setOut (s.out ++ [b])

/-- `FR_accept(b)` (R201). -/
def frAccept (b : Byte) (s : State) : State :=
  let s1 := if needsDbl s.hadEscape b then outAppend dblByte s else s
  (outAppend b s1).setEscape (escapeAfter b)

/-- `FR_mark(f)` (R202). -/
def frMark (f : Byte) (s : State) : State := (outAppend f (outAppend escByte s)).setEscape false

/-! ### The BitWriter (40_bitwriter.md R100 to R102) -/

/-- One bit of the loop of `BW_write` (R100): put it at position `BW.used`, and pass the byte on when it is full. -/
def bwWriteBit (s : State) (b : Bool) : State :=
  let buffer := s.bwBuffer ||| ((BitVec.ofBool b).setWidth 8 <<< s.bwUsed.toNat)
  if s.bwUsed.toNat + 1 = 8 then (frAccept buffer s).setBits 0 0
  else s.setBits buffer (s.bwUsed + 1)

/-- A sequence of bits, the first one first. -/
def bwWriteBits (bs : List Bool) (s : State) : State := bs.foldl bwWriteBit s

/-- `BW_write(d, n)` (R100): the n low bits of d, `d[0]` first. -/
def bwWrite (d n : Nat) (s : State) : State := bwWriteBits (fieldBits d n) s

/-- `BW_flush()` (R101). -/
def bwFlush (s : State) : State :=
  if s.bwUsed ≠ 0 then (frAccept s.bwBuffer s).setBits 0 0 else s

/-- `BW_end()` (R102). -/
def bwEnd (s : State) : State := bwFlush (bwWrite 1 1 s)

/-! ### The Elias-gamma encoder (41_elias_gamma.md R120) -/

/-- `EG_encode(n)` (R120): L zeros, a 1, then the L low bits of n + 1, on exact integers. -/
def egEncode (n : Nat) (s : State) : State :=
  let x := n + 1
  let l := floorLog2 x
  bwWrite x l (bwWrite 1 1 (bwWrite 0 l s))

/-! ### The column registers (10_state.md R27) -/

/-- `col[c]`. A column the state has no unit for reads as fresh; no command reads one (log 11). -/
def unitAt (s : State) (c : Nat) : ColUnit := s.cols.getD c (ColUnit.fresh s.cfg (s.cfg.col c))

/-- Write `col[c]`; no other column is touched. -/
def setUnit (c : Nat) (u : ColUnit) (s : State) : State := s.setCols (s.cols.set c u)

/-! ### Responses, faults and the general checks (60_exceptions.md R240 to R244) -/

/-- Hand a response to the host (10_state.md R32). -/
def respond (r : Response) (s : State) : State := s.setResponses (s.responses ++ [r])

/-- The command completed: respond `(1, 0, data)` (R79). -/
def complete (data : BitVec 64) (s : State) : Host.Outcome State Fault Refusal := .next (respond ⟨true, .none, data⟩ s)

/-- `raise Fault(code)` from the state before the command (R241, R242): set the sticky flag and the code, respond
`(0, code, 0)`. -/
def raise (code : FaultCode) (s : State) : Host.Outcome State Fault Refusal :=
  .next (respond ⟨false, code, 0⟩ (s.setFault true code))

/-- The refusal of R243 step 1: respond `(0, REFUSED, 0)` and change nothing else. -/
def refuse (s : State) : Host.Outcome State Fault Refusal := .next (respond ⟨false, .refused, 0⟩ s)

/-- The checks of R243 that every legal command but `STATUS_READ` makes before its own: step 1 and step 3. -/
def checked (s : State) (body : Host.Outcome State Fault Refusal) : Host.Outcome State Fault Refusal :=
  if s.faulted then refuse s
  else if s.closed then raise .afterClose s
  else body

/-- R243 step 4: a column index is below NCOL. -/
def withColumn (c : Nat) (s : State) (body : Host.Outcome State Fault Refusal) : Host.Outcome State Fault Refusal :=
  if s.cfg.ncol ≤ c then raise .columnRange s else body

/-- R243 step 6 for one column word: it is well-formed for column c. -/
def withColumnWord (c : Nat) (d : Word) (s : State) (body : Host.Outcome State Fault Refusal) :
    Host.Outcome State Fault Refusal :=
  if columnWordOk (s.cfg.col c).type d then body else raise .valueRange s

/-- An illegal header (30_encoding.md R80): steps 1 and 2 of R243. -/
def illegalHeader (s : State) : Host.Outcome State Fault Refusal :=
  if s.faulted then refuse s else raise .illegalCommand s

/-! ### Reset (70_reset_and_hazards.md R260, R261) -/

/-- Reset every register to its value of 10_state.md R37. OUT, the configuration, and the host's sides of the two ports
stay. -/
def resetBlock (s : State) : State :=
  (((((s.setBits 0 0).setEscape false).setBlock .noBlock).setClosed false).setFault false .none).setCols
    (s.cfg.cols.map (ColUnit.fresh s.cfg))

/-! ### The command port (30_encoding.md R70, R72, 70_reset_and_hazards.md R269) -/

/-- The words before the first reset in what the host has presented, and the rest. -/
def leadingWords : List HostInput → List Word × List HostInput
  | .word w :: more => ((w :: (leadingWords more).1), (leadingWords more).2)
  | rest => ([], rest)

/-- What the block does next with its command port. -/
inductive Fetch where
  /-- No complete command and no reset: the block waits (R256, R269). -/
  | wait
  /-- The host resets the block; `rest` comes after the reset. -/
  | reset (rest : List HostInput)
  /-- An illegal header, which takes no operand words (60_exceptions.md R244). -/
  | illegal (rest : List HostInput)
  /-- A legal command that has arrived whole. -/
  | run (i : Instr) (rest : List HostInput)
  deriving DecidableEq, Repr

/-- No command of the port can start: the next event is the first reset presented after its words, which drops them
(log 7), or else the block waits. -/
def noCommand : List HostInput → Fetch
  | [] => .wait
  | _ :: rest => .reset rest

/-- Take the next event from the port. Nothing but NCOL and the port decides it (R244). -/
def fetch (ncol : Nat) (port : List HostInput) : Fetch :=
  let (ws, more) := leadingWords port
  match decode ncol ws with
  | .ok (i, rest) => .run i (rest.map .word ++ more)
  | .error .noHeader => noCommand more
  | .error .incomplete => noCommand more
  | .error .undefinedOpcode => .illegal (port.drop 1)
  | .error .reservedBits => .illegal (port.drop 1)
  | .error .lengthBits => .illegal (port.drop 1)
  | .error .operandBits => .illegal (port.drop 1)

end Sys2Proof.Machine
end

