-- ==== Sys2Proof/Machine/BitWriter.lean ====
section
/-! DEFINITION. The BitWriter commands (40_bitwriter.md R103 to R106). -/

namespace Sys2Proof.Machine

/-- `BW_WRITE n, d` (R103). -/
def execBwWrite (n : Byte) (d : Word) (s : State) : Host.Outcome State Fault Refusal :=
  checked s <|
    if 64 < n.toNat then raise .bitcountRange s
    else complete 0 (bwWrite d.toNat n.toNat s)

/-- `BW_WRITE_BIT b` (R104): `BW_write(b, 1)`. -/
def execBwWriteBit (b : Bool) (s : State) : Host.Outcome State Fault Refusal :=
  checked s <| complete 0 (bwWrite b.toNat 1 s)

/-- `BW_FLUSH` (R105). -/
def execBwFlush (s : State) : Host.Outcome State Fault Refusal :=
  checked s <| complete 0 (bwFlush s)

/-- `BW_END` (R106). -/
def execBwEnd (s : State) : Host.Outcome State Fault Refusal :=
  checked s <| complete 0 (bwEnd s)

end Sys2Proof.Machine
end

