-- ==== Sys2Proof/Machine/EliasGamma.lean ====
section
/-! DEFINITION. The Elias-gamma command (41_elias_gamma.md R122). -/

namespace Sys2Proof.Machine

/-- `EG_ENCODE n` (R122): every unsigned 64-bit n is legal. -/
def execEgEncode (n : Word) (s : State) : Host.Outcome State Fault Refusal :=
  checked s <| complete 0 (egEncode n.toNat s)

end Sys2Proof.Machine
end

