-- ==== Sys2Proof/Machine/Framing.lean ====
section
/-! DEFINITION. The Framing commands (46_framing.md R203 to R205). -/

namespace Sys2Proof.Machine

/-- `FR_BYTE b` (R203). -/
def execFrByte (b : Byte) (s : State) : Host.Outcome State Fault Refusal :=
  checked s <| complete 0 (frAccept b s)

/-- `FR_START` (R204). -/
def execFrStart (s : State) : Host.Outcome State Fault Refusal :=
  checked s <| complete 0 (frMark startByte s)

/-- `FR_END` (R205). -/
def execFrEnd (s : State) : Host.Outcome State Fault Refusal :=
  checked s <| complete 0 (frMark endByte s)

end Sys2Proof.Machine
end

