-- ==== Sys2Proof/Machine/AdaptiveGolomb.lean ====
section
/-! DEFINITION. The adaptive exp-Golomb encoder of a column (42_adaptive_golomb.md). -/

namespace Sys2Proof.Machine

/-- `AEG_adapt(c, p)` (R134). -/
def aegAdapt (c p : Nat) (s : State) : State :=
  let u := unitAt s c
  setUnit c { u with aeg := adaptState (s.cfg.maxState.at (s.cfg.col c).type.width) u.aeg p } s

/-- `AEG_encode(c, n)` (R133): the quotient, the remainder, then the adaptation. -/
def aegEncode (c n : Nat) (s : State) : State :=
  let k := shiftOf (unitAt s c).aeg
  let p := n >>> k
  aegAdapt c p (bwWrite n k (egEncode p s))

/-- `AEG_ENCODE c, n` (R135). -/
def execAegEncode (c : Byte) (n : Word) (s : State) : Host.Outcome State Fault Refusal :=
  checked s <| withColumn c.toNat s <|
    if 2 ^ (s.cfg.col c.toNat).type.bits ≤ n.toNat then raise .valueRange s
    else complete 0 (aegEncode c.toNat n.toNat s)

end Sys2Proof.Machine
end

