-- ==== Sys2Proof/Machine/Predictors.lean ====
section
/-! DEFINITION. The predictors of a column (43_predictors.md): SimpleLinear and Linear12Adapt, and the command that feeds
one. -/

namespace Sys2Proof.Machine

/-! ### SimpleLinear (R147 to R149) -/

/-- `SL_extrapolate(last, first, N)` (R148): exact integers, division rounding toward zero, one clamp. -/
def slExtrapolate (t : ColumnType) (last first : Int) (n : Nat) : Int :=
  saturate t (last + Int.tdiv (last - first) ((n : Int) - 1))

/-- The prediction of SL(N) from its history (R147, R149). -/
def slPredict (t : ColumnType) (n : Nat) (h : List Int) : Int :=
  if h.length = n then slExtrapolate t (h.getLastD 0) (h.headD 0) n
  else if 1 ≤ h.length then h.getLastD 0
  else 0

/-- The history of SL(N) after v: the oldest value is dropped once N are held (R147). -/
def slFeed (n : Nat) (h : List Int) (v : Int) : List Int :=
  (if h.length = n then h.drop 1 else h) ++ [v]

/-! ### Linear12Adapt (R150 to R154) -/

/-- Model (b), the constant derivative: `2·prev1 − prev0` wrapping in W bits and read back as T (R152). -/
def l12aModelB (t : ColumnType) (p0 p1 : Int) : Int :=
  readAs t (unsignedResidue t.bits (2 * unsignedResidue t.bits p1 - unsignedResidue t.bits p0))

/-- The value L12A returns: model (a), `prev1`, when the selector is ≥ 0, else model (b) (R151, R153). -/
def l12aPredict (t : ColumnType) (p0 p1 : Int) (sel : BitVec 4) : Int :=
  if 0 ≤ sel.toInt then p1 else l12aModelB t p0 p1

/-- The L12A state after v (R150, R154). -/
def l12aFeed (t : ColumnType) (p0 p1 : Int) (sel : BitVec 4) (v : Int) : PredState :=
  .l12a p1 v (adaptSelector sel (absDiff t p1 v).1 (absDiff t (l12aModelB t p0 p1) v).1)

/-! ### The dispatcher (R155) -/

/-- The prediction of a column's predictor. -/
def predict (cc : ColumnConfig) (p : PredState) : Int :=
  match cc.kind with
  | .sl n => slPredict cc.type n p.hist
  | .l12a => l12aPredict cc.type p.prev0 p.prev1 p.sel

/-- The state of a column's predictor after v. -/
def feed (cc : ColumnConfig) (p : PredState) (v : Int) : PredState :=
  match cc.kind with
  | .sl n => .sl (slFeed n p.hist v)
  | .l12a => l12aFeed cc.type p.prev0 p.prev1 p.sel v

/-- `PRED_predict_and_feed(c, v)` (R155): the prediction from the state before v, and the state with v in it. -/
def predictAndFeed (c : Nat) (v : Int) (s : State) : Int × State :=
  let u := unitAt s c
  (predict (s.cfg.col c) u.pred, setUnit c { u with pred := feed (s.cfg.col c) u.pred v } s)

/-- `PRED_FEED c, v` (R156). -/
def execPredFeed (c : Byte) (v : Word) (s : State) : Host.Outcome State Fault Refusal :=
  checked s <| withColumn c.toNat s <| withColumnWord c.toNat v s <|
    let t := (s.cfg.col c.toNat).type
    let r := predictAndFeed c.toNat (columnValue t v) s
    complete (columnWord t r.1) r.2

end Sys2Proof.Machine
end

