-- ==== Sys2Proof/Machine/Column.lean ====
section
/-! DEFINITION. The column compressor (44_column.md). -/

namespace Sys2Proof.Machine

/-- `COL_write(c, v)` (R170): a hit bit, or a miss bit, the sign bit and the magnitude less one. -/
def colWrite (c : Nat) (v : Int) (s : State) : State :=
  let r := predictAndFeed c v s
  if r.1 = v then bwWrite 1 1 r.2
  else
    let d := absDiff (s.cfg.col c).type r.1 v
    aegEncode c (d.1 - 1) (bwWrite d.2.toNat 1 (bwWrite 0 1 r.2))

/-- `COL_fresh(c)` (R171). -/
def colFresh (c : Nat) (s : State) : State := setUnit c (ColUnit.fresh s.cfg (s.cfg.col c)) s

/-- `COL_WRITE c, v` (R172). -/
def execColWrite (c : Byte) (v : Word) (s : State) : Host.Outcome State Fault Refusal :=
  checked s <| withColumn c.toNat s <| withColumnWord c.toNat v s <|
    complete 0 (colWrite c.toNat (columnValue (s.cfg.col c.toNat).type v) s)

/-- `COL_RESET c` (R173). -/
def execColReset (c : Byte) (s : State) : Host.Outcome State Fault Refusal :=
  checked s <| withColumn c.toNat s <| complete 0 (colFresh c.toNat s)

end Sys2Proof.Machine
end

