-- ==== Sys2Proof/Machine/StringTrie.lean ====
section
/-! DEFINITION. The string trie compressor (47_string_trie.md). Its recursions are over the string, or over a count that
bounds them: a match run takes at least one byte a symbol, and a round of groups that is not the last takes at least one
literal byte, so the length of the string is count enough (`Sys2Proof.Laws.Trie`). -/

namespace Sys2Proof.Machine

/-- `isFirst(b)` (R216). -/
def isFirst (cfg : Config) (b : Byte) : Bool :=
  decide (cfg.firstLevelMin.toNat ≤ b.toNat) && decide (b.toNat < cfg.firstLevelMin.toNat + cfg.firstLevelCount)

/-- `TRIE[i].char = b`. -/
def nodeMatches (cfg : Config) (b : Byte) (i : Nat) : Bool :=
  match cfg.trie[i]? with
  | some n => n.char == b
  | none => false

/-- The child of `TRIE[node]` for the character b, if any; unique in a well-formed trie (R217, R224). -/
def childFor (cfg : Config) (node : Nat) (b : Byte) : Option Nat :=
  match cfg.trie[node]? with
  | some n => (List.range' n.childIndex n.childCount).find? (nodeMatches cfg b)
  | none => none

/-- The loop of `lookup_symbol` (R217): from a node and the number of bytes matched so far, over the bytes that follow. -/
def descend (cfg : Config) (node len : Nat) : List Byte → Nat × Nat
  | [] => (node, len)
  | b :: bs =>
    match childFor cfg node b with
    | some j => descend cfg j (len + 1) bs
    | none => (node, len)

/-- `lookup_symbol` at the byte b, which is a first character, followed by bs: the last node matched and the number of
bytes matched (R217). -/
def lookupSymbol (cfg : Config) (b : Byte) (bs : List Byte) : Nat × Nat :=
  descend cfg (b.toNat - cfg.firstLevelMin.toNat) 1 bs

/-- `match_run` (R218), with a bound on the number of symbols: the nodes matched and the bytes left. -/
def matchRun (cfg : Config) : Nat → List Byte → List Nat × List Byte
  | _, [] => ([], [])
  | 0, s => ([], s)
  | k + 1, b :: bs =>
    if isFirst cfg b then
      let m := lookupSymbol cfg b bs
      let r := matchRun cfg k (bs.drop (m.2 - 1))
      (m.1 :: r.1, r.2)
    else ([], b :: bs)

/-- `literal_run` (R219): the bytes up to the next first character, and the bytes left. -/
def literalRun (cfg : Config) (s : List Byte) : List Byte × List Byte :=
  (s.takeWhile fun b => !isFirst cfg b, s.dropWhile fun b => !isFirst cfg b)

/-- `emit_symbol(node)` (R221). -/
def emitSymbol (s : State) (node : Nat) : State :=
  match s.cfg.trie[node]? with
  | some n => bwWrite n.encodedValue n.encodedLength s
  | none => s

/-- `emit_literal(b)` (R222). -/
def emitLiteral (s : State) (b : Byte) : State := bwWrite b.toNat 8 s

/-- A match group: the count, then the symbols (R220). -/
def emitMatchGroup (syms : List Nat) (s : State) : State := syms.foldl emitSymbol (egEncode syms.length s)

/-- A literal group: the count, then the bytes (R220). -/
def emitLiteralGroup (lits : List Byte) (s : State) : State := lits.foldl emitLiteral (egEncode lits.length s)

/-- The loop of `STR_compress` (R220), with a bound on its rounds. It stops after the first empty group, but for an empty
first match group. -/
def strRounds (cfg : Config) : Nat → Bool → List Byte → State → State
  | 0, _, _, s => s
  | k + 1, first, bs, s =>
    let m := matchRun cfg bs.length bs
    let s1 := emitMatchGroup m.1 s
    if m.1.length = 0 ∧ first = false then s1
    else
      let l := literalRun cfg m.2
      let s2 := emitLiteralGroup l.1 s1
      if l.1.length = 0 then s2 else strRounds cfg k false l.2 s2

/-- `STR_compress(s)` (R220). -/
def strCompress (bs : List Byte) (s : State) : State := strRounds s.cfg (bs.length + 1) true bs s

/-- `STR_COMPRESS "s"` (R223). -/
def execStrCompress (len : BitVec 16) (ws : List Word) (s : State) : Host.Outcome State Fault Refusal :=
  checked s <|
    if paddingClear len.toNat ws then complete 0 (strCompress (stringBytes len.toNat ws) s)
    else raise .illegalCommand s

end Sys2Proof.Machine
end

