-- ==== Sys2Proof/Machine/Tablog.lean ====
section
/-! DEFINITION. The block controller (45_tablog.md). -/

namespace Sys2Proof.Machine

/-- One column of the header: the name, the signedness bit and the two bits of `log2(bytes)` (R184, R185). -/
def headerColumn (s : State) (c : Nat) : State :=
  let cc := s.cfg.col c
  bwWrite (floorLog2 cc.type.width.bytes) 2 (bwWrite cc.type.signed.toNat 1 (strCompress cc.name s))

/-- Every column made fresh, in order (R181). -/
def freshColumns (s : State) : State := (List.range s.cfg.ncol).foldl (fun t c => colFresh c t) s

/-- `TAB_start_block()` (R181). -/
def tabStartBlock (s : State) : State :=
  let s1 := frMark startByte (freshColumns s)
  let s2 := egEncode s.cfg.ncol (egEncode (s.cfg.formatVersion + 1) s1)
  ((List.range s.cfg.ncol).foldl headerColumn s2).setBlock .inBlock

/-- `TAB_end_block()` (R186). -/
def tabEndBlock (s : State) : State := (frMark endByte (bwEnd s)).setBlock .noBlock

/-- `TAB_start_block()` when no block is open (R187, R188). -/
def openBlock (s : State) : State :=
  match s.block with
  | .noBlock => tabStartBlock s
  | .inBlock => s

/-- Every word of the row is well-formed for its column (R187). -/
def rowOk (cfg : Config) (vs : List Word) : Bool :=
  (List.range cfg.ncol).all fun i => columnWordOk (cfg.col i).type (vs.getD i 0)

/-- Code the row, column 0 first (R61, R187). -/
def codeRow (vs : List Word) (s : State) : State :=
  (List.range s.cfg.ncol).foldl (fun t i => colWrite i (columnValue (t.cfg.col i).type (vs.getD i 0)) t) s

/-- `TAB_WRITE_ROW v0, …, v(NCOL−1)` (R187): all words are checked before any effect. -/
def execTabWriteRow (vs : List Word) (s : State) : Host.Outcome State Fault Refusal :=
  checked s <|
    if rowOk s.cfg vs then complete 0 (codeRow vs (openBlock s)) else raise .valueRange s

/-- `TAB_END_BLOCK` (R188). -/
def execTabEndBlock (s : State) : Host.Outcome State Fault Refusal :=
  checked s <| complete 0 (tabEndBlock (openBlock s))

/-- The effect of `TAB_CLOSE` (R189). -/
def tabClose (s : State) : State :=
  let s1 :=
    match s.block with
    | .inBlock => tabEndBlock s
    | .noBlock => s
  (s1.setBits 0 0).setClosed true

/-- `TAB_CLOSE` (R189). -/
def execTabClose (s : State) : Host.Outcome State Fault Refusal :=
  checked s <| complete 0 (tabClose s)

/-- `STATUS_READ` (R190): it makes none of the general checks on the fault and close flags (60_exceptions.md R243). -/
def execStatusRead (s : State) : Host.Outcome State Fault Refusal := complete (statusWord s) s

end Sys2Proof.Machine
end

