-- ==== Sys2Proof/Machine/Dispatch.lean ====
section
/-! DEFINITION. Which meaning runs for which command: one arm per constructor of `Instr`. -/

namespace Sys2Proof.Machine

def exec (i : Instr) (s : State) : Host.Outcome State Fault Refusal :=
  match i with
  | .bwWrite n d => Sys2Proof.Machine.execBwWrite n d s
  | .bwWriteBit b => Sys2Proof.Machine.execBwWriteBit b s
  | .bwFlush => Sys2Proof.Machine.execBwFlush s
  | .bwEnd => Sys2Proof.Machine.execBwEnd s
  | .egEncode n => Sys2Proof.Machine.execEgEncode n s
  | .aegEncode c n => Sys2Proof.Machine.execAegEncode c n s
  | .predFeed c v => Sys2Proof.Machine.execPredFeed c v s
  | .colWrite c v => Sys2Proof.Machine.execColWrite c v s
  | .colReset c => Sys2Proof.Machine.execColReset c s
  | .tabWriteRow vs => Sys2Proof.Machine.execTabWriteRow vs s
  | .tabEndBlock => Sys2Proof.Machine.execTabEndBlock s
  | .tabClose => Sys2Proof.Machine.execTabClose s
  | .statusRead => Sys2Proof.Machine.execStatusRead s
  | .frByte b => Sys2Proof.Machine.execFrByte b s
  | .frStart => Sys2Proof.Machine.execFrStart s
  | .frEnd => Sys2Proof.Machine.execFrEnd s
  | .strCompress len ws => Sys2Proof.Machine.execStrCompress len ws s

end Sys2Proof.Machine
end

