-- ==== Sys2Proof/Machine/Step.lean ====
section
/-! DEFINITION. One step of the block (00_scope.md R6): the next event at the command port, run to completion. -/

namespace Sys2Proof.Machine

/-- One step. An ill-formed configuration gets no run (R8). Otherwise the block takes the next event from its command port:
a whole command, which it runs; an illegal header, which faults; a reset; or nothing yet, and then it waits, which is a
step that changes nothing (60_exceptions.md R256, 70_reset_and_hazards.md R269, log 6). -/
def step (s : State) : Host.Outcome State Fault Refusal :=
  if s.cfg.wf then
    match fetch s.cfg.ncol s.port with
    | .wait => .next s
    | .reset rest => .next (resetBlock (s.setPort rest))
    | .illegal rest => illegalHeader (s.setPort rest)
    | .run i rest => exec i (s.setPort rest)
  else .refused .illFormedConfiguration

/-- The state in which the host has presented, ahead of anything else, the command whose bits are the low nbits of w: its
header and as many operand words as the header calls for (log 4). -/
def State.withFetchWord (s : State) (nbits w : Nat) : State :=
  s.setPort ((tableWords s.cfg.ncol nbits w).map .word ++ s.port)

end Sys2Proof.Machine
end

