-- ==== Sys2Proof/Machine/Reference.lean ====
section
/-! DEFINITION. What the block writes, said a second time without its registers: the codes as bit sequences in emission
order, the packing of bits into bytes (20_memory.md R52, R54), the escaper as a function of byte sequences (46_framing.md
R201), the layout of a block (45_tablog.md R191), and the reference readers of R123 and R207, which are no units of the
block. No step calls this file; the statements about the machine are said in its words. -/

namespace Sys2Proof.Machine

/-! ### Bits and bytes (R52, R54) -/

/-- A bit sequence read as one LSB-first field. -/
def fieldValue : List Bool → Nat
  | [] => 0
  | b :: bs => b.toNat + 2 * fieldValue bs

/-- The bits of a byte in write order: bit 0 first. -/
def byteBits (b : Byte) : List Bool := fieldBits b.toNat 8

/-- Up to eight bits as a byte, the first bit in bit 0, zeros above the last. -/
def byteOfBits (bs : List Bool) : Byte := BitVec.ofNat 8 (fieldValue bs)

/-- The whole bytes of a bit sequence (R53). -/
def wholeBytes : List Bool → List Byte
  | b0 :: b1 :: b2 :: b3 :: b4 :: b5 :: b6 :: b7 :: bs => byteOfBits [b0, b1, b2, b3, b4, b5, b6, b7] :: wholeBytes bs
  | _ => []

/-- The bits that fill no whole byte. -/
def leftoverBits : List Bool → List Bool
  | _ :: _ :: _ :: _ :: _ :: _ :: _ :: _ :: bs => leftoverBits bs
  | bs => bs

/-- `bits2bytes` of R191: the bits packed LSB first, zeros after the last one up to a byte boundary. -/
def bitsToBytes (bs : List Bool) : List Byte :=
  wholeBytes bs ++ (if leftoverBits bs = [] then [] else [byteOfBits (leftoverBits bs)])

/-! ### The escaper (R201) -/

/-- `FR_accept` applied byte by byte, from a value of `FR.hadEscape`: the bytes it appends. -/
def escapeBytes : Bool → List Byte → List Byte
  | _, [] => []
  | e, b :: bs => (if needsDbl e b then [dblByte, b] else [b]) ++ escapeBytes (escapeAfter b) bs

/-- `FR.hadEscape` after `FR_accept` of these bytes. -/
def escapeFlag : Bool → List Byte → Bool
  | e, [] => e
  | _, b :: bs => escapeFlag (escapeAfter b) bs

/-! ### The bit stream of a state (R22, R36) -/

/-- The pending bits of `BW.buffer` in write order (R22). -/
def pendingBits (s : State) : List Bool := fieldBits s.bwBuffer.toNat s.bwUsed.toNat

/-- The state after these bits are written: the bytes that fill leave through the escaper, in write order, and the rest is
pending. Nothing else changes. -/
def appendBits (bits : List Bool) (s : State) : State :=
  let stream := pendingBits s ++ bits
  ((s.setOut (s.out ++ escapeBytes s.hadEscape (wholeBytes stream))).setEscape
    (escapeFlag s.hadEscape (wholeBytes stream))).setBits
    (byteOfBits (leftoverBits stream)) (BitVec.ofNat 3 (leftoverBits stream).length)

/-! ### The codes -/

/-- The Elias-gamma code of n (R120). -/
def egBits (n : Nat) : List Bool :=
  List.replicate (floorLog2 (n + 1)) false ++ true :: fieldBits (n + 1) (floorLog2 (n + 1))

/-- The adaptive exp-Golomb code of n at shift k (R133). -/
def aegBits (k n : Nat) : List Bool := egBits (n / 2 ^ k) ++ fieldBits n k

/-- The code of one value v of a column (R170), by the true distance to the prediction. -/
def colBits (cc : ColumnConfig) (u : ColUnit) (v : Int) : List Bool :=
  let p := predict cc u.pred
  if p = v then [true]
  else false :: decide (v < p) :: aegBits (shiftOf u.aeg) ((p - v).natAbs - 1)

/-- The column unit after the value v (R170, R134, R155). -/
def colNext (cfg : Config) (cc : ColumnConfig) (u : ColUnit) (v : Int) : ColUnit where
  aeg :=
    let p := predict cc u.pred
    if p = v then u.aeg
    else adaptState (cfg.maxState.at cc.type.width) u.aeg (((p - v).natAbs - 1) / 2 ^ shiftOf u.aeg)
  pred := feed cc u.pred v

/-- The code of a trie symbol (R221). -/
def symbolBits (cfg : Config) (node : Nat) : List Bool :=
  match cfg.trie[node]? with
  | some n => fieldBits n.encodedValue n.encodedLength
  | none => []

/-- A match group (R220). -/
def matchGroupBits (cfg : Config) (syms : List Nat) : List Bool := egBits syms.length ++ syms.flatMap (symbolBits cfg)

/-- A literal group (R220, R222). -/
def literalGroupBits (lits : List Byte) : List Bool := egBits lits.length ++ lits.flatMap byteBits

/-- The rounds of groups of a string's code (R220), with a bound on their number. -/
def strRoundBits (cfg : Config) : Nat → Bool → List Byte → List Bool
  | 0, _, _ => []
  | k + 1, first, bs =>
    let m := matchRun cfg bs.length bs
    let l := literalRun cfg m.2
    matchGroupBits cfg m.1 ++
      if m.1 = [] ∧ first = false then []
      else literalGroupBits l.1 ++ if l.1 = [] then [] else strRoundBits cfg k false l.2

/-- The code of a byte string (R220). -/
def strBits (cfg : Config) (bs : List Byte) : List Bool := strRoundBits cfg (bs.length + 1) true bs

/-! ### The layout of a block (R181 to R191) -/

/-- One column of the header (R184, R185). -/
def headerColumnBits (cfg : Config) (cc : ColumnConfig) : List Bool :=
  strBits cfg cc.name ++ cc.type.signed :: fieldBits (floorLog2 cc.type.width.bytes) 2

/-- The header of a block (R181). -/
def headerBits (cfg : Config) : List Bool :=
  egBits (cfg.formatVersion + 1) ++ egBits cfg.ncol ++ cfg.cols.flatMap (headerColumnBits cfg)

/-- The fresh units of all columns (R171). -/
def freshUnits (cfg : Config) : List ColUnit := cfg.cols.map (ColUnit.fresh cfg)

/-- The code of one row, given the column units before it: column 0 first (R61, R187). -/
def rowBits : List ColumnConfig → List ColUnit → List Int → List Bool
  | cc :: ccs, u :: us, v :: vs => colBits cc u v ++ rowBits ccs us vs
  | _, _, _ => []

/-- The column units after one row. -/
def rowNext (cfg : Config) : List ColumnConfig → List ColUnit → List Int → List ColUnit
  | cc :: ccs, u :: us, v :: vs => colNext cfg cc u v :: rowNext cfg ccs us vs
  | _, us, _ => us

/-- The code of several rows. -/
def rowsBits (cfg : Config) : List ColUnit → List (List Int) → List Bool
  | _, [] => []
  | us, vs :: rows => rowBits cfg.cols us vs ++ rowsBits cfg (rowNext cfg cfg.cols us vs) rows

/-- The column units after several rows. -/
def rowsNext (cfg : Config) : List ColUnit → List (List Int) → List ColUnit
  | us, [] => us
  | us, vs :: rows => rowsNext cfg (rowNext cfg cfg.cols us vs) rows

/-- A block on the wire (R191): the start marker, the escaped bytes of header, rows and end bit, the end marker. -/
def blockBytes (cfg : Config) (rows : List (List Int)) : List Byte :=
  [escByte, startByte] ++
    escapeBytes false (bitsToBytes (headerBits cfg ++ rowsBits cfg (freshUnits cfg) rows ++ [true])) ++
    [escByte, endByte]

/-- Byte i of a packed string operand: `D(i div 8)[8·(i mod 8)+7 : 8·(i mod 8)]` (30_encoding.md R77). -/
def packedByte (ws : List Word) (i : Nat) : Byte := (ws.getD (i / 8) 0).extractLsb' (8 * (i % 8)) 8

/-! ### Reference readers, not units of the block -/

/-- `EG_decode` (R123): the number, and the bits after its code. DESIGN CHOICE, safe (log 20): R123 is silent on a bit stream
that ends before the code is complete (no 1 bit, or fewer than L bits after it); the model gives no number. -/
def egDecode (bits : List Bool) : Option (Nat × List Bool) :=
  let l := (bits.takeWhile fun b => !b).length
  match bits.drop l with
  | true :: rest => if rest.length < l then none else some (2 ^ l + fieldValue (rest.take l) - 1, rest.drop l)
  | _ => none

/-- What a reader of OUT finds (R207). -/
inductive Framed where
  | payload (b : Byte)
  | blockStart
  | blockEnd
  deriving DecidableEq, Repr

/-- Where a reader of OUT stands: between items, after an `ESC`, or after `ESC, DBL`. -/
inductive ReadMode where
  | plain | escaped | literal
  deriving DecidableEq, Repr

/-- Undo the escaping (R207). DESIGN CHOICE, safe (log 19): R207 speaks of the byte after an `ESC` and after an
`ESC, DBL`, and is silent where the stream ends there; this reader then gives the payload byte `ESC`, and nothing for the
`DBL`. -/
def readFramed : ReadMode → List Byte → List Framed
  | .plain, [] => []
  | .escaped, [] => [.payload escByte]
  | .literal, [] => []
  | .plain, b :: bs => if b = escByte then readFramed .escaped bs else .payload b :: readFramed .plain bs
  | .escaped, b :: bs =>
    if b = dblByte then .payload escByte :: readFramed .literal bs
    else if b = escByte then .payload escByte :: readFramed .escaped bs
    else if b = startByte then .blockStart :: readFramed .plain bs
    else if b = endByte then .blockEnd :: readFramed .plain bs
    else .payload escByte :: .payload b :: readFramed .plain bs
  | .literal, b :: bs => .payload b :: readFramed .plain bs

/-! ### Several commands, one after another -/

/-- Run a list of commands from a state, each from the state the one before it left; none where one of them stops. -/
def execAll : List Instr → State → Option State
  | [], s => some s
  | i :: is, s =>
    match exec i s with
    | .next t => execAll is t
    | .fault _ => none
    | .refused _ => none

end Sys2Proof.Machine
end

