-- ==== Sys2Proof/Safety.lean ====
section
/-! DEFINITION. What holds of every state of a run of a well-formed block: the invariants of 10_state.md (R22 to R31), in the
terms the statements use. -/

namespace Sys2Proof.Machine

/-- The state of a column's predictor fits the column: its kind is the configured one, its values are of the column type,
and a history holds at most N of them (R29, R30). -/
def PredState.fits (cc : ColumnConfig) : PredState → Bool
  | .l12a p0 p1 _ =>
    match cc.kind with
    | .l12a => cc.type.holds p0 && cc.type.holds p1
    | .sl _ => false
  | .sl h =>
    match cc.kind with
    | .l12a => false
    | .sl n => decide (h.length ≤ n) && h.all cc.type.holds

/-- A column unit fits its column: `0 ≤ aeg ≤ MAX_STATE(W)` (R28) and the predictor state fits. -/
def ColUnit.fits (cfg : Config) (cc : ColumnConfig) (u : ColUnit) : Bool :=
  decide (u.aeg.toNat ≤ cfg.maxState.at cc.type.width) && u.pred.fits cc

/-- The column units fit the columns, one for each (R27). -/
def unitsFit (cfg : Config) : List ColumnConfig → List ColUnit → Bool
  | [], [] => true
  | cc :: ccs, u :: us => u.fits cfg cc && unitsFit cfg ccs us
  | _, _ => false

/-- The pending bits are all that `BW.buffer` holds (R23). -/
def BufferClean (s : State) : Prop := s.bwBuffer.toNat < 2 ^ s.bwUsed.toNat

/-- What every state of a run satisfies. -/
structure State.Inv (s : State) : Prop where
  /-- The configuration is well-formed (R8). -/
  config : s.cfg.wf = true
  /-- R23. -/
  buffer : BufferClean s
  /-- `FR.hadEscape` is set only while the last byte of OUT is `ESC` (R24, log 14). -/
  escape : s.hadEscape = true → s.out.getLast? = some escByte
  /-- A closed block is outside a block (R189). -/
  closedOutside : s.closed = true → s.block = .noBlock
  /-- `FLT.code` is NONE exactly while `FLT.faulted = 0` (R240). -/
  faultCode : s.faultCode = .none ↔ s.faulted = false
  /-- REFUSED is never recorded (R240). -/
  neverRefused : s.faultCode ≠ .refused
  /-- Every column has its unit, and the unit fits (R27 to R30). -/
  units : unitsFit s.cfg s.cfg.cols s.cols = true

/-- The block takes commands: no fault is recorded and it is not closed (R243 steps 1 and 3). -/
structure Ready (s : State) : Prop where
  notFaulted : s.faulted = false
  notClosed : s.closed = false

/-- The two states agree on all but the bit stream: `BW`, `FR` and OUT, and OUT is only extended. -/
structure StreamOnly (s t : State) : Prop where
  cfg : t.cfg = s.cfg
  block : t.block = s.block
  closed : t.closed = s.closed
  faulted : t.faulted = s.faulted
  faultCode : t.faultCode = s.faultCode
  cols : t.cols = s.cols
  port : t.port = s.port
  responses : t.responses = s.responses
  out : s.out <+: t.out

/-! ### What a command leaves, as a whole state -/

/-- The command completed with this response data (30_encoding.md R79) and left s otherwise. -/
def okState (data : BitVec 64) (s : State) : State :=
  { s with responses := s.responses ++ [⟨true, .none, data⟩] }

/-- The command faulted in state s (60_exceptions.md R241): the sticky flag, the code and the response, and nothing else. -/
def faultState (code : FaultCode) (s : State) : State :=
  { s with faulted := true, faultCode := code, responses := s.responses ++ [⟨false, code, 0⟩] }

/-- The command was refused in state s (R243 step 1): the response, and nothing else. -/
def refusedState (s : State) : State :=
  { s with responses := s.responses ++ [⟨false, .refused, 0⟩] }

/-! ### The block of 45_tablog.md, as whole states -/

/-- A block has just been started from s (R181). -/
def startedBlock (s : State) : State :=
  { appendBits (headerBits s.cfg)
      { s with cols := freshUnits s.cfg, out := s.out ++ [escByte, startByte], hadEscape := false } with
    block := .inBlock }

/-- The block has just been ended from s (R186, 40_bitwriter.md R102). -/
def endedBlock (s : State) : State :=
  { s with
    bwBuffer := 0
    bwUsed := 0
    out := s.out ++ escapeBytes s.hadEscape [byteOfBits (pendingBits s ++ [true])] ++ [escByte, endByte]
    hadEscape := false
    block := .noBlock }

/-- A row has just been coded from s (R187). -/
def codedRow (vals : List Int) (s : State) : State :=
  { appendBits (rowBits s.cfg.cols s.cols vals) s with cols := rowNext s.cfg s.cfg.cols s.cols vals }

/-- A row of values has one value of its column's type for each column (R187). -/
def RowFits (cfg : Config) (vals : List Int) : Prop :=
  List.Forall₂ (fun cc v => cc.type.holds v = true) cfg.cols vals

/-- The row command whose words carry these values: the word of a value is its 64-bit residue (30_encoding.md R76). -/
def rowCommand (vals : List Int) : Instr := .tabWriteRow (vals.map (BitVec.ofInt 64))

/-- The commands of one whole block: its rows, then its end. -/
def blockCommands (rows : List (List Int)) : List Instr := rows.map rowCommand ++ [.tabEndBlock]

/-! ### Paths of the trie (47_string_trie.md R215, R217) -/

/-- `TRIE[j]` is a child of `TRIE[i]` and matches the character b. -/
def TrieEdge (cfg : Config) (i : Nat) (b : Byte) (j : Nat) : Prop :=
  ∃ m n, cfg.trie[i]? = some m ∧ cfg.trie[j]? = some n ∧ m.childIndex ≤ j ∧ j < m.childIndex + m.childCount ∧ n.char = b

/-- The characters bs lead from `TRIE[i]` to `TRIE[j]`. -/
def TriePath (cfg : Config) : Nat → List Byte → Nat → Prop
  | i, [], j => i = j
  | i, b :: bs, j => ∃ k, TrieEdge cfg i b k ∧ TriePath cfg k bs j

/-! ### The conditions on a configuration, as the spec lists them -/

/-- `TRIE[i]` is the parent of `TRIE[j]` (47_string_trie.md R215). -/
def TrieParent (cfg : Config) (i j : Nat) : Prop :=
  ∃ n, cfg.trie[i]? = some n ∧ n.childIndex ≤ j ∧ j < n.childIndex + n.childCount

/-- A well-formed trie, condition by condition (47_string_trie.md R224). -/
structure TrieConditions (cfg : Config) : Prop where
  /-- Condition 1. -/
  firstLevelFits :
    1 ≤ cfg.firstLevelCount ∧ cfg.firstLevelCount ≤ cfg.trie.length ∧ cfg.firstLevelMin.toNat + cfg.firstLevelCount ≤ 256
  /-- Condition 2. -/
  firstLevelIndexed :
    ∀ i < cfg.firstLevelCount, ∃ n, cfg.trie[i]? = some n ∧ n.char.toNat = cfg.firstLevelMin.toNat + i
  /-- Condition 3. -/
  childrenInRange :
    ∀ n ∈ cfg.trie, 0 < n.childCount →
      cfg.firstLevelCount ≤ n.childIndex ∧ n.childIndex + n.childCount ≤ cfg.trie.length
  /-- Condition 4. -/
  oneParent : ∀ i j k, TrieParent cfg i k → TrieParent cfg j k → i = j
  /-- Condition 5. -/
  siblingsDistinct :
    ∀ i j k m n, TrieParent cfg i j → TrieParent cfg i k → cfg.trie[j]? = some m → cfg.trie[k]? = some n →
      m.char = n.char → j = k
  /-- Condition 6. -/
  codesFit : ∀ n ∈ cfg.trie, 1 ≤ n.encodedLength ∧ n.encodedLength ≤ 64 ∧ n.encodedValue < 2 ^ n.encodedLength
  /-- Condition 7: no node is its own ancestor. -/
  acyclic : ∀ i, ¬ Relation.TransGen (TrieParent cfg) i i

/-- A well-formed configuration, condition by condition (00_scope.md R8, with the ranges of R7 for N and MAX_STATE, log 9,
and one triple of L12A_INIT_* for every L12A column, log 8). -/
structure ConfigConditions (cfg : Config) : Prop where
  columns : cfg.ncol ≤ 256
  slLength : ∀ cc ∈ cfg.cols, ∀ n, cc.kind = .sl n → 2 ≤ n ∧ n ≤ 255
  l12aInit :
    ∀ cc ∈ cfg.cols, cc.kind = .l12a →
      (cc.type.minValue ≤ cfg.l12aInitPrev0 ∧ cfg.l12aInitPrev0 ≤ cc.type.maxValue) ∧
        cc.type.minValue ≤ cfg.l12aInitPrev1 ∧ cfg.l12aInitPrev1 ≤ cc.type.maxValue
  selector : -8 ≤ cfg.l12aInitSel ∧ cfg.l12aInitSel ≤ 7
  names : ∀ cc ∈ cfg.cols, cc.name.length ≤ 65535
  version : cfg.formatVersion + 1 < 2 ^ 64
  maxState : ∀ w : ByteWidth, 4 * w.bytes ≤ cfg.maxState.at w ∧ cfg.maxState.at w ≤ 4 * (w.bits - 1)
  trie : TrieConditions cfg

end Sys2Proof.Machine
end

