-- ==== Sys2Proof/Certificates/Slice0/Obligations.lean ====
section
/-! DEFINITION. The statements for the provers. Each is about every state and operand it quantifies over, and every
configuration, since the configuration is a field of the state (log 1). A rule R<n> is one of spec/. -/

open Sys2Proof Sys2Proof.Machine

/-! ### Encoding -/

/-- 30_encoding.md R70 to R78: decoding the words of a well-formed command, whatever follows them, gives the command back
and leaves what follows. -/
def Obligations.DecodeInvertsEncode : Prop :=
  ∀ (ncol : Nat) (i : Instr) (rest : List Word), i.wf ncol = true → decode ncol (encode i ++ rest) = .ok (i, rest)

/-- 30_encoding.md R71 to R80: a command that decodes is well-formed, and its words are the only ones that encode it. -/
def Obligations.EncodeInvertsDecode : Prop :=
  ∀ (ncol : Nat) (ws : List Word) (i : Instr) (rest : List Word),
    decode ncol ws = .ok (i, rest) → i.wf ncol = true ∧ ws = encode i ++ rest

/-- 30_encoding.md R75, R80: a header is legal with an opcode exactly when `H & mask = match` for the opcode's row, and the
rows' match values and masks are those the table prints. -/
def Obligations.HeaderMaskSelectsOpcode : Prop :=
  (∀ (h : Word) (op : Opcode), headerOpcode h = .ok op ↔ h &&& op.headerMask = op.headerMatch) ∧
    [Opcode.bwWrite, .bwWriteBit, .bwFlush, .bwEnd, .egEncode, .aegEncode, .predFeed, .colWrite, .colReset,
      .tabWriteRow, .tabEndBlock, .tabClose, .statusRead, .frByte, .frStart, .frEnd, .strCompress].map
        (fun op => (op.headerMatch, op.headerMask)) =
      [(0x01, 0xFFFFFFFFFFFF00FF), (0x02, 0xFFFFFFFFFFFFFEFF), (0x03, 0xFFFFFFFFFFFFFFFF),
        (0x04, 0xFFFFFFFFFFFFFFFF), (0x08, 0xFFFFFFFFFFFFFFFF), (0x0C, 0xFFFFFFFFFFFF00FF),
        (0x10, 0xFFFFFFFFFFFF00FF), (0x14, 0xFFFFFFFFFFFF00FF), (0x15, 0xFFFFFFFFFFFF00FF),
        (0x18, 0xFFFFFFFFFFFFFFFF), (0x19, 0xFFFFFFFFFFFFFFFF), (0x1A, 0xFFFFFFFFFFFFFFFF),
        (0x1B, 0xFFFFFFFFFFFFFFFF), (0x20, 0xFFFFFFFFFFFF00FF), (0x21, 0xFFFFFFFFFFFFFFFF),
        (0x22, 0xFFFFFFFFFFFFFFFF), (0x28, 0xFFFFFFFF0000FFFF)]

/-- 30_encoding.md R84: the words of its example encodings, for a block of two columns, decode to the commands beside
them. -/
def Obligations.ExampleWordsDecode : Prop :=
  decode 2 [0x0000000000000301, 0x0000000000000005] = .ok (.bwWrite 3 5, []) ∧
    decode 2 [0x0000000000000102] = .ok (.bwWriteBit true, []) ∧
    decode 2 [0x0000000000000004] = .ok (.bwEnd, []) ∧
    decode 2 [0x0000000000000008, 0x0000000000000006] = .ok (.egEncode 6, []) ∧
    decode 2 [0x0000000000000114, 0xFFFFFFFFFFFFFFFF] = .ok (.colWrite 1 (-1), []) ∧
    decode 2 [0x0000000000005420] = .ok (.frByte 0x54, []) ∧
    decode 2 [0x0000000000050028, 0x0000006261636261] = .ok (.strCompress 5 [0x0000006261636261], []) ∧
    decode 2 [0x0000000000000028] = .ok (.strCompress 0 [], [])

/-- 20_memory.md R55: words carried as bytes are read back; byte i of a word's eight is its bits 8i to 8i + 7, so the
first is the least significant; and the bytes of the next words follow. -/
def Obligations.WordsCarriedAsBytes : Prop :=
  ∀ (w : Word) (ws : List Word),
    wordsOfBytes (bytesOfWords (w :: ws)) = w :: ws ∧
      (bytesOfWords (w :: ws)).head? = some (w.setWidth 8) ∧
      (∀ i < 8, (bytesOfWords (w :: ws))[i]? = some (w.extractLsb' (8 * i) 8)) ∧
      (bytesOfWords (w :: ws)).drop 8 = bytesOfWords ws

/-! ### The command port and the step -/

/-- 00_scope.md R6, 30_encoding.md R70: when the words at the port decode to a command, the step takes exactly those words
and runs the command. That the host's words stand in a list at the port is the model's choice (log 4). -/
def Obligations.StepRunsDecodedCommand : Prop :=
  ∀ (s : State) (ws : List Word) (i : Instr) (rest : List HostInput),
    s.cfg.wf = true → decode s.cfg.ncol ws = .ok (i, []) → s.port = ws.map .word ++ rest →
      step s = exec i (s.setPort rest)

/-- 30_encoding.md R80 with 60_exceptions.md R243 steps 1 and 2, R244: a header that no row of R75 selects takes no operand
words, and faults with ILLEGAL_COMMAND, or is refused when a fault is already recorded. The port is the model's (log 4). -/
def Obligations.IllegalHeaderFaults : Prop :=
  ∀ (s : State) (h : Word) (rest : List HostInput),
    s.cfg.wf = true → (∀ op : Opcode, h &&& op.headerMask ≠ op.headerMatch) → s.port = .word h :: rest →
      step s = .next (if s.faulted then refusedState (s.setPort rest) else faultState .illegalCommand (s.setPort rest))

/-- The words ws do not yet hold a whole command: there is no header, or a legal header and too few operand words (R72). -/
def commandIncomplete (ncol : Nat) (ws : List Word) : Prop :=
  ws = [] ∨ ∃ h ds op, ws = h :: ds ∧ h &&& Opcode.headerMask op = op.headerMatch ∧
    ds.length < op.operandCount ncol (lField h)

/-- 70_reset_and_hazards.md R269: a command whose operand words have not all arrived is not started; the block waits, and
no number of steps ends the wait. That waiting is a step that changes nothing is the model's reading (log 6). -/
def Obligations.IncompleteCommandWaits : Prop :=
  ∀ (s : State) (ws : List Word) (k : Nat),
    s.cfg.wf = true → s.port = ws.map .word → commandIncomplete s.cfg.ncol ws → Host.Core.run Sys2Proof.core k s = .next s

/-- THE MODEL'S READING of what a reset does to a command that has not arrived whole (log 7; R269 says only that the block
waits until it is reset): its words are dropped and the block is reset. -/
def Obligations.ResetDropsIncompleteCommand : Prop :=
  ∀ (s : State) (ws : List Word) (rest : List HostInput),
    s.cfg.wf = true → s.port = ws.map .word ++ .reset :: rest → commandIncomplete s.cfg.ncol ws →
      step s = .next (resetBlock (s.setPort rest))

/-- 10_state.md R37: what every register holds after reset, from any state; the configuration and OUT are not registers and
stay. -/
def Obligations.ResetLeavesListedValues : Prop :=
  ∀ s : State,
    resetBlock s = { s with
      bwBuffer := 0
      bwUsed := 0
      hadEscape := false
      block := .noBlock
      closed := false
      faulted := false
      faultCode := .none
      cols := s.cfg.cols.map fun cc =>
        { aeg := BitVec.ofNat 8 (4 * cc.type.width.bytes)
          pred :=
            match cc.kind with
            | .l12a => .l12a s.cfg.l12aInitPrev0 s.cfg.l12aInitPrev1 (BitVec.ofInt 4 s.cfg.l12aInitSel)
            | .sl _ => .sl [] } }

/-- 70_reset_and_hazards.md R260: reset writes every register, emits nothing, responds nothing, and then waits for the first
command. That a reset is an input of the port is the model's choice (log 4, log 7). -/
def Obligations.ResetWritesEveryRegister : Prop :=
  ∀ (s : State) (rest : List HostInput), s.cfg.wf = true → s.port = .reset :: rest →
    ∃ t, step s = .next t ∧
      t = { s with
        bwBuffer := 0
        bwUsed := 0
        hadEscape := false
        block := .noBlock
        closed := false
        faulted := false
        faultCode := .none
        cols := s.cfg.cols.map fun cc =>
          { aeg := BitVec.ofNat 8 (4 * cc.type.width.bytes)
            pred :=
              match cc.kind with
              | .l12a => .l12a s.cfg.l12aInitPrev0 s.cfg.l12aInitPrev1 (BitVec.ofInt 4 s.cfg.l12aInitSel)
              | .sl _ => .sl [] }
        port := rest } ∧
      (rest = [] → step t = .next t)

/-- 00_scope.md R8, 47_string_trie.md R224, 70_reset_and_hazards.md R262: the check of a configuration accepts exactly those
that meet the listed conditions; an ill-formed configuration is given no run, and nothing else stops a step. That the
refusal is one of each step, and which ranges are well-formedness, is the model's reading (log 1, log 8, log 9). -/
def Obligations.OnlyIllFormedConfigurationStops : Prop :=
  ∀ s : State, (s.cfg.wf = true ↔ ConfigConditions s.cfg) ∧ (s.cfg.wf = true → ∃ t, step s = .next t) ∧
    (s.cfg.wf = false → step s = .refused .illFormedConfiguration)

/-- 60_exceptions.md R244: every command, also a faulting or refused one, ends with exactly one response; and no command
touches the configuration (00_scope.md R7) or the words still at the port. The log of responses is the model's (log 5). -/
def Obligations.EveryCommandRespondsOnce : Prop :=
  ∀ (i : Instr) (s : State), ∃ t r, exec i s = .next t ∧ t.responses = s.responses ++ [r] ∧ t.cfg = s.cfg ∧
    t.port = s.port

/-- 60_exceptions.md R244: where the next command starts never depends on the block's state, only on what stands at the port
and on NCOL. The port is the model's (log 4). -/
def Obligations.NextCommandStartIgnoresState : Prop :=
  ∀ s₁ s₂ t₁ t₂ : State, s₁.cfg.ncol = s₂.cfg.ncol → s₁.port = s₂.port → step s₁ = .next t₁ → step s₂ = .next t₂ →
    t₁.port = t₂.port

/-! ### Faults (60_exceptions.md) -/

/-- R243 step 1, R248: while a fault is recorded, every command but STATUS_READ is refused and changes nothing but the
responses. -/
def Obligations.FaultedBlockRefuses : Prop :=
  ∀ (i : Instr) (s : State), s.faulted = true → i ≠ .statusRead → exec i s = .next (refusedState s)

/-- R243 step 3: after TAB_CLOSE every command but STATUS_READ faults with AFTER_CLOSE, before any check of its own. -/
def Obligations.ClosedBlockFaults : Prop :=
  ∀ (i : Instr) (s : State), s.faulted = false → s.closed = true → i ≠ .statusRead →
    exec i s = .next (faultState .afterClose s)

/-- R241, R242: a command that does not complete has no effect but the refusal's response, or the fault flag, a recorded
code and the fault's response. -/
def Obligations.FailedCommandHasNoOtherEffect : Prop :=
  ∀ (i : Instr) (s t : State) (r : Response), exec i s = .next t → t.responses = s.responses ++ [r] → r.ok = false →
    (s.faulted = true ∧ t = refusedState s) ∨
      (s.faulted = false ∧ ∃ code, code ≠ .none ∧ code ≠ .refused ∧ t = faultState code s)

/-- R248, 10_state.md R26, R31: only reset clears the sticky flags. With no reset presented, a recorded fault freezes the
block (a step changes only the port and the responses), and a closed block stays closed. That a reset is an input of the
port is the model's choice (log 7). -/
def Obligations.StickyFlagsUntilReset : Prop :=
  ∀ s t : State, HostInput.reset ∉ s.port → step s = .next t →
    (s.faulted = true → t = { s with port := t.port, responses := t.responses }) ∧
      (s.closed = true → t.closed = true)

/-- The operand word d carries the value v of type T: v is in the range of T and d is its 64-bit form (30_encoding.md R76). -/
def Carries (t : ColumnType) (d : Word) (v : Int) : Prop := t.holds v = true ∧ d = BitVec.ofInt 64 v

/-- R240, R243 steps 4 and 5: a column index at or above NCOL faults with COLUMN_RANGE, whatever the operand word, and a bit
count above 64 faults with BITCOUNT_RANGE (40_bitwriter.md R103). -/
def Obligations.ColumnIndexAndBitCountFault : Prop :=
  ∀ (s : State) (d : Word), Ready s →
    (∀ c : Byte, s.cfg.ncol ≤ c.toNat →
      exec (.aegEncode c d) s = .next (faultState .columnRange s) ∧
        exec (.predFeed c d) s = .next (faultState .columnRange s) ∧
        exec (.colWrite c d) s = .next (faultState .columnRange s) ∧
        exec (.colReset c) s = .next (faultState .columnRange s)) ∧
    (∀ n : Byte, 64 < n.toNat → exec (.bwWrite n d) s = .next (faultState .bitcountRange s))

/-- R240, R243 step 6: an operand that carries no value of its column's type faults with VALUE_RANGE; for a row, one such
word is enough, whatever the others are (45_tablog.md R187). -/
def Obligations.ValueRangeFaults : Prop :=
  ∀ (s : State), Ready s →
    (∀ (c : Byte) (n : Word), c.toNat < s.cfg.ncol → 2 ^ (s.cfg.col c.toNat).type.bits ≤ n.toNat →
      exec (.aegEncode c n) s = .next (faultState .valueRange s)) ∧
    (∀ (c : Byte) (d : Word), c.toNat < s.cfg.ncol → (∀ v, ¬ Carries (s.cfg.col c.toNat).type d v) →
      exec (.predFeed c d) s = .next (faultState .valueRange s) ∧
        exec (.colWrite c d) s = .next (faultState .valueRange s)) ∧
    (∀ (vs : List Word) (i : Nat), vs.length = s.cfg.ncol → i < s.cfg.ncol →
      (∀ v, ¬ Carries (s.cfg.col i).type (vs.getD i 0) v) →
      exec (.tabWriteRow vs) s = .next (faultState .valueRange s))

/-- 30_encoding.md R77, R240: a nonzero byte past the end of the string in the operand words of STR_COMPRESS faults with
ILLEGAL_COMMAND. -/
def Obligations.StringPaddingFaults : Prop :=
  ∀ (s : State) (len : BitVec 16) (ws : List Word) (i : Nat), Ready s → ws.length = stringWords len.toNat →
    len.toNat ≤ i → i < 8 * ws.length → packedByte ws i ≠ 0 →
      exec (.strCompress len ws) s = .next (faultState .illegalCommand s)

/-! ### The BitWriter (40_bitwriter.md) -/

/-- R103 with R100: BW_WRITE of a legal bit count completes and appends the n low bits of d to the bit stream, least
significant first, and nothing else changes. -/
def Obligations.BwWriteAppendsField : Prop :=
  ∀ (s : State) (n : Byte) (d : Word), Ready s → BufferClean s → n.toNat ≤ 64 →
    exec (.bwWrite n d) s = .next (okState 0 (appendBits (fieldBits d.toNat n.toNat) s))

/-- R104: BW_WRITE_BIT completes and appends its bit; from seven pending bits it completes a byte and leaves none
pending. -/
def Obligations.BwWriteBitAppendsBit : Prop :=
  ∀ (s : State) (b : Bool), Ready s → BufferClean s →
    exec (.bwWriteBit b) s = .next (okState 0 (appendBits [b] s)) ∧
      (s.bwUsed = 7 → (appendBits [b] s).bwUsed = 0 ∧
        (appendBits [b] s).out = s.out ++ escapeBytes s.hadEscape [byteOfBits (pendingBits s ++ [b])])

/-- R105 with R101: BW_FLUSH completes; with bits pending it emits them as one byte with zeros above them, and with none it
emits nothing. -/
def Obligations.BwFlushEmitsPartialByte : Prop :=
  ∀ s : State, Ready s → BufferClean s →
    (s.bwUsed = 0 → exec .bwFlush s = .next (okState 0 s)) ∧
    (s.bwUsed ≠ 0 → exec .bwFlush s = .next (okState 0
      { s with
        bwBuffer := 0
        bwUsed := 0
        out := s.out ++ escapeBytes s.hadEscape [byteOfBits (pendingBits s)]
        hadEscape := byteOfBits (pendingBits s) == 0x54 }))

/-- R106 with R102: BW_END completes and always emits exactly one payload byte: the pending bits, a 1, and zeros. -/
def Obligations.BwEndEmitsOneByte : Prop :=
  ∀ s : State, Ready s → BufferClean s →
    exec .bwEnd s = .next (okState 0
      { s with
        bwBuffer := 0
        bwUsed := 0
        out := s.out ++ escapeBytes s.hadEscape [byteOfBits (pendingBits s ++ [true])]
        hadEscape := byteOfBits (pendingBits s ++ [true]) == 0x54 })

/-- 20_memory.md R54: after any sequence of BW_WRITE commands, the bytes that left, read as one LSB-first bit stream, and the
bits still pending are the bits pending before and then every field's bits in order. -/
def Obligations.FieldsReadBackFromStream : Prop :=
  ∀ (s : State) (fields : List (Byte × Word)), Ready s → BufferClean s → (∀ f ∈ fields, f.1.toNat ≤ 64) →
    ∃ t payload, execAll (fields.map fun f => .bwWrite f.1 f.2) s = some t ∧
      t.out = s.out ++ escapeBytes s.hadEscape payload ∧
      payload.flatMap byteBits ++ pendingBits t =
        pendingBits s ++ fields.flatMap fun f => fieldBits f.2.toNat f.1.toNat

/-! ### Elias-gamma (41_elias_gamma.md) -/

/-- R122 with R120: EG_ENCODE completes for every n and appends L zeros, a 1, and the L low bits of n + 1, with
`2^L ≤ n + 1 < 2^(L+1)`. -/
def Obligations.EgEncodeAppendsCode : Prop :=
  ∀ (s : State) (n : Word), Ready s → BufferClean s →
    ∃ l, 2 ^ l ≤ n.toNat + 1 ∧ n.toNat + 1 < 2 ^ (l + 1) ∧
      exec (.egEncode n) s = .next (okState 0
        (appendBits (List.replicate l false ++ true :: fieldBits (n.toNat + 1) l) s))

/-- R123: the reference decoder reads back every number from its code, whatever follows it. -/
def Obligations.EliasGammaRoundTrip : Prop :=
  ∀ (n : Nat) (rest : List Bool), egDecode (egBits n ++ rest) = some (n, rest)

/-- R121: the length of the code of n, its values for small n, and the code of 0 as the unique shortest one. -/
def Obligations.EliasGammaLength : Prop :=
  (∀ n, (egBits n).length = 2 * floorLog2 (n + 1) + 1) ∧ egBits 0 = [true] ∧ (∀ n, n ≠ 0 → 1 < (egBits n).length) ∧
    (∀ n, 1 ≤ n → n ≤ 2 → (egBits n).length = 3) ∧ (∀ n, 3 ≤ n → n ≤ 6 → (egBits n).length = 5) ∧
    (∀ n, 7 ≤ n → n ≤ 14 → (egBits n).length = 7)

/-! ### The adaptive coder (42_adaptive_golomb.md) -/

/-- R135 with R133: AEG_ENCODE of an operand in range completes: it appends the Elias-gamma code of `n >> k` and the k low
bits of n, adapts the coder of column c by that quotient, and touches no other column. -/
def Obligations.AegEncodeAppendsCodeAndAdapts : Prop :=
  ∀ (s : State) (c : Byte) (n : Word) (u : ColUnit), s.Inv → Ready s → s.cols[c.toNat]? = some u →
    n.toNat < 2 ^ (s.cfg.col c.toNat).type.bits →
    exec (.aegEncode c n) s = .next (okState 0
      { appendBits (egBits (n.toNat / 2 ^ (u.aeg.toNat / 4)) ++ fieldBits n.toNat (u.aeg.toNat / 4)) s with
        cols :=
          s.cols.set c.toNat
            { u with
              aeg := adaptState (s.cfg.maxState.at (s.cfg.col c.toNat).type.width) u.aeg
                (n.toNat / 2 ^ (u.aeg.toNat / 4)) } })

/-- R134: the state moves by the quotient p: down by one and not below 0 when p is 0, up by one and not above MAX_STATE when
p is above 1, and not at all when p is 1. -/
def Obligations.AegStateAdapts : Prop :=
  ∀ (m : Nat) (a : BitVec 8) (p : Nat), a.toNat ≤ m → m ≤ 255 →
    (p = 0 → ((adaptState m a p).toNat : Int) = max ((a.toNat : Int) - 1) 0) ∧
      (1 < p → (adaptState m a p).toNat = min (a.toNat + 1) m) ∧ (p = 1 → adaptState m a p = a)

/-- R136: k zeros lower the state of column c by k, not below 0, and k values `2^W − 1` raise it by k, not above
MAX_STATE(W). -/
def Obligations.AegStateConverges : Prop :=
  ∀ (s : State) (c : Byte) (u : ColUnit) (k : Nat), s.Inv → Ready s → s.cols[c.toNat]? = some u →
    (∃ t v, execAll (List.replicate k (.aegEncode c 0)) s = some t ∧ t.cols[c.toNat]? = some v ∧
      v.aeg.toNat = u.aeg.toNat - k) ∧
    (∃ t v, execAll (List.replicate k
        (.aegEncode c (BitVec.ofNat 64 (2 ^ (s.cfg.col c.toNat).type.bits - 1)))) s = some t ∧
      t.cols[c.toNat]? = some v ∧
      v.aeg.toNat = min (u.aeg.toNat + k) (s.cfg.maxState.at (s.cfg.col c.toNat).type.width))

/-! ### Column values and predictors (30_encoding.md R76, 43_predictors.md) -/

/-- 30_encoding.md R76: a column word is well-formed exactly when it is the 64-bit form of a value of the column type, and it
then carries that value. -/
def Obligations.ColumnWordCarriesValue : Prop :=
  ∀ (t : ColumnType) (d : Word),
    (columnWordOk t d = true ↔ ∃ v, Carries t d v) ∧ ∀ v, Carries t d v → columnValue t d = v ∧ columnWord t v = d

/-- R145: `abs_diff` is the true distance and whether the first value is higher, for every two values of the type. -/
def Obligations.AbsDiffIsTrueDistance : Prop :=
  ∀ (t : ColumnType) (a b : Int), t.holds a = true → t.holds b = true →
    ((absDiff t a b).1 : Int) = |a - b| ∧ (absDiff t a b).1 < 2 ^ t.bits ∧ ((absDiff t a b).2 = true ↔ b < a)

/-- R146: `sat_T(x)` is `min(max(x, min_T), max_T)`, the value of T nearest to x. -/
def Obligations.SaturateIsNearestValue : Prop :=
  ∀ (t : ColumnType) (x v : Int), t.holds v = true →
    saturate t x = min (max x t.minValue) t.maxValue ∧ t.holds (saturate t x) = true ∧ |x - saturate t x| ≤ |x - v|

/-- R156 with R147 to R149: PRED_FEED on an SL(N) column completes and returns, as a column word, 0 with nothing seen, the
most recent value with fewer than N held, and else the extrapolation clamped to the type; the value is then added and the
oldest of N dropped. Only the predictor of column c changes. -/
def Obligations.PredFeedSimpleLinear : Prop :=
  ∀ (s : State) (c : Byte) (d : Word) (v : Int) (u : ColUnit) (n : Nat) (h : List Int),
    s.Inv → Ready s → s.cols[c.toNat]? = some u → (s.cfg.col c.toNat).kind = .sl n → u.pred = .sl h →
    Carries (s.cfg.col c.toNat).type d v →
    ∃ p : Int,
      (h = [] → p = 0) ∧
      (∀ last, h.length < n → h.getLast? = some last → p = last) ∧
      (∀ first last, h.length = n → h.head? = some first → h.getLast? = some last →
        p = min (max (last + Int.tdiv (last - first) (n - 1)) (s.cfg.col c.toNat).type.minValue)
          (s.cfg.col c.toNat).type.maxValue) ∧
      exec (.predFeed c d) s = .next (okState (BitVec.ofInt 64 p)
        { s with
          cols := s.cols.set c.toNat { u with pred := .sl ((if h.length = n then h.tail else h) ++ [v]) } })

/-- R156 with R150 to R154: PRED_FEED on an L12A column completes and returns `prev1` when the selector is at least 0, else
the value of T that is `2·prev1 − prev0` modulo 2^W; the selector moves one step towards the model that was strictly nearer
to v, within −8..7; `prev` then holds the last two values. Only the predictor of column c changes. -/
def Obligations.PredFeedLinear12Adapt : Prop :=
  ∀ (s : State) (c : Byte) (d : Word) (v : Int) (u : ColUnit) (p0 p1 : Int) (sel : BitVec 4),
    s.Inv → Ready s → s.cols[c.toNat]? = some u → (s.cfg.col c.toNat).kind = .l12a → u.pred = .l12a p0 p1 sel →
    Carries (s.cfg.col c.toNat).type d v →
    ∃ (b : Int) (sel' : BitVec 4),
      (s.cfg.col c.toNat).type.holds b = true ∧
      (2 ^ (s.cfg.col c.toNat).type.bits : Int) ∣ b - (2 * p1 - p0) ∧
      sel'.toInt =
        (if |p1 - v| < |b - v| then min (sel.toInt + 1) 7
          else if |b - v| < |p1 - v| then max (sel.toInt - 1) (-8) else sel.toInt) ∧
      exec (.predFeed c d) s = .next (okState (BitVec.ofInt 64 (if 0 ≤ sel.toInt then p1 else b))
        { s with cols := s.cols.set c.toNat { u with pred := .l12a p1 v sel' } })

/-- R157, for every N and every step: SL(N) predicts the next value of a linear sequence exactly once it holds N of its
values, as long as that next value is in the range of the type. -/
def Obligations.SimpleLinearExactOnLinearSequence : Prop :=
  ∀ (t : ColumnType) (n : Nat) (a d : Int), 2 ≤ n → t.holds (a + n * d) = true →
    slPredict t n ((List.range n).map fun i => a + i * d) = a + n * d

/-! ### The column compressor (44_column.md) -/

/-- R172 with R170: COL_WRITE of a value in range completes: a hit appends the bit 1; a miss appends 0, whether the
prediction was higher, and the code of the distance less one, and adapts the coder. The value is fed, and nothing but the
bit stream and column c changes. -/
def Obligations.ColWriteCodesValue : Prop :=
  ∀ (s : State) (c : Byte) (d : Word) (v : Int) (u : ColUnit),
    s.Inv → Ready s → s.cols[c.toNat]? = some u → Carries (s.cfg.col c.toNat).type d v →
    exec (.colWrite c d) s = .next (okState 0
      { appendBits (colBits (s.cfg.col c.toNat) u v) s with
        cols := s.cols.set c.toNat (colNext s.cfg (s.cfg.col c.toNat) u v) })

/-- R173 with R171: COL_RESET completes, makes column c fresh, and changes nothing else. -/
def Obligations.ColResetMakesColumnFresh : Prop :=
  ∀ (s : State) (c : Byte), Ready s → c.toNat < s.cfg.ncol →
    exec (.colReset c) s = .next (okState 0
      { s with
        cols :=
          s.cols.set c.toNat
            { aeg := BitVec.ofNat 8 (4 * (s.cfg.col c.toNat).type.width.bytes)
              pred :=
                match (s.cfg.col c.toNat).kind with
                | .l12a => .l12a s.cfg.l12aInitPrev0 s.cfg.l12aInitPrev1 (BitVec.ofInt 4 s.cfg.l12aInitSel)
                | .sl _ => .sl [] } })

/-! ### The block controller (45_tablog.md) -/

/-- R187: TAB_WRITE_ROW of a row in range completes: outside a block it starts one first, then it codes the values in column
order. -/
def Obligations.TabWriteRowCodesRow : Prop :=
  ∀ (s : State) (vals : List Int), s.Inv → Ready s → RowFits s.cfg vals →
    (s.block = .inBlock → exec (rowCommand vals) s = .next (okState 0 (codedRow vals s))) ∧
    (s.block = .noBlock → exec (rowCommand vals) s = .next (okState 0 (codedRow vals (startedBlock s))))

/-- R188: TAB_END_BLOCK completes: it ends the open block, or starts and ends an empty one. -/
def Obligations.TabEndBlockEndsBlock : Prop :=
  ∀ s : State, s.Inv → Ready s →
    (s.block = .inBlock → exec .tabEndBlock s = .next (okState 0 (endedBlock s))) ∧
    (s.block = .noBlock → exec .tabEndBlock s = .next (okState 0 (endedBlock (startedBlock s))))

/-- R189: TAB_CLOSE completes: it ends an open block, drops the bits that are then pending, and closes. -/
def Obligations.TabCloseEndsBlockAndCloses : Prop :=
  ∀ s : State, Ready s → BufferClean s →
    (s.block = .inBlock → exec .tabClose s = .next (okState 0 { endedBlock s with closed := true })) ∧
    (s.block = .noBlock →
      exec .tabClose s = .next (okState 0 { s with bwBuffer := 0, bwUsed := 0, closed := true }))

/-- R190 with 10_state.md R34 and 60_exceptions.md R240: STATUS_READ completes in every state, also a faulted or closed
one, changes nothing, and returns the fields of STATUS in their places and 0 in the others; and the seven fault codes have
the numbers 0 to 6. -/
def Obligations.StatusReadReturnsStatus : Prop :=
  (∀ s : State, ∃ data : BitVec 64, exec .statusRead s = .next (okState data s) ∧
    data.extractLsb' 0 3 = s.bwUsed ∧ data.getLsbD 3 = s.hadEscape ∧ data.getLsbD 4 = (s.block == .inBlock) ∧
    data.getLsbD 5 = s.closed ∧ data.getLsbD 6 = s.faulted ∧ data.getLsbD 7 = false ∧
    data.extractLsb' 8 4 = s.faultCode.bits ∧ data.extractLsb' 12 4 = 0 ∧ data.extractLsb' 16 8 = s.bwBuffer ∧
    (data.extractLsb' 24 8).toNat = s.cfg.ncol % 256 ∧ data.extractLsb' 32 32 = 0) ∧
  FaultCode.none.bits = 0 ∧ FaultCode.illegalCommand.bits = 1 ∧ FaultCode.columnRange.bits = 2 ∧
    FaultCode.bitcountRange.bits = 3 ∧ FaultCode.valueRange.bits = 4 ∧ FaultCode.afterClose.bits = 5 ∧
    FaultCode.refused.bits = 6

/-- R180: how a command that completes changes `TAB.block`: TAB_WRITE_ROW leaves InBlock, TAB_END_BLOCK and TAB_CLOSE leave
NoBlock, and no other command writes it. -/
def Obligations.BlockStateMachine : Prop :=
  ∀ (i : Instr) (s t : State) (data : BitVec 64), exec i s = .next t →
    t.responses = s.responses ++ [⟨true, .none, data⟩] →
    ((∃ vs, i = .tabWriteRow vs) → t.block = .inBlock) ∧
      (i = .tabEndBlock ∨ i = .tabClose → t.block = .noBlock) ∧
      ((∀ vs, i ≠ .tabWriteRow vs) → i ≠ .tabEndBlock → i ≠ .tabClose → t.block = s.block)

/-- R191: from an aligned stream outside a block, the rows of a block and its end append exactly the block's layout to OUT:
the start marker, the escaped bytes of header, rows and end bit, and the end marker. -/
def Obligations.BlockLayoutOnTheWire : Prop :=
  ∀ (s : State) (rows : List (List Int)), s.Inv → Ready s → s.block = .noBlock → s.bwUsed = 0 →
    (∀ vals ∈ rows, RowFits s.cfg vals) →
    ∃ t, execAll (blockCommands rows) s = some t ∧ t.out = s.out ++ blockBytes s.cfg rows ∧ t.bwUsed = 0 ∧
      t.block = .noBlock ∧ t.cols = rowsNext s.cfg (freshUnits s.cfg) rows

/-- R192: a block depends on nothing before it but the configuration and the pending bits: from any two states that agree on
those, the same rows append the same bytes and leave the same column units. -/
def Obligations.BlockIgnoresEarlierBlocks : Prop :=
  ∀ (s₁ s₂ : State) (rows : List (List Int)), s₁.Inv → s₂.Inv → Ready s₁ → Ready s₂ → s₁.block = .noBlock →
    s₂.block = .noBlock → s₁.cfg = s₂.cfg → pendingBits s₁ = pendingBits s₂ → (∀ vals ∈ rows, RowFits s₁.cfg vals) →
    ∃ t₁ t₂ bytes, execAll (blockCommands rows) s₁ = some t₁ ∧ execAll (blockCommands rows) s₂ = some t₂ ∧
      t₁.out = s₁.out ++ bytes ∧ t₂.out = s₂.out ++ bytes ∧ t₁.cols = t₂.cols

/-! ### Framing (46_framing.md) -/

/-- R203 with R201: FR_BYTE completes and appends its byte, after a DBL when the byte is a function byte that follows an
ESC; the flag then says whether the byte is ESC. The BitWriter is not touched. -/
def Obligations.FrByteEscapesFunctionByte : Prop :=
  ∀ (s : State) (b : Byte), Ready s →
    (s.hadEscape = true ∧ (b = 0x6C ∨ b = 0x23 ∨ b = 0x20) →
      exec (.frByte b) s = .next (okState 0 { s with out := s.out ++ [0x20, b], hadEscape := b == 0x54 })) ∧
    (¬ (s.hadEscape = true ∧ (b = 0x6C ∨ b = 0x23 ∨ b = 0x20)) →
      exec (.frByte b) s = .next (okState 0 { s with out := s.out ++ [b], hadEscape := b == 0x54 }))

/-- R204, R205 with R202: FR_START and FR_END complete and append `54 6C` and `54 23`, clear the flag, and touch neither the
pending bits nor the block state. -/
def Obligations.FrMarkersAppendMarker : Prop :=
  ∀ s : State, Ready s →
    exec .frStart s = .next (okState 0 { s with out := s.out ++ [0x54, 0x6C], hadEscape := false }) ∧
      exec .frEnd s = .next (okState 0 { s with out := s.out ++ [0x54, 0x23], hadEscape := false })

/-- R206: what the escaper adds: one byte for each pair of ESC and a function byte and no more than half the payload, and the
output never has an ESC directly followed by START or END. -/
def Obligations.EscaperExpansion : Prop :=
  ∀ p : List Byte,
    (escapeBytes false p).length =
      p.length + ((p.zip p.tail).filter fun q => q.1 == 0x54 && isFunctionByte q.2).length ∧
    2 * (escapeBytes false p).length ≤ 3 * p.length ∧
    ∀ q ∈ (escapeBytes false p).zip (escapeBytes false p).tail, q.1 = 0x54 → q.2 ≠ 0x6C ∧ q.2 ≠ 0x23

/-- R207: a reader gets back from a marked block exactly the start marker, the payload bytes and the end marker. -/
def Obligations.ReaderUndoesEscaping : Prop :=
  ∀ p : List Byte,
    readFramed .plain ([0x54, 0x6C] ++ escapeBytes false p ++ [0x54, 0x23]) =
      .blockStart :: (p.map .payload ++ [.blockEnd])

/-- 10_state.md R24: a command that appends to OUT leaves the flag saying whether the last byte of OUT is ESC, and one that
does not leaves the flag alone. -/
def Obligations.EscapeFlagTracksLastByte : Prop :=
  ∀ (i : Instr) (s t : State), exec i s = .next t →
    (t.out = s.out ∧ t.hadEscape = s.hadEscape) ∨
      ∃ b bs, t.out = s.out ++ bs ++ [b] ∧ t.hadEscape = (b == 0x54)

/-! ### The string compressor (47_string_trie.md) -/

/-- R223 with 30_encoding.md R77: STR_COMPRESS with clear padding completes and appends the code of the L packed bytes; no
other state changes. -/
def Obligations.StrCompressAppendsCode : Prop :=
  ∀ (s : State) (len : BitVec 16) (ws : List Word), Ready s → BufferClean s → ws.length = stringWords len.toNat →
    (∀ i, len.toNat ≤ i → i < 8 * ws.length → packedByte ws i = 0) →
    exec (.strCompress len ws) s = .next (okState 0
      (appendBits (strBits s.cfg ((List.range len.toNat).map (packedByte ws))) s))

/-- R225: the empty string codes as `11`, every other string's code is longer, every code ends with the bit 1, and a string
whose first byte is a first character has a first group that is not empty. -/
def Obligations.StringCodeShape : Prop :=
  ∀ (cfg : Config) (bs : List Byte),
    strBits cfg [] = [true, true] ∧ (bs ≠ [] → 2 < (strBits cfg bs).length) ∧ (strBits cfg bs).getLast? = some true ∧
      (∀ b rest, bs = b :: rest → isFirst cfg b = true → (matchRun cfg bs.length bs).1 ≠ [])

/-- R218, R219: a match run takes the node that `lookup_symbol` gives at a first character and goes on with the bytes it
left; it ends only at the end of the string or at a byte that is no first character. A literal run ends only at the end or
at a first character. -/
def Obligations.RunsEndWhereTheyMust : Prop :=
  ∀ (cfg : Config) (bs : List Byte),
    (∀ b rest, bs = b :: rest → isFirst cfg b = true → ∀ node len left, lookupSymbol cfg b rest = (node, len) →
      left = bs.drop len →
        matchRun cfg bs.length bs = (node :: (matchRun cfg left.length left).1, (matchRun cfg left.length left).2)) ∧
      (∀ b rest, bs = b :: rest → isFirst cfg b = false → matchRun cfg bs.length bs = ([], bs)) ∧
      (bs = [] → matchRun cfg bs.length bs = ([], [])) ∧
      (∀ b rest, (matchRun cfg bs.length bs).2 = b :: rest → isFirst cfg b = false) ∧
      (∀ b rest, (literalRun cfg bs).2 = b :: rest → isFirst cfg b = true) ∧
      (∀ b ∈ (literalRun cfg bs).1, isFirst cfg b = false) ∧ (literalRun cfg bs).1 ++ (literalRun cfg bs).2 = bs

/-- R217: in a well-formed trie, `lookup_symbol` follows the trie from the first-level node of the first character along the
characters of the string, and no longer path along them exists. -/
def Obligations.LookupIsLongestPath : Prop :=
  ∀ (cfg : Config) (b : Byte) (bs : List Byte) (node len : Nat), cfg.wf = true → isFirst cfg b = true →
    lookupSymbol cfg b bs = (node, len) →
    1 ≤ len ∧ len ≤ 1 + bs.length ∧
      TriePath cfg (b.toNat - cfg.firstLevelMin.toNat) (bs.take (len - 1)) node ∧
      ∀ m j, m ≤ bs.length → TriePath cfg (b.toNat - cfg.firstLevelMin.toNat) (bs.take m) j → m ≤ len - 1

/-! ### Frames, invariants, reset -/

/-- 42_adaptive_golomb.md R135, 44_column.md R172, R173, 43_predictors.md R155: a command on column c touches no other
column; and every command but those and the three of the block controller leaves every column alone. -/
def Obligations.ColumnsChangeOnlyWhereNamed : Prop :=
  ∀ (i : Instr) (s t : State), exec i s = .next t →
    (∀ (c : Byte) (d : Word), i = .aegEncode c d ∨ i = .predFeed c d ∨ i = .colWrite c d ∨ i = .colReset c →
      ∀ e, e ≠ c.toNat → t.cols[e]? = s.cols[e]?) ∧
    ((∀ c d, i ≠ .aegEncode c d ∧ i ≠ .predFeed c d ∧ i ≠ .colWrite c d ∧ i ≠ .colReset c) →
      (∀ vs, i ≠ .tabWriteRow vs) → i ≠ .tabEndBlock → t.cols = s.cols)

/-- 10_state.md R33, 00_scope.md R7: no step shortens or rewrites OUT, and no step changes the configuration. -/
def Obligations.OutOnlyGrowsAndConfigurationStays : Prop :=
  ∀ s t : State, step s = .next t → s.out <+: t.out ∧ t.cfg = s.cfg

/-- 10_state.md R37: the state right after reset, for every configuration, holds the values of R37 and has one column unit
for each column; and it satisfies the invariants where the configuration is well-formed. The configuration of `State.reset`
and its empty OUT are the model's choices (log 2, log 3). -/
def Obligations.ResetStateSatisfiesInv : Prop :=
  State.reset.Inv ∧
  (∀ cfg : Config, cfg.wf = true → (State.resetWith cfg).Inv) ∧
  ∀ cfg : Config,
    (State.resetWith cfg).cfg = cfg ∧ (State.resetWith cfg).bwBuffer = 0 ∧ (State.resetWith cfg).bwUsed = 0 ∧
      (State.resetWith cfg).hadEscape = false ∧ (State.resetWith cfg).block = .noBlock ∧
      (State.resetWith cfg).closed = false ∧ (State.resetWith cfg).faulted = false ∧
      (State.resetWith cfg).faultCode = .none ∧ (State.resetWith cfg).cols.length = cfg.ncol ∧
      ∀ c < cfg.ncol,
        (State.resetWith cfg).cols[c]? = some
          { aeg := BitVec.ofNat 8 (4 * (cfg.col c).type.width.bytes)
            pred :=
              match (cfg.col c).kind with
              | .l12a => .l12a cfg.l12aInitPrev0 cfg.l12aInitPrev1 (BitVec.ofInt 4 cfg.l12aInitSel)
              | .sl _ => .sl [] }

/-- 10_state.md R23, R24, R27 to R31, 60_exceptions.md R240: every step keeps the invariants: the buffer clean, the escape
flag true to OUT, a closed block outside a block, the fault code true to the flag and never REFUSED, and every column unit
within its ranges. -/
def Obligations.StepKeepsInv : Prop :=
  ∀ s t : State, s.Inv → step s = .next t → t.Inv
end

