-- ==== Sys2Proof/Laws/Bits.lean ====
section
/-! SUPPORT. Bit fields, bytes and packing: what `fieldBits`, `fieldValue`, `wholeBytes`, `leftoverBits`, `escapeBytes` and
`escapeFlag` do. -/

namespace Sys2Proof.Machine

/-! ### Fields -/

@[simp] theorem fieldBits_zero (d : Nat) : fieldBits d 0 = [] := rfl

@[simp] theorem fieldBits_length (d n : Nat) : (fieldBits d n).length = n := by simp [fieldBits]

theorem fieldBits_succ (d n : Nat) : fieldBits d (n + 1) = decide (d % 2 = 1) :: fieldBits (d / 2) n := by
  simp only [fieldBits, List.range_succ_eq_map, List.map_cons, List.map_map, Nat.testBit_zero]
  congr 1
  apply List.map_congr_left
  intro i _
  simp [Nat.testBit_succ]

@[simp] theorem fieldValue_nil : fieldValue [] = 0 := rfl

theorem fieldValue_cons (b : Bool) (bs : List Bool) : fieldValue (b :: bs) = b.toNat + 2 * fieldValue bs := rfl

theorem fieldValue_append (as bs : List Bool) :
    fieldValue (as ++ bs) = fieldValue as + 2 ^ as.length * fieldValue bs := by
  induction as with
  | nil => simp
  | cons a as ih => simp only [List.cons_append, fieldValue_cons, ih, List.length_cons, pow_succ]; ring

theorem fieldValue_lt (bs : List Bool) : fieldValue bs < 2 ^ bs.length := by
  induction bs with
  | nil => simp
  | cons b bs ih =>
    have hb : b.toNat ≤ 1 := by cases b <;> simp
    rw [fieldValue_cons, List.length_cons, pow_succ]
    omega

theorem fieldValue_fieldBits (d n : Nat) : fieldValue (fieldBits d n) = d % 2 ^ n := by
  induction n generalizing d with
  | zero => simp [Nat.mod_one]
  | succ n ih =>
    rw [fieldBits_succ, fieldValue_cons, ih, pow_succ, mul_comm (2 ^ n) 2, Nat.mod_mul]
    rcases Nat.mod_two_eq_zero_or_one d with h | h <;> simp [h]

theorem fieldBits_fieldValue (bs : List Bool) : fieldBits (fieldValue bs) bs.length = bs := by
  induction bs with
  | nil => rfl
  | cons b bs ih =>
    have h1 : (b.toNat + 2 * fieldValue bs) / 2 = fieldValue bs := by cases b <;> simp [Nat.add_mul_div_left]
    have h2 : decide ((b.toNat + 2 * fieldValue bs) % 2 = 1) = b := by cases b <;> simp
    rw [List.length_cons, fieldBits_succ, fieldValue_cons, h1, h2, ih]

theorem fieldBits_one (b : Bool) : fieldBits b.toNat 1 = [b] := by cases b <;> rfl

theorem fieldBits_eq_replicate (n : Nat) : fieldBits 0 n = List.replicate n false := by
  simp [fieldBits, List.eq_replicate_iff]

/-! ### Bytes -/

theorem byteOfBits_toNat {bs : List Bool} (h : bs.length ≤ 8) : (byteOfBits bs).toNat = fieldValue bs := by
  have h1 := fieldValue_lt bs
  have h2 : 2 ^ bs.length ≤ 2 ^ 8 := Nat.pow_le_pow_right (by norm_num) h
  simp only [byteOfBits, BitVec.toNat_ofNat]
  exact Nat.mod_eq_of_lt (by omega)

theorem byteBits_byteOfBits {bs : List Bool} (h : bs.length = 8) : byteBits (byteOfBits bs) = bs := by
  rw [byteBits, byteOfBits_toNat h.le, ← h, fieldBits_fieldValue]

@[simp] theorem byteBits_length (b : Byte) : (byteBits b).length = 8 := by simp [byteBits]

/-! ### Packing -/

/-- A list of at least eight bits is eight bits and the others. -/
theorem eight_bits_split {bs : List Bool} (h : 8 ≤ bs.length) :
    ∃ b0 b1 b2 b3 b4 b5 b6 b7 r, bs = b0 :: b1 :: b2 :: b3 :: b4 :: b5 :: b6 :: b7 :: r := by
  match bs, h with
  | b0 :: b1 :: b2 :: b3 :: b4 :: b5 :: b6 :: b7 :: r, _ => exact ⟨b0, b1, b2, b3, b4, b5, b6, b7, r, rfl⟩

theorem wholeBytes_short {bs : List Bool} (h : bs.length < 8) : wholeBytes bs = [] := by
  unfold wholeBytes
  split
  · simp at h; omega
  · rfl

theorem leftoverBits_short {bs : List Bool} (h : bs.length < 8) : leftoverBits bs = bs := by
  unfold leftoverBits
  split
  · simp at h; omega
  · rfl

theorem wholeBytes_eight (as bs : List Bool) (h : as.length = 8) :
    wholeBytes (as ++ bs) = byteOfBits as :: wholeBytes bs := by
  match as, h with
  | [_, _, _, _, _, _, _, _], _ => rfl

theorem leftoverBits_eight (as bs : List Bool) (h : as.length = 8) : leftoverBits (as ++ bs) = leftoverBits bs := by
  match as, h with
  | [_, _, _, _, _, _, _, _], _ => rfl

/-- Induction on a bit sequence eight bits at a time. -/
theorem bits_induction {P : List Bool → Prop} (short : ∀ bs, bs.length < 8 → P bs)
    (eight : ∀ as bs, as.length = 8 → P bs → P (as ++ bs)) (bs : List Bool) : P bs := by
  by_cases h : bs.length < 8
  · exact short bs h
  · rw [← List.take_append_drop 8 bs]
    refine eight _ _ (by simpa using by omega) (bits_induction short eight (bs.drop 8))
termination_by bs.length
decreasing_by simp; omega

theorem leftoverBits_length_lt (bs : List Bool) : (leftoverBits bs).length < 8 := by
  induction bs using bits_induction with
  | short bs h => rwa [leftoverBits_short h]
  | eight as bs h ih => rwa [leftoverBits_eight as bs h]

theorem wholeBytes_append (as bs : List Bool) :
    wholeBytes (as ++ bs) = wholeBytes as ++ wholeBytes (leftoverBits as ++ bs) := by
  induction as using bits_induction with
  | short as h => rw [wholeBytes_short h, leftoverBits_short h, List.nil_append]
  | eight xs ys h ih =>
    rw [List.append_assoc, wholeBytes_eight xs _ h, wholeBytes_eight xs _ h, leftoverBits_eight xs _ h, ih]
    rfl

theorem leftoverBits_append (as bs : List Bool) :
    leftoverBits (as ++ bs) = leftoverBits (leftoverBits as ++ bs) := by
  induction as using bits_induction with
  | short as h => rw [leftoverBits_short h]
  | eight xs ys h ih => rw [List.append_assoc, leftoverBits_eight xs _ h, leftoverBits_eight xs _ h, ih]

/-- No bit is lost or moved by packing (R54). -/
theorem byteBits_wholeBytes (bs : List Bool) : (wholeBytes bs).flatMap byteBits ++ leftoverBits bs = bs := by
  induction bs using bits_induction with
  | short bs h => rw [wholeBytes_short h, leftoverBits_short h, List.flatMap_nil, List.nil_append]
  | eight as bs h ih =>
    rw [wholeBytes_eight as bs h, leftoverBits_eight as bs h, List.flatMap_cons, byteBits_byteOfBits h,
      List.append_assoc, ih]

theorem wholeBytes_length (bs : List Bool) : (wholeBytes bs).length = bs.length / 8 := by
  induction bs using bits_induction with
  | short bs h => rw [wholeBytes_short h, Nat.div_eq_of_lt h]; rfl
  | eight as bs h ih => rw [wholeBytes_eight as bs h]; simp [ih, h]

theorem leftoverBits_length (bs : List Bool) : (leftoverBits bs).length = bs.length % 8 := by
  induction bs using bits_induction with
  | short bs h => rw [leftoverBits_short h]; omega
  | eight as bs h ih => rw [leftoverBits_eight as bs h, ih]; simp [h]

/-! ### The escaper -/

@[simp] theorem escapeBytes_nil (e : Bool) : escapeBytes e [] = [] := rfl

@[simp] theorem escapeFlag_nil (e : Bool) : escapeFlag e [] = e := rfl

theorem escapeBytes_append (e : Bool) (as bs : List Byte) :
    escapeBytes e (as ++ bs) = escapeBytes e as ++ escapeBytes (escapeFlag e as) bs := by
  induction as generalizing e with
  | nil => rfl
  | cons a as ih => simp only [List.cons_append, escapeBytes, escapeFlag, ih, List.append_assoc]

theorem escapeFlag_append (e : Bool) (as bs : List Byte) :
    escapeFlag e (as ++ bs) = escapeFlag (escapeFlag e as) bs := by
  induction as generalizing e with
  | nil => rfl
  | cons a as ih => simp only [List.cons_append, escapeFlag, ih]

/-- The escaper never drops a byte: every payload byte is the last one appended for it. -/
theorem escapeBytes_getLast? (e : Bool) (bs : List Byte) (h : bs ≠ []) :
    (escapeBytes e bs).getLast? = bs.getLast? := by
  induction bs generalizing e with
  | nil => exact absurd rfl h
  | cons b bs ih =>
    cases bs with
    | nil => cases hn : needsDbl e b <;> simp [escapeBytes, hn]
    | cons c cs =>
      have hc := ih (escapeAfter b) (by simp)
      have hne : escapeBytes (escapeAfter b) (c :: cs) ≠ [] := by
        cases hn : needsDbl (escapeAfter b) c <;> simp [escapeBytes, hn]
      rw [escapeBytes, List.getLast?_append_of_ne_nil _ hne, hc]
      simp

/-- The flag after a non-empty payload says whether its last byte is `ESC`. -/
theorem escapeFlag_eq_last (e : Bool) (bs : List Byte) (b : Byte) (h : bs.getLast? = some b) :
    escapeFlag e bs = (b == escByte) := by
  induction bs generalizing e with
  | nil => simp at h
  | cons c cs ih =>
    cases cs with
    | nil => simp at h; subst h; rfl
    | cons d ds => exact ih (escapeAfter c) (by simpa using h)

end Sys2Proof.Machine
end

