-- ==== Sys2Proof/Laws/State.lean ====
section
/-! SUPPORT. One lemma for each field of State under each update of State, true by rfl and tagged simp, so that no later
proof unfolds an update. -/

namespace Sys2Proof.Machine

variable (s : State)

/-! ### `State.setBits` -/

@[simp] theorem State.setBits_cfg (buffer : BitVec 8) (used : BitVec 3) : (s.setBits buffer used).cfg = s.cfg := rfl
@[simp] theorem State.setBits_bwBuffer (buffer : BitVec 8) (used : BitVec 3) : (s.setBits buffer used).bwBuffer = buffer := rfl
@[simp] theorem State.setBits_bwUsed (buffer : BitVec 8) (used : BitVec 3) : (s.setBits buffer used).bwUsed = used := rfl
@[simp] theorem State.setBits_hadEscape (buffer : BitVec 8) (used : BitVec 3) : (s.setBits buffer used).hadEscape = s.hadEscape := rfl
@[simp] theorem State.setBits_block (buffer : BitVec 8) (used : BitVec 3) : (s.setBits buffer used).block = s.block := rfl
@[simp] theorem State.setBits_closed (buffer : BitVec 8) (used : BitVec 3) : (s.setBits buffer used).closed = s.closed := rfl
@[simp] theorem State.setBits_faulted (buffer : BitVec 8) (used : BitVec 3) : (s.setBits buffer used).faulted = s.faulted := rfl
@[simp] theorem State.setBits_faultCode (buffer : BitVec 8) (used : BitVec 3) : (s.setBits buffer used).faultCode = s.faultCode := rfl
@[simp] theorem State.setBits_cols (buffer : BitVec 8) (used : BitVec 3) : (s.setBits buffer used).cols = s.cols := rfl
@[simp] theorem State.setBits_out (buffer : BitVec 8) (used : BitVec 3) : (s.setBits buffer used).out = s.out := rfl
@[simp] theorem State.setBits_port (buffer : BitVec 8) (used : BitVec 3) : (s.setBits buffer used).port = s.port := rfl
@[simp] theorem State.setBits_responses (buffer : BitVec 8) (used : BitVec 3) : (s.setBits buffer used).responses = s.responses := rfl

/-! ### `State.setEscape` -/

@[simp] theorem State.setEscape_cfg (e : Bool) : (s.setEscape e).cfg = s.cfg := rfl
@[simp] theorem State.setEscape_bwBuffer (e : Bool) : (s.setEscape e).bwBuffer = s.bwBuffer := rfl
@[simp] theorem State.setEscape_bwUsed (e : Bool) : (s.setEscape e).bwUsed = s.bwUsed := rfl
@[simp] theorem State.setEscape_hadEscape (e : Bool) : (s.setEscape e).hadEscape = e := rfl
@[simp] theorem State.setEscape_block (e : Bool) : (s.setEscape e).block = s.block := rfl
@[simp] theorem State.setEscape_closed (e : Bool) : (s.setEscape e).closed = s.closed := rfl
@[simp] theorem State.setEscape_faulted (e : Bool) : (s.setEscape e).faulted = s.faulted := rfl
@[simp] theorem State.setEscape_faultCode (e : Bool) : (s.setEscape e).faultCode = s.faultCode := rfl
@[simp] theorem State.setEscape_cols (e : Bool) : (s.setEscape e).cols = s.cols := rfl
@[simp] theorem State.setEscape_out (e : Bool) : (s.setEscape e).out = s.out := rfl
@[simp] theorem State.setEscape_port (e : Bool) : (s.setEscape e).port = s.port := rfl
@[simp] theorem State.setEscape_responses (e : Bool) : (s.setEscape e).responses = s.responses := rfl

/-! ### `State.setBlock` -/

@[simp] theorem State.setBlock_cfg (b : BlockState) : (s.setBlock b).cfg = s.cfg := rfl
@[simp] theorem State.setBlock_bwBuffer (b : BlockState) : (s.setBlock b).bwBuffer = s.bwBuffer := rfl
@[simp] theorem State.setBlock_bwUsed (b : BlockState) : (s.setBlock b).bwUsed = s.bwUsed := rfl
@[simp] theorem State.setBlock_hadEscape (b : BlockState) : (s.setBlock b).hadEscape = s.hadEscape := rfl
@[simp] theorem State.setBlock_block (b : BlockState) : (s.setBlock b).block = b := rfl
@[simp] theorem State.setBlock_closed (b : BlockState) : (s.setBlock b).closed = s.closed := rfl
@[simp] theorem State.setBlock_faulted (b : BlockState) : (s.setBlock b).faulted = s.faulted := rfl
@[simp] theorem State.setBlock_faultCode (b : BlockState) : (s.setBlock b).faultCode = s.faultCode := rfl
@[simp] theorem State.setBlock_cols (b : BlockState) : (s.setBlock b).cols = s.cols := rfl
@[simp] theorem State.setBlock_out (b : BlockState) : (s.setBlock b).out = s.out := rfl
@[simp] theorem State.setBlock_port (b : BlockState) : (s.setBlock b).port = s.port := rfl
@[simp] theorem State.setBlock_responses (b : BlockState) : (s.setBlock b).responses = s.responses := rfl

/-! ### `State.setClosed` -/

@[simp] theorem State.setClosed_cfg (c : Bool) : (s.setClosed c).cfg = s.cfg := rfl
@[simp] theorem State.setClosed_bwBuffer (c : Bool) : (s.setClosed c).bwBuffer = s.bwBuffer := rfl
@[simp] theorem State.setClosed_bwUsed (c : Bool) : (s.setClosed c).bwUsed = s.bwUsed := rfl
@[simp] theorem State.setClosed_hadEscape (c : Bool) : (s.setClosed c).hadEscape = s.hadEscape := rfl
@[simp] theorem State.setClosed_block (c : Bool) : (s.setClosed c).block = s.block := rfl
@[simp] theorem State.setClosed_closed (c : Bool) : (s.setClosed c).closed = c := rfl
@[simp] theorem State.setClosed_faulted (c : Bool) : (s.setClosed c).faulted = s.faulted := rfl
@[simp] theorem State.setClosed_faultCode (c : Bool) : (s.setClosed c).faultCode = s.faultCode := rfl
@[simp] theorem State.setClosed_cols (c : Bool) : (s.setClosed c).cols = s.cols := rfl
@[simp] theorem State.setClosed_out (c : Bool) : (s.setClosed c).out = s.out := rfl
@[simp] theorem State.setClosed_port (c : Bool) : (s.setClosed c).port = s.port := rfl
@[simp] theorem State.setClosed_responses (c : Bool) : (s.setClosed c).responses = s.responses := rfl

/-! ### `State.setFault` -/

@[simp] theorem State.setFault_cfg (f : Bool) (code : FaultCode) : (s.setFault f code).cfg = s.cfg := rfl
@[simp] theorem State.setFault_bwBuffer (f : Bool) (code : FaultCode) : (s.setFault f code).bwBuffer = s.bwBuffer := rfl
@[simp] theorem State.setFault_bwUsed (f : Bool) (code : FaultCode) : (s.setFault f code).bwUsed = s.bwUsed := rfl
@[simp] theorem State.setFault_hadEscape (f : Bool) (code : FaultCode) : (s.setFault f code).hadEscape = s.hadEscape := rfl
@[simp] theorem State.setFault_block (f : Bool) (code : FaultCode) : (s.setFault f code).block = s.block := rfl
@[simp] theorem State.setFault_closed (f : Bool) (code : FaultCode) : (s.setFault f code).closed = s.closed := rfl
@[simp] theorem State.setFault_faulted (f : Bool) (code : FaultCode) : (s.setFault f code).faulted = f := rfl
@[simp] theorem State.setFault_faultCode (f : Bool) (code : FaultCode) : (s.setFault f code).faultCode = code := rfl
@[simp] theorem State.setFault_cols (f : Bool) (code : FaultCode) : (s.setFault f code).cols = s.cols := rfl
@[simp] theorem State.setFault_out (f : Bool) (code : FaultCode) : (s.setFault f code).out = s.out := rfl
@[simp] theorem State.setFault_port (f : Bool) (code : FaultCode) : (s.setFault f code).port = s.port := rfl
@[simp] theorem State.setFault_responses (f : Bool) (code : FaultCode) : (s.setFault f code).responses = s.responses := rfl

/-! ### `State.setCols` -/

@[simp] theorem State.setCols_cfg (us : List ColUnit) : (s.setCols us).cfg = s.cfg := rfl
@[simp] theorem State.setCols_bwBuffer (us : List ColUnit) : (s.setCols us).bwBuffer = s.bwBuffer := rfl
@[simp] theorem State.setCols_bwUsed (us : List ColUnit) : (s.setCols us).bwUsed = s.bwUsed := rfl
@[simp] theorem State.setCols_hadEscape (us : List ColUnit) : (s.setCols us).hadEscape = s.hadEscape := rfl
@[simp] theorem State.setCols_block (us : List ColUnit) : (s.setCols us).block = s.block := rfl
@[simp] theorem State.setCols_closed (us : List ColUnit) : (s.setCols us).closed = s.closed := rfl
@[simp] theorem State.setCols_faulted (us : List ColUnit) : (s.setCols us).faulted = s.faulted := rfl
@[simp] theorem State.setCols_faultCode (us : List ColUnit) : (s.setCols us).faultCode = s.faultCode := rfl
@[simp] theorem State.setCols_cols (us : List ColUnit) : (s.setCols us).cols = us := rfl
@[simp] theorem State.setCols_out (us : List ColUnit) : (s.setCols us).out = s.out := rfl
@[simp] theorem State.setCols_port (us : List ColUnit) : (s.setCols us).port = s.port := rfl
@[simp] theorem State.setCols_responses (us : List ColUnit) : (s.setCols us).responses = s.responses := rfl

/-! ### `State.setOut` -/

@[simp] theorem State.setOut_cfg (bs : List Byte) : (s.setOut bs).cfg = s.cfg := rfl
@[simp] theorem State.setOut_bwBuffer (bs : List Byte) : (s.setOut bs).bwBuffer = s.bwBuffer := rfl
@[simp] theorem State.setOut_bwUsed (bs : List Byte) : (s.setOut bs).bwUsed = s.bwUsed := rfl
@[simp] theorem State.setOut_hadEscape (bs : List Byte) : (s.setOut bs).hadEscape = s.hadEscape := rfl
@[simp] theorem State.setOut_block (bs : List Byte) : (s.setOut bs).block = s.block := rfl
@[simp] theorem State.setOut_closed (bs : List Byte) : (s.setOut bs).closed = s.closed := rfl
@[simp] theorem State.setOut_faulted (bs : List Byte) : (s.setOut bs).faulted = s.faulted := rfl
@[simp] theorem State.setOut_faultCode (bs : List Byte) : (s.setOut bs).faultCode = s.faultCode := rfl
@[simp] theorem State.setOut_cols (bs : List Byte) : (s.setOut bs).cols = s.cols := rfl
@[simp] theorem State.setOut_out (bs : List Byte) : (s.setOut bs).out = bs := rfl
@[simp] theorem State.setOut_port (bs : List Byte) : (s.setOut bs).port = s.port := rfl
@[simp] theorem State.setOut_responses (bs : List Byte) : (s.setOut bs).responses = s.responses := rfl

/-! ### `State.setPort` -/

@[simp] theorem State.setPort_cfg (p : List HostInput) : (s.setPort p).cfg = s.cfg := rfl
@[simp] theorem State.setPort_bwBuffer (p : List HostInput) : (s.setPort p).bwBuffer = s.bwBuffer := rfl
@[simp] theorem State.setPort_bwUsed (p : List HostInput) : (s.setPort p).bwUsed = s.bwUsed := rfl
@[simp] theorem State.setPort_hadEscape (p : List HostInput) : (s.setPort p).hadEscape = s.hadEscape := rfl
@[simp] theorem State.setPort_block (p : List HostInput) : (s.setPort p).block = s.block := rfl
@[simp] theorem State.setPort_closed (p : List HostInput) : (s.setPort p).closed = s.closed := rfl
@[simp] theorem State.setPort_faulted (p : List HostInput) : (s.setPort p).faulted = s.faulted := rfl
@[simp] theorem State.setPort_faultCode (p : List HostInput) : (s.setPort p).faultCode = s.faultCode := rfl
@[simp] theorem State.setPort_cols (p : List HostInput) : (s.setPort p).cols = s.cols := rfl
@[simp] theorem State.setPort_out (p : List HostInput) : (s.setPort p).out = s.out := rfl
@[simp] theorem State.setPort_port (p : List HostInput) : (s.setPort p).port = p := rfl
@[simp] theorem State.setPort_responses (p : List HostInput) : (s.setPort p).responses = s.responses := rfl

/-! ### `State.setResponses` -/

@[simp] theorem State.setResponses_cfg (rs : List Response) : (s.setResponses rs).cfg = s.cfg := rfl
@[simp] theorem State.setResponses_bwBuffer (rs : List Response) : (s.setResponses rs).bwBuffer = s.bwBuffer := rfl
@[simp] theorem State.setResponses_bwUsed (rs : List Response) : (s.setResponses rs).bwUsed = s.bwUsed := rfl
@[simp] theorem State.setResponses_hadEscape (rs : List Response) : (s.setResponses rs).hadEscape = s.hadEscape := rfl
@[simp] theorem State.setResponses_block (rs : List Response) : (s.setResponses rs).block = s.block := rfl
@[simp] theorem State.setResponses_closed (rs : List Response) : (s.setResponses rs).closed = s.closed := rfl
@[simp] theorem State.setResponses_faulted (rs : List Response) : (s.setResponses rs).faulted = s.faulted := rfl
@[simp] theorem State.setResponses_faultCode (rs : List Response) : (s.setResponses rs).faultCode = s.faultCode := rfl
@[simp] theorem State.setResponses_cols (rs : List Response) : (s.setResponses rs).cols = s.cols := rfl
@[simp] theorem State.setResponses_out (rs : List Response) : (s.setResponses rs).out = s.out := rfl
@[simp] theorem State.setResponses_port (rs : List Response) : (s.setResponses rs).port = s.port := rfl
@[simp] theorem State.setResponses_responses (rs : List Response) : (s.setResponses rs).responses = rs := rfl

/-- Two states with the same fields are the same state. -/
theorem State.ext_fields {s t : State} (h1 : s.cfg = t.cfg) (h2 : s.bwBuffer = t.bwBuffer) (h3 : s.bwUsed = t.bwUsed)
    (h4 : s.hadEscape = t.hadEscape) (h5 : s.block = t.block) (h6 : s.closed = t.closed) (h7 : s.faulted = t.faulted)
    (h8 : s.faultCode = t.faultCode) (h9 : s.cols = t.cols) (h10 : s.out = t.out) (h11 : s.port = t.port)
    (h12 : s.responses = t.responses) : s = t := by
  cases s
  cases t
  simp_all

end Sys2Proof.Machine
end

