-- ==== Sys2Proof/Laws/Ops.lean ====
section
/-! SUPPORT. What the shared operations of `Machine/Ops.lean` do, said once. The emitting operations are appends of bits to
the stream of the state (`appendBits`), wherever the buffer is clean (10_state.md R23). -/

namespace Sys2Proof.Machine

/-! ### Operations that change only the stream -/

theorem StreamOnly.refl (s : State) : StreamOnly s s := ⟨rfl, rfl, rfl, rfl, rfl, rfl, rfl, rfl, List.prefix_rfl⟩

theorem StreamOnly.trans {s t u : State} (h : StreamOnly s t) (k : StreamOnly t u) : StreamOnly s u :=
  ⟨k.cfg.trans h.cfg, k.block.trans h.block, k.closed.trans h.closed, k.faulted.trans h.faulted,
    k.faultCode.trans h.faultCode, k.cols.trans h.cols, k.port.trans h.port, k.responses.trans h.responses,
    h.out.trans k.out⟩

theorem streamOnly_outAppend (b : Byte) (s : State) : StreamOnly s (outAppend b s) :=
  ⟨rfl, rfl, rfl, rfl, rfl, rfl, rfl, rfl, List.prefix_append _ _⟩

theorem streamOnly_setEscape (e : Bool) (s : State) : StreamOnly s (s.setEscape e) :=
  ⟨rfl, rfl, rfl, rfl, rfl, rfl, rfl, rfl, List.prefix_rfl⟩

theorem streamOnly_setBits (b : BitVec 8) (u : BitVec 3) (s : State) : StreamOnly s (s.setBits b u) :=
  ⟨rfl, rfl, rfl, rfl, rfl, rfl, rfl, rfl, List.prefix_rfl⟩

theorem streamOnly_frAccept (b : Byte) (s : State) : StreamOnly s (frAccept b s) := by
  unfold frAccept
  refine .trans ?_ ((streamOnly_outAppend b _).trans (streamOnly_setEscape _ _))
  split
  · exact streamOnly_outAppend _ _
  · exact .refl s

theorem streamOnly_frMark (f : Byte) (s : State) : StreamOnly s (frMark f s) :=
  ((streamOnly_outAppend _ _).trans (streamOnly_outAppend _ _)).trans (streamOnly_setEscape _ _)

theorem streamOnly_bwWriteBit (s : State) (b : Bool) : StreamOnly s (bwWriteBit s b) := by
  unfold bwWriteBit
  dsimp only
  split
  · exact (streamOnly_frAccept _ _).trans (streamOnly_setBits _ _ _)
  · exact streamOnly_setBits _ _ _

/-- A left fold of operations that change only the stream changes only the stream. -/
theorem streamOnly_foldl {α : Type} (f : State → α → State) (h : ∀ s a, StreamOnly s (f s a)) (as : List α)
    (s : State) : StreamOnly s (as.foldl f s) := by
  induction as generalizing s with
  | nil => exact .refl s
  | cons a as ih => exact (h s a).trans (ih _)

theorem streamOnly_bwWriteBits (bs : List Bool) (s : State) : StreamOnly s (bwWriteBits bs s) :=
  streamOnly_foldl _ streamOnly_bwWriteBit bs s

theorem streamOnly_bwWrite (d n : Nat) (s : State) : StreamOnly s (bwWrite d n s) := streamOnly_bwWriteBits _ s

theorem streamOnly_bwFlush (s : State) : StreamOnly s (bwFlush s) := by
  unfold bwFlush
  split
  · exact (streamOnly_frAccept _ _).trans (streamOnly_setBits _ _ _)
  · exact .refl s

theorem streamOnly_bwEnd (s : State) : StreamOnly s (bwEnd s) :=
  (streamOnly_bwWrite _ _ _).trans (streamOnly_bwFlush _)

theorem streamOnly_egEncode (n : Nat) (s : State) : StreamOnly s (egEncode n s) :=
  ((streamOnly_bwWrite _ _ _).trans (streamOnly_bwWrite _ _ _)).trans (streamOnly_bwWrite _ _ _)

theorem streamOnly_appendBits (bits : List Bool) (s : State) : StreamOnly s (appendBits bits s) :=
  ⟨rfl, rfl, rfl, rfl, rfl, rfl, rfl, rfl, List.prefix_append _ _⟩

/-! ### The Framing unit -/

/-- `FR_accept(b)` appends b, after a `DBL` where one is due, and sets the flag by b (R201). -/
theorem frAccept_eq (b : Byte) (s : State) :
    frAccept b s = (s.setOut (s.out ++ escapeBytes s.hadEscape [b])).setEscape (escapeFlag s.hadEscape [b]) := by
  cases h : needsDbl s.hadEscape b <;> simp [frAccept, h, escapeBytes, escapeFlag, outAppend, State.setOut, State.setEscape]

/-- `FR_mark(f)` appends `ESC, f` and clears the flag (R202). -/
theorem frMark_eq (f : Byte) (s : State) :
    frMark f s = (s.setOut (s.out ++ [escByte, f])).setEscape false := by
  simp [frMark, outAppend, State.setOut, State.setEscape]

/-! ### Pending bits -/

theorem bwUsed_lt (s : State) : s.bwUsed.toNat < 8 := s.bwUsed.isLt

@[simp] theorem pendingBits_length (s : State) : (pendingBits s).length = s.bwUsed.toNat := by simp [pendingBits]

theorem fieldValue_pendingBits {s : State} (h : BufferClean s) : fieldValue (pendingBits s) = s.bwBuffer.toNat := by
  rw [pendingBits, fieldValue_fieldBits, Nat.mod_eq_of_lt h]

theorem byteOfBits_pendingBits {s : State} (h : BufferClean s) : byteOfBits (pendingBits s) = s.bwBuffer := by
  rw [byteOfBits, fieldValue_pendingBits h]
  simp

/-- The pending bits after an append are those that fill no whole byte. -/
theorem pendingBits_appendBits (bits : List Bool) (s : State) :
    pendingBits (appendBits bits s) = leftoverBits (pendingBits s ++ bits) := by
  have h := leftoverBits_length_lt (pendingBits s ++ bits)
  have h3 : (BitVec.ofNat 3 (leftoverBits (pendingBits s ++ bits)).length).toNat =
      (leftoverBits (pendingBits s ++ bits)).length := by
    simp only [BitVec.toNat_ofNat]
    exact Nat.mod_eq_of_lt h
  simp only [pendingBits, appendBits, State.setBits_bwBuffer, State.setBits_bwUsed] at *
  rw [byteOfBits_toNat h.le, h3, fieldBits_fieldValue]

theorem bufferClean_appendBits (bits : List Bool) (s : State) : BufferClean (appendBits bits s) := by
  have h := leftoverBits_length_lt (pendingBits s ++ bits)
  have h3 : (BitVec.ofNat 3 (leftoverBits (pendingBits s ++ bits)).length).toNat =
      (leftoverBits (pendingBits s ++ bits)).length := by
    simp only [BitVec.toNat_ofNat]
    exact Nat.mod_eq_of_lt h
  simp only [BufferClean, appendBits, State.setBits_bwBuffer, State.setBits_bwUsed]
  rw [byteOfBits_toNat h.le, h3]
  exact fieldValue_lt _

/-- `BW.used` after an append (R100). -/
theorem bwUsed_appendBits (bits : List Bool) (s : State) :
    (appendBits bits s).bwUsed.toNat = (s.bwUsed.toNat + bits.length) % 8 := by
  rw [← pendingBits_length, pendingBits_appendBits, leftoverBits_length]
  simp

/-- Appending in two parts is appending the whole. -/
theorem appendBits_appendBits (as bs : List Bool) (s : State) :
    appendBits bs (appendBits as s) = appendBits (as ++ bs) s := by
  have hp := pendingBits_appendBits as s
  have hw := wholeBytes_append (pendingBits s ++ as) bs
  have hl := leftoverBits_append (pendingBits s ++ as) bs
  rw [List.append_assoc] at hw hl
  rw [appendBits, hp]
  conv_rhs => rw [appendBits]
  rw [hl, hw, escapeBytes_append, escapeFlag_append]
  simp [appendBits, State.setOut, State.setEscape, State.setBits]

theorem appendBits_nil {s : State} (h : BufferClean s) : appendBits [] s = s := by
  have hl : (pendingBits s).length < 8 := by simpa using bwUsed_lt s
  have hu : BitVec.ofNat 3 s.bwUsed.toNat = s.bwUsed := by simp
  simp only [appendBits, List.append_nil, wholeBytes_short hl, leftoverBits_short hl, escapeBytes_nil, escapeFlag_nil,
    byteOfBits_pendingBits h, pendingBits_length, hu]
  rfl

/-! ### The BitWriter -/

/-- The buffer with one more bit in it. -/
theorem buffer_or_bit {s : State} (h : BufferClean s) (b : Bool) :
    s.bwBuffer ||| ((BitVec.ofBool b).setWidth 8 <<< s.bwUsed.toNat) = byteOfBits (pendingBits s ++ [b]) := by
  have hu := bwUsed_lt s
  have hlen : (pendingBits s ++ [b]).length ≤ 8 := by simp; omega
  apply BitVec.eq_of_toNat_eq
  rw [byteOfBits_toNat hlen, fieldValue_append, fieldValue_pendingBits h, pendingBits_length]
  have hlt : b.toNat * 2 ^ s.bwUsed.toNat < 256 := by
    have h1 : 2 ^ s.bwUsed.toNat ≤ 2 ^ 7 := Nat.pow_le_pow_right (by norm_num) (by omega)
    cases b <;> simp; omega
  have hsh : ((BitVec.ofBool b).setWidth 8 <<< s.bwUsed.toNat).toNat = b.toNat <<< s.bwUsed.toNat := by
    simp only [BitVec.toNat_shiftLeft, BitVec.toNat_setWidth, BitVec.toNat_ofBool, Nat.shiftLeft_eq]
    rw [Nat.mod_eq_of_lt (show b.toNat < 2 ^ 8 by cases b <;> simp), Nat.mod_eq_of_lt hlt]
  rw [BitVec.toNat_or, hsh, Nat.or_comm, ← Nat.shiftLeft_add_eq_or_of_lt h, Nat.shiftLeft_eq]
  simp [fieldValue_cons]
  ring

/-- One bit of `BW_write` is an append of that bit (R100). -/
theorem bwWriteBit_eq {s : State} (h : BufferClean s) (b : Bool) : bwWriteBit s b = appendBits [b] s := by
  have hu := bwUsed_lt s
  unfold bwWriteBit
  dsimp only
  rw [buffer_or_bit h b]
  split
  · rename_i h8
    have hlen : (pendingBits s ++ [b]).length = 8 := by simpa using h8
    have hw : wholeBytes (pendingBits s ++ [b]) = [byteOfBits (pendingBits s ++ [b])] := by
      have := wholeBytes_eight (pendingBits s ++ [b]) [] hlen
      rwa [List.append_nil] at this
    have hl : leftoverBits (pendingBits s ++ [b]) = [] := by
      have := leftoverBits_eight (pendingBits s ++ [b]) [] hlen
      rwa [List.append_nil] at this
    rw [frAccept_eq, appendBits, hw, hl]
    rfl
  · rename_i h8
    have hlen : (pendingBits s ++ [b]).length < 8 := by simp; omega
    have hused : BitVec.ofNat 3 (pendingBits s ++ [b]).length = s.bwUsed + 1 := by
      apply BitVec.eq_of_toNat_eq
      simp [BitVec.toNat_add]
    rw [appendBits, wholeBytes_short hlen, leftoverBits_short hlen, hused]
    simp [State.setOut, State.setEscape, State.setBits]

/-- Writing bits is appending them. -/
theorem bwWriteBits_eq {s : State} (h : BufferClean s) (bs : List Bool) : bwWriteBits bs s = appendBits bs s := by
  unfold bwWriteBits
  induction bs generalizing s with
  | nil => exact (appendBits_nil h).symm
  | cons b bs ih =>
    rw [List.foldl_cons, bwWriteBit_eq h, ih (bufferClean_appendBits _ _), appendBits_appendBits]
    rfl

/-- `BW_write(d, n)` appends the n low bits of d (R100). -/
theorem bwWrite_eq {s : State} (h : BufferClean s) (d n : Nat) : bwWrite d n s = appendBits (fieldBits d n) s :=
  bwWriteBits_eq h _

/-- `EG_encode(n)` appends the Elias-gamma code of n (R120). -/
theorem egEncode_eq {s : State} (h : BufferClean s) (n : Nat) : egEncode n s = appendBits (egBits n) s := by
  unfold egEncode
  dsimp only
  rw [bwWrite_eq h, bwWrite_eq (bufferClean_appendBits _ _), bwWrite_eq (bufferClean_appendBits _ _),
    appendBits_appendBits, appendBits_appendBits, fieldBits_eq_replicate, egBits]
  congr 1

/-- `BW_flush()` pads the pending bits with zeros to one byte, or does nothing when none are pending (R101). -/
theorem bwFlush_eq {s : State} (h : BufferClean s) :
    bwFlush s = if pendingBits s = [] then s
      else (frAccept (byteOfBits (pendingBits s)) s).setBits 0 0 := by
  have hp : pendingBits s = [] ↔ s.bwUsed = 0 := by
    rw [← List.length_eq_zero_iff, pendingBits_length, ← BitVec.toNat_inj]
    simp
  unfold bwFlush
  rw [byteOfBits_pendingBits h]
  by_cases hu : s.bwUsed = 0 <;> simp [hp, hu]

/-! ### The general checks -/

/-- Every path of the general checks answers a next state when the body does. -/
theorem checked_next (s : State) {body : Host.Outcome State Fault Refusal} (h : ∃ t, body = .next t) :
    ∃ t, checked s body = .next t := by
  obtain ⟨t, ht⟩ := h
  by_cases hf : s.faulted = true <;> by_cases hc : s.closed = true <;> simp [checked, hf, hc, refuse, raise, ht]

/-- A ready block goes on to the command's own checks. -/
theorem checked_ready {s : State} (h : Ready s) (body : Host.Outcome State Fault Refusal) : checked s body = body := by
  simp [checked, h.notFaulted, h.notClosed]

end Sys2Proof.Machine
end

