-- ==== Sys2Proof/Laws/Codec.lean ====
section
/-! SUPPORT. What the coders of the units do to a state whose buffer is clean: each is an append of its code to the bit
stream, and a write of a column unit where it has one. -/

namespace Sys2Proof.Machine

/-! ### Appends and writes of other fields commute -/

theorem appendBits_setCols (bits : List Bool) (us : List ColUnit) (s : State) :
    appendBits bits (s.setCols us) = (appendBits bits s).setCols us := rfl

theorem appendBits_setUnit (bits : List Bool) (c : Nat) (u : ColUnit) (s : State) :
    appendBits bits (setUnit c u s) = setUnit c u (appendBits bits s) := rfl

theorem unitAt_appendBits (bits : List Bool) (s : State) (c : Nat) : unitAt (appendBits bits s) c = unitAt s c := rfl

theorem appendBits_cfg (bits : List Bool) (s : State) : (appendBits bits s).cfg = s.cfg := rfl

theorem appendBits_cols (bits : List Bool) (s : State) : (appendBits bits s).cols = s.cols := rfl

theorem bufferClean_setUnit {s : State} (h : BufferClean s) (c : Nat) (u : ColUnit) : BufferClean (setUnit c u s) := h

theorem bufferClean_frMark {s : State} (h : BufferClean s) (f : Byte) : BufferClean (frMark f s) := by
  rw [frMark_eq]; exact h

theorem bufferClean_frAccept {s : State} (h : BufferClean s) (b : Byte) : BufferClean (frAccept b s) := by
  rw [frAccept_eq]; exact h

/-- A write of a column unit is read back, if the state has that unit. -/
theorem unitAt_setUnit_same {s : State} {c : Nat} (h : c < s.cols.length) (u : ColUnit) :
    unitAt (setUnit c u s) c = u := by
  simp [unitAt, setUnit, h]

/-- A write of a column unit leaves every other column alone. -/
theorem unitAt_setUnit_other (s : State) {c d : Nat} (h : d ≠ c) (u : ColUnit) :
    unitAt (setUnit c u s) d = unitAt s d := by
  simp [unitAt, setUnit, List.getElem?_set_ne h.symm]

/-! ### The adaptive coder and the column compressor -/

/-- `AEG_encode(c, n)` appends the code of n at the shift of column c, then adapts its state (R133). -/
theorem aegEncode_eq {s : State} (h : BufferClean s) (c n : Nat) :
    aegEncode c n s =
      setUnit c
        { unitAt s c with
          aeg := adaptState (s.cfg.maxState.at (s.cfg.col c).type.width) (unitAt s c).aeg
            (n / 2 ^ shiftOf (unitAt s c).aeg) }
        (appendBits (aegBits (shiftOf (unitAt s c).aeg) n) s) := by
  unfold aegEncode aegAdapt
  dsimp only
  rw [egEncode_eq h, bwWrite_eq (bufferClean_appendBits _ _), appendBits_appendBits, Nat.shiftRight_eq_div_pow]
  rfl

/-- `COL_write(c, v)` on a hit (R170). -/
theorem colWrite_hit {s : State} (h : BufferClean s) {c : Nat} {v : Int}
    (hp : predict (s.cfg.col c) (unitAt s c).pred = v) :
    colWrite c v s =
      setUnit c { unitAt s c with pred := feed (s.cfg.col c) (unitAt s c).pred v } (appendBits [true] s) := by
  unfold colWrite predictAndFeed
  dsimp only
  rw [if_pos hp, bwWrite_eq (bufferClean_setUnit h _ _)]
  rfl

/-- `COL_write(c, v)` on a miss (R170), by `abs_diff` of the prediction and v. -/
theorem colWrite_miss {s : State} (h : BufferClean s) {c : Nat} {v : Int} (hc : c < s.cols.length)
    (hp : predict (s.cfg.col c) (unitAt s c).pred ≠ v) :
    colWrite c v s =
      setUnit c
        { aeg := adaptState (s.cfg.maxState.at (s.cfg.col c).type.width) (unitAt s c).aeg
            (((absDiff (s.cfg.col c).type (predict (s.cfg.col c) (unitAt s c).pred) v).1 - 1) /
              2 ^ shiftOf (unitAt s c).aeg)
          pred := feed (s.cfg.col c) (unitAt s c).pred v }
        (appendBits
          (false :: (absDiff (s.cfg.col c).type (predict (s.cfg.col c) (unitAt s c).pred) v).2 ::
            aegBits (shiftOf (unitAt s c).aeg)
              ((absDiff (s.cfg.col c).type (predict (s.cfg.col c) (unitAt s c).pred) v).1 - 1)) s) := by
  unfold colWrite predictAndFeed
  dsimp only
  rw [if_neg hp]
  have hs := bufferClean_setUnit h c { unitAt s c with pred := feed (s.cfg.col c) (unitAt s c).pred v }
  rw [bwWrite_eq hs, bwWrite_eq (bufferClean_appendBits _ _), appendBits_appendBits,
    aegEncode_eq (bufferClean_appendBits _ _), unitAt_appendBits, unitAt_setUnit_same hc, appendBits_appendBits,
    fieldBits_one, appendBits_setUnit]
  simp [setUnit, State.setCols, appendBits, State.setBits, State.setOut, State.setEscape, fieldBits, pendingBits]

/-! ### The string compressor -/

theorem emitSymbol_eq {s : State} (h : BufferClean s) (node : Nat) :
    emitSymbol s node = appendBits (symbolBits s.cfg node) s := by
  unfold emitSymbol symbolBits
  cases s.cfg.trie[node]? with
  | some n => exact bwWrite_eq h _ _
  | none => exact (appendBits_nil h).symm

theorem emitLiteral_eq {s : State} (h : BufferClean s) (b : Byte) : emitLiteral s b = appendBits (byteBits b) s :=
  bwWrite_eq h _ _

/-- A left fold of appends is the append of all their bits. -/
theorem foldl_appendBits {α : Type} {f : State → α → State} {g : Config → α → List Bool}
    (hf : ∀ s a, BufferClean s → f s a = appendBits (g s.cfg a) s) (as : List α) {s : State} (h : BufferClean s) :
    as.foldl f s = appendBits (as.flatMap (g s.cfg)) s := by
  induction as generalizing s with
  | nil => exact (appendBits_nil h).symm
  | cons a as ih =>
    rw [List.foldl_cons, hf s a h, ih (bufferClean_appendBits _ _), appendBits_appendBits, List.flatMap_cons]
    rfl

theorem emitMatchGroup_eq {s : State} (h : BufferClean s) (syms : List Nat) :
    emitMatchGroup syms s = appendBits (matchGroupBits s.cfg syms) s := by
  unfold emitMatchGroup matchGroupBits
  rw [egEncode_eq h, foldl_appendBits (g := fun cfg => symbolBits cfg) (fun _ _ hs => emitSymbol_eq hs _) syms
    (bufferClean_appendBits _ _), appendBits_appendBits, appendBits_cfg]

theorem emitLiteralGroup_eq {s : State} (h : BufferClean s) (lits : List Byte) :
    emitLiteralGroup lits s = appendBits (literalGroupBits lits) s := by
  unfold emitLiteralGroup literalGroupBits
  rw [egEncode_eq h, foldl_appendBits (g := fun _ => byteBits) (fun _ _ hs => emitLiteral_eq hs _) lits
    (bufferClean_appendBits _ _), appendBits_appendBits]

theorem strRounds_eq (k : Nat) (first : Bool) (bs : List Byte) {s : State} (h : BufferClean s) :
    strRounds s.cfg k first bs s = appendBits (strRoundBits s.cfg k first bs) s := by
  induction k generalizing first bs s with
  | zero => exact (appendBits_nil h).symm
  | succ k ih =>
    unfold strRounds strRoundBits
    dsimp only
    rw [emitMatchGroup_eq h, ← appendBits_appendBits]
    simp only [List.length_eq_zero_iff]
    split
    · exact (appendBits_nil (bufferClean_appendBits _ _)).symm
    · rw [emitLiteralGroup_eq (bufferClean_appendBits _ _), ← appendBits_appendBits]
      split
      · exact (appendBits_nil (bufferClean_appendBits _ _)).symm
      · exact ih (s := appendBits _ (appendBits _ s)) _ _ (bufferClean_appendBits _ _)

/-- `STR_compress(s)` appends the code of the string (R220). -/
theorem strCompress_eq (bs : List Byte) {s : State} (h : BufferClean s) :
    strCompress bs s = appendBits (strBits s.cfg bs) s := strRounds_eq _ _ _ h

/-! ### Block start and end -/

theorem headerColumn_eq {s : State} (h : BufferClean s) (c : Nat) :
    headerColumn s c = appendBits (headerColumnBits s.cfg (s.cfg.col c)) s := by
  unfold headerColumn headerColumnBits
  dsimp only
  rw [strCompress_eq _ h, bwWrite_eq (bufferClean_appendBits _ _), bwWrite_eq (bufferClean_appendBits _ _),
    appendBits_appendBits, appendBits_appendBits, fieldBits_one]
  simp

/-- Reading the columns by number is reading them in list order. -/
theorem map_col_range (cfg : Config) : (List.range cfg.ncol).map cfg.col = cfg.cols := by
  apply List.ext_getElem
  · simp [Config.ncol]
  · intro i h1 h2
    simp [Config.col, h2]

/-- Writing every unit by number is writing the list of them. -/
theorem foldl_set_range (f : Nat → ColUnit) (n : Nat) (us : List ColUnit) (h : n ≤ us.length) :
    (List.range n).foldl (fun vs c => vs.set c (f c)) us = (List.range n).map f ++ us.drop n := by
  induction n with
  | zero => simp
  | succ n ih =>
    have hn : n < us.length := h
    rw [List.range_succ, List.foldl_append, ih (by omega), List.foldl_cons, List.foldl_nil, List.map_append,
      List.set_append_right _ _ (by simp)]
    simp only [List.length_map, List.length_range, Nat.sub_self, List.drop_eq_getElem_cons hn, List.set_cons_zero,
      List.map_cons, List.map_nil, List.append_assoc, List.cons_append, List.nil_append]

/-- Every column made fresh (R171, R181). -/
theorem freshColumns_eq {s : State} (h : s.cols.length = s.cfg.ncol) :
    freshColumns s = s.setCols (freshUnits s.cfg) := by
  have key : ∀ (cs : List Nat) (us : List ColUnit),
      cs.foldl (fun t c => colFresh c t) (s.setCols us) =
        s.setCols (cs.foldl (fun vs c => vs.set c (ColUnit.fresh s.cfg (s.cfg.col c))) us) := by
    intro cs
    induction cs with
    | nil => intro us; rfl
    | cons c cs ih => intro us; exact ih _
  have hk := key (List.range s.cfg.ncol) s.cols
  rw [foldl_set_range _ _ _ h.ge, ← h, List.drop_length, List.append_nil, h] at hk
  have hm : (List.range s.cfg.ncol).map (fun c => ColUnit.fresh s.cfg (s.cfg.col c)) = freshUnits s.cfg := by
    rw [freshUnits, ← map_col_range s.cfg, List.map_map]
    simp
  rw [hm] at hk
  exact hk

/-- `TAB_start_block()` (R181): fresh columns, the start marker, the header, and InBlock. -/
theorem tabStartBlock_eq {s : State} (h : BufferClean s) (hc : s.cols.length = s.cfg.ncol) :
    tabStartBlock s =
      (appendBits (headerBits s.cfg)
        (((s.setCols (freshUnits s.cfg)).setOut (s.out ++ [escByte, startByte])).setEscape false)).setBlock .inBlock := by
  unfold tabStartBlock headerBits
  dsimp only
  have hs : BufferClean (frMark startByte (freshColumns s)) := by
    rw [freshColumns_eq hc]
    exact bufferClean_frMark (s := s.setCols _) h startByte
  rw [egEncode_eq hs, egEncode_eq (bufferClean_appendBits _ _),
    foldl_appendBits (g := fun cfg c => headerColumnBits cfg (cfg.col c)) (fun _ _ ht => headerColumn_eq ht _) _
      (bufferClean_appendBits _ _), appendBits_appendBits, appendBits_appendBits]
  simp only [appendBits_cfg]
  rw [freshColumns_eq hc, frMark_eq]
  have hm : (List.range s.cfg.ncol).flatMap (fun c => headerColumnBits s.cfg (s.cfg.col c)) =
      s.cfg.cols.flatMap (headerColumnBits s.cfg) := by
    conv_rhs => rw [← map_col_range s.cfg, List.flatMap_map]
  simp only [State.setEscape_cfg, State.setOut_cfg, State.setCols_cfg, hm, State.setCols_out, List.append_assoc]

/-- `BW_end()` sends the pending bits, a 1 and zeros above it as one byte (R102). -/
theorem bwEnd_eq {s : State} (h : BufferClean s) :
    bwEnd s = (frAccept (byteOfBits (pendingBits s ++ [true])) s).setBits 0 0 := by
  unfold bwEnd
  rw [bwWrite_eq h, bwFlush_eq (bufferClean_appendBits _ _), pendingBits_appendBits]
  have h1 : fieldBits 1 1 = [true] := rfl
  have hu := bwUsed_lt s
  rw [h1]
  by_cases h8 : (pendingBits s ++ [true]).length = 8
  · have hw := wholeBytes_eight (pendingBits s ++ [true]) [] h8
    have hl := leftoverBits_eight (pendingBits s ++ [true]) [] h8
    rw [List.append_nil] at hw hl
    have hl' : leftoverBits (pendingBits s ++ [true]) = [] := hl
    have hw' : wholeBytes (pendingBits s ++ [true]) = [byteOfBits (pendingBits s ++ [true])] := hw
    rw [hl', if_pos rfl, frAccept_eq, appendBits, hw', hl']
    rfl
  · have hlt : (pendingBits s ++ [true]).length < 8 := by
      have : (pendingBits s ++ [true]).length = s.bwUsed.toNat + 1 := by simp
      omega
    rw [leftoverBits_short hlt, if_neg (by simp)]
    rw [frAccept_eq, frAccept_eq, appendBits, wholeBytes_short hlt, leftoverBits_short hlt]
    simp [State.setOut, State.setEscape, State.setBits]

/-- `TAB_end_block()` (R186). -/
theorem tabEndBlock_eq {s : State} (h : BufferClean s) :
    tabEndBlock s =
      (((s.setOut (s.out ++ escapeBytes s.hadEscape [byteOfBits (pendingBits s ++ [true])] ++ [escByte, endByte])).setEscape
        false).setBits 0 0).setBlock .noBlock := by
  unfold tabEndBlock
  rw [bwEnd_eq h, frMark_eq, frAccept_eq]
  rfl

end Sys2Proof.Machine
end

