-- ==== Sys2Proof/Laws/Invariant.lean ====
section
/-! SUPPORT. The invariants of `State.Inv` through the shared operations: what they say of one column, and that each
operation the commands are made of keeps them. -/

namespace Sys2Proof.Machine

/-! ### What the invariants say of a column -/

theorem holds_iff (t : ColumnType) (v : Int) : t.holds v = true ↔ t.minValue ≤ v ∧ v ≤ t.maxValue := by
  simp [ColumnType.holds]

/-- One unit for each column, and each unit fits its column. -/
theorem unitsFit_iff (cfg : Config) (ccs : List ColumnConfig) (us : List ColUnit) :
    unitsFit cfg ccs us = true ↔
      us.length = ccs.length ∧
        ∀ (c : Nat) (cc : ColumnConfig) (u : ColUnit), ccs[c]? = some cc → us[c]? = some u → u.fits cfg cc = true := by
  induction ccs generalizing us with
  | nil => cases us <;> simp [unitsFit]
  | cons cc ccs ih =>
    cases us with
    | nil => simp [unitsFit]
    | cons u us =>
      simp only [unitsFit, Bool.and_eq_true, ih, List.length_cons, Nat.add_right_cancel_iff]
      constructor
      · rintro ⟨h1, h2, h3⟩
        refine ⟨h2, fun c cc' u' hc hu => ?_⟩
        cases c with
        | zero => simp at hc hu; subst hc; subst hu; exact h1
        | succ c => exact h3 c cc' u' (by simpa using hc) (by simpa using hu)
      · rintro ⟨h2, h3⟩
        exact ⟨h3 0 cc u rfl rfl, h2, fun c cc' u' hc hu => h3 (c + 1) cc' u' (by simpa using hc) (by simpa using hu)⟩

theorem inv_length {s : State} (h : s.Inv) : s.cols.length = s.cfg.ncol := ((unitsFit_iff _ _ _).1 h.units).1

theorem col_mem (cfg : Config) {c : Nat} (hc : c < cfg.ncol) : cfg.col c ∈ cfg.cols := by
  rw [← map_col_range cfg]
  exact List.mem_map.2 ⟨c, by simpa using hc, rfl⟩

theorem inv_unit {s : State} (h : s.Inv) {c : Nat} (hc : c < s.cfg.ncol) :
    (unitAt s c).fits s.cfg (s.cfg.col c) = true := by
  have hl := inv_length h
  refine ((unitsFit_iff _ _ _).1 h.units).2 c _ _ (?_ : _ = some (s.cfg.col c)) ?_
  · simp [Config.col, Config.ncol] at *
    simp [hc]
  · simp [unitAt, hl, hc]

theorem fits_parts {cfg : Config} {cc : ColumnConfig} {u : ColUnit} (h : u.fits cfg cc = true) :
    u.aeg.toNat ≤ cfg.maxState.at cc.type.width ∧ u.pred.fits cc = true := by
  simpa [ColUnit.fits] using h

theorem inv_maxState {s : State} (h : s.Inv) (w : ByteWidth) :
    w.initState ≤ s.cfg.maxState.at w ∧ s.cfg.maxState.at w ≤ 4 * (w.bits - 1) := by
  have := h.config
  simp only [Config.wf, Bool.and_eq_true, MaxStates.fitsAt, decide_eq_true_eq] at this
  cases w <;> simp [ByteWidth.bits, ByteWidth.initState, ByteWidth.bytes] at * <;> omega

theorem inv_kind {s : State} (h : s.Inv) {c : Nat} (hc : c < s.cfg.ncol) : (s.cfg.col c).kind.wf = true := by
  have := h.config
  simp only [Config.wf, Bool.and_eq_true, List.all_eq_true] at this
  exact this.1.1.1.1.1.2 _ (col_mem _ hc)

/-- The adaptation never passes the ceiling (R134). -/
theorem adaptState_le {m : Nat} (hm : m ≤ 252) {a : BitVec 8} (ha : a.toNat ≤ m) (p : Nat) :
    (adaptState m a p).toNat ≤ m := by
  unfold adaptState
  split
  · simp; omega
  · split
    · simp; omega
    · exact ha

/-- A history of at most N values of the type stays one (R147). -/
theorem slFeed_fits {t : ColumnType} {n : Nat} {l : List Int} {v : Int} (hn : 1 ≤ n) (hl : l.length ≤ n)
    (ha : ∀ x ∈ l, t.holds x = true) (hv : t.holds v = true) :
    (slFeed n l v).length ≤ n ∧ ∀ x ∈ slFeed n l v, t.holds x = true := by
  unfold slFeed
  constructor
  · split <;> simp <;> omega
  · intro x hx
    rcases List.mem_append.1 hx with hx | hx
    · split at hx
      · exact ha x (List.mem_of_mem_drop hx)
      · exact ha x hx
    · rw [List.mem_singleton.1 hx]
      exact hv

/-- Feeding a value of the column type keeps the predictor state fitting (R147, R150). -/
theorem feed_fits {cc : ColumnConfig} {p : PredState} (h : p.fits cc = true) (hk : cc.kind.wf = true) {v : Int}
    (hv : cc.type.holds v = true) : (feed cc p v).fits cc = true := by
  unfold feed
  cases hc : cc.kind with
  | l12a =>
    cases p with
    | l12a a b s => simp [PredState.fits, hc, l12aFeed, PredState.prev1] at *; exact ⟨h.2, hv⟩
    | sl h' => simp [PredState.fits, hc] at h
  | sl n =>
    cases p with
    | l12a a b s => simp [PredState.fits, hc] at h
    | sl l =>
      simp only [PredState.fits, hc, Bool.and_eq_true, decide_eq_true_eq, List.all_eq_true] at h
      simp only [hc, PredKind.wf, Bool.and_eq_true, decide_eq_true_eq] at hk
      have hf := slFeed_fits (by omega : 1 ≤ n) h.1 h.2 hv
      have e : (PredState.sl (slFeed n l v)).fits cc =
          (decide ((slFeed n l v).length ≤ n) && (slFeed n l v).all cc.type.holds) := by
        simp only [PredState.fits, hc]
      exact e.trans (by rw [Bool.and_eq_true, decide_eq_true_eq, List.all_eq_true]; exact hf)

/-- A fresh unit fits its column (R171). -/
theorem fresh_fits {s : State} (h : s.Inv) {c : Nat} (hc : c < s.cfg.ncol) :
    (ColUnit.fresh s.cfg (s.cfg.col c)).fits s.cfg (s.cfg.col c) = true := by
  have h1 := (inv_maxState h (s.cfg.col c).type.width).1
  have hw := h.config
  simp only [Config.wf, Bool.and_eq_true, List.all_eq_true, Config.l12aInitFits] at hw
  have h2 := hw.1.1.1.1.2.2 _ (col_mem _ hc)
  rw [ColUnit.fits, Bool.and_eq_true, decide_eq_true_eq]
  constructor
  · have h3 : ∀ w : ByteWidth, (BitVec.ofNat 8 (w.bytes <<< 2)).toNat = w.initState := by intro w; cases w <;> rfl
    exact (h3 _).trans_le h1
  · revert h2
    cases hk : (s.cfg.col c).kind <;> simp [ColUnit.fresh, PredState.fresh, PredState.fits, hk]

theorem freshUnits_fit {s : State} (h : s.Inv) : unitsFit s.cfg s.cfg.cols (freshUnits s.cfg) = true := by
  refine (unitsFit_iff _ _ _).2 ⟨by simp [freshUnits], fun c cc u hc hu => ?_⟩
  have hlt := (List.getElem?_eq_some_iff.1 hc).1
  have e : s.cfg.col c = cc := by simp [Config.col, hc]
  simp [freshUnits, hc] at hu
  subst hu
  rw [← e]
  exact fresh_fits h hlt

/-! ### The operations keep the invariants -/

theorem inv_appendBits {s : State} (h : s.Inv) (bits : List Bool) : (appendBits bits s).Inv := by
  refine ⟨h.config, bufferClean_appendBits _ _, fun he => ?_, h.closedOutside, h.faultCode, h.neverRefused, h.units⟩
  simp only [appendBits, State.setBits_out, State.setEscape_out, State.setOut_out, State.setBits_hadEscape,
    State.setEscape_hadEscape] at *
  generalize wholeBytes (pendingBits s ++ bits) = w at *
  rcases List.eq_nil_or_concat w with rfl | ⟨l, b, rfl⟩
  · simpa using h.escape (by simpa using he)
  · rw [List.concat_eq_append] at *
    have h1 := escapeBytes_getLast? s.hadEscape (l ++ [b]) (by simp)
    have h2 := escapeFlag_eq_last s.hadEscape (l ++ [b]) b (by simp)
    rw [h2] at he
    have hb : b = escByte := by simpa using he
    subst hb
    rw [List.getLast?_append, h1]
    simp

theorem inv_setUnit {s : State} (h : s.Inv) {c : Nat} {u : ColUnit} (hu : u.fits s.cfg (s.cfg.col c) = true) :
    (setUnit c u s).Inv := by
  refine ⟨h.config, h.buffer, h.escape, h.closedOutside, h.faultCode, h.neverRefused, ?_⟩
  obtain ⟨hl, hf⟩ := (unitsFit_iff _ _ _).1 h.units
  refine (unitsFit_iff _ _ _).2 ⟨by simpa [setUnit] using hl, fun d cc v hd hv => ?_⟩
  by_cases hdc : d = c
  · subst hdc
    have hlt : d < s.cols.length := by
      have := (List.getElem?_eq_some_iff.1 hd).1
      simp [setUnit] at this ⊢
      omega
    simp [setUnit, hlt] at hv hd
    subst hv
    have : s.cfg.col d = cc := by simp [Config.col, hd]
    rw [← this]
    exact hu
  · simp [setUnit, List.getElem?_set_ne (Ne.symm hdc)] at hv
    exact hf d cc v hd hv

theorem inv_aegEncode {s : State} (h : s.Inv) {c : Nat} (hc : c < s.cfg.ncol) (n : Nat) : (aegEncode c n s).Inv := by
  rw [aegEncode_eq h.buffer]
  refine inv_setUnit (inv_appendBits h _) ?_
  obtain ⟨h1, h2⟩ := fits_parts (inv_unit h hc)
  have h3 := (inv_maxState h (s.cfg.col c).type.width).2
  have h4 : (s.cfg.col c).type.width.bits ≤ 64 := by cases (s.cfg.col c).type.width <;> decide
  simp only [ColUnit.fits, Bool.and_eq_true, decide_eq_true_eq]
  exact ⟨adaptState_le (by omega) h1 _, h2⟩

theorem inv_predictAndFeed {s : State} (h : s.Inv) {c : Nat} (hc : c < s.cfg.ncol) {v : Int}
    (hv : (s.cfg.col c).type.holds v = true) : (predictAndFeed c v s).2.Inv := by
  refine inv_setUnit h ?_
  obtain ⟨h1, h2⟩ := fits_parts (inv_unit h hc)
  simp only [ColUnit.fits, Bool.and_eq_true, decide_eq_true_eq]
  exact ⟨h1, feed_fits h2 (inv_kind h hc) hv⟩

theorem inv_colWrite {s : State} (h : s.Inv) {c : Nat} (hc : c < s.cfg.ncol) {v : Int}
    (hv : (s.cfg.col c).type.holds v = true) : (colWrite c v s).Inv := by
  have hf := inv_predictAndFeed h hc hv
  unfold colWrite
  dsimp only
  split
  · rw [bwWrite_eq hf.buffer]
    exact inv_appendBits hf _
  · rw [bwWrite_eq hf.buffer, bwWrite_eq (bufferClean_appendBits _ _), appendBits_appendBits]
    exact inv_aegEncode (inv_appendBits hf _) hc _

theorem inv_colFresh {s : State} (h : s.Inv) {c : Nat} (hc : c < s.cfg.ncol) : (colFresh c s).Inv :=
  inv_setUnit h (fresh_fits h hc)

theorem inv_tabStartBlock {s : State} (h : s.Inv) (hc : s.closed = false) : (tabStartBlock s).Inv := by
  rw [tabStartBlock_eq h.buffer (inv_length h)]
  have hu := freshUnits_fit h
  have hs : (((s.setCols (freshUnits s.cfg)).setOut (s.out ++ [escByte, startByte])).setEscape false).Inv :=
    ⟨h.config, h.buffer, by simp, h.closedOutside, h.faultCode, h.neverRefused, hu⟩
  have := inv_appendBits hs (headerBits s.cfg)
  exact ⟨this.config, this.buffer, this.escape, fun hx => absurd hx (by simp [(streamOnly_appendBits _ _).closed, hc]),
    this.faultCode, this.neverRefused, this.units⟩

theorem inv_tabEndBlock {s : State} (h : s.Inv) : (tabEndBlock s).Inv := by
  rw [tabEndBlock_eq h.buffer]
  exact ⟨h.config, by simp [BufferClean], by simp, fun _ => rfl, h.faultCode, h.neverRefused, h.units⟩

theorem inv_frAccept {s : State} (h : s.Inv) (b : Byte) : (frAccept b s).Inv := by
  have hb := bufferClean_frAccept h.buffer b
  rw [frAccept_eq] at *
  refine ⟨h.config, hb, fun he => ?_, h.closedOutside, h.faultCode, h.neverRefused, h.units⟩
  simp only [State.setEscape_out, State.setOut_out, State.setEscape_hadEscape] at *
  rw [List.getLast?_append, escapeBytes_getLast? _ _ (by simp)]
  simpa [escapeFlag, escapeAfter] using he

theorem inv_frMark {s : State} (h : s.Inv) (f : Byte) : (frMark f s).Inv := by
  rw [frMark_eq]
  exact ⟨h.config, h.buffer, by simp, h.closedOutside, h.faultCode, h.neverRefused, h.units⟩

theorem inv_dropBits {s : State} (h : s.Inv) : (s.setBits 0 0).Inv :=
  ⟨h.config, by simp [BufferClean], h.escape, h.closedOutside, h.faultCode, h.neverRefused, h.units⟩

theorem inv_respond {s : State} (h : s.Inv) (r : Response) : (respond r s).Inv :=
  ⟨h.config, h.buffer, h.escape, h.closedOutside, h.faultCode, h.neverRefused, h.units⟩

theorem inv_setPort {s : State} (h : s.Inv) (p : List HostInput) : (s.setPort p).Inv :=
  ⟨h.config, h.buffer, h.escape, h.closedOutside, h.faultCode, h.neverRefused, h.units⟩

theorem inv_setFault {s : State} (h : s.Inv) {c : FaultCode} (h1 : c ≠ .none) (h2 : c ≠ .refused) :
    (s.setFault true c).Inv :=
  ⟨h.config, h.buffer, h.escape, h.closedOutside, by simp [h1], h2, h.units⟩

end Sys2Proof.Machine
end

