-- ==== Sys2Proof/Laws/PerInstr.lean ====
section
/-! SUPPORT. Families of lemmas with one lemma for each constructor of `Instr`, about the command as syntax. -/

namespace Sys2Proof

/-! ### The fields of a packed header (30_encoding.md R71) -/

/-- The bits of a packed header: OP, then A, then L, then zeros. -/
theorem getLsbD_packHeader (op a : Byte) (l : BitVec 16) (i : Nat) :
    (packHeader op a l).getLsbD i =
      if i < 8 then op.getLsbD i else if i < 16 then a.getLsbD (i - 8) else l.getLsbD (i - 16) := by
  have h : (packHeader op a l).getLsbD i = BitVec.getLsbD (w := 32 + 16 + 8 + 8) (0#32 ++ l ++ a ++ op) i := rfl
  rw [h]
  simp only [BitVec.getLsbD_append]
  by_cases h1 : i < 8
  · simp [h1]
  · by_cases h2 : i < 16
    · simp [h1, h2, show i - 8 < 8 by omega]
    · by_cases h3 : i < 32
      · simp [h1, h2, show ¬ i - 8 < 8 by omega, show i - 8 - 8 = i - 16 by omega]
        omega
      · simp [h1, h2, show ¬ i - 8 < 8 by omega, show ¬ i - 8 - 8 < 16 by omega, BitVec.getLsbD_of_ge l (i - 16) (by omega)]

theorem opField_packHeader (op a : Byte) (l : BitVec 16) : opField (packHeader op a l) = op := by
  apply BitVec.eq_of_getLsbD_eq
  intro i hi
  simp only [opField, BitVec.getLsbD_extractLsb', getLsbD_packHeader, hi, decide_true, Bool.true_and, Nat.zero_add, if_true]

theorem aField_packHeader (op a : Byte) (l : BitVec 16) : aField (packHeader op a l) = a := by
  apply BitVec.eq_of_getLsbD_eq
  intro i hi
  simp only [aField, BitVec.getLsbD_extractLsb', getLsbD_packHeader, hi, decide_true, Bool.true_and,
    show ¬ 8 + i < 8 by omega, show 8 + i < 16 by omega, if_true, if_false, Nat.add_sub_cancel_left]

theorem lField_packHeader (op a : Byte) (l : BitVec 16) : lField (packHeader op a l) = l := by
  apply BitVec.eq_of_getLsbD_eq
  intro i hi
  simp only [lField, BitVec.getLsbD_extractLsb', getLsbD_packHeader, hi, decide_true, Bool.true_and,
    show ¬ 16 + i < 8 by omega, show ¬ 16 + i < 16 by omega, if_false, Nat.add_sub_cancel_left]

theorem rsvField_packHeader (op a : Byte) (l : BitVec 16) : rsvField (packHeader op a l) = 0 := by
  apply BitVec.eq_of_getLsbD_eq
  intro i hi
  simp only [rsvField, BitVec.getLsbD_extractLsb', getLsbD_packHeader, hi, decide_true, Bool.true_and,
    show ¬ 32 + i < 8 by omega, show ¬ 32 + i < 16 by omega, if_false]
  rw [BitVec.getLsbD_of_ge l _ (by omega)]
  simp

/-- Every opcode is the opcode of its own OP value (R75). -/
theorem ofByte?_code (op : Opcode) : Opcode.ofByte? op.code = some op := by cases op <;> rfl

/-- A header packed from an opcode and operands within the bits it uses is legal (R80). -/
theorem headerOpcode_packHeader (op : Opcode) (a : Byte) (l : BitVec 16) (hl : l &&& ~~~op.lUsed = 0)
    (ha : a &&& ~~~op.aUsed = 0) : headerOpcode (packHeader op.code a l) = .ok op := by
  simp [headerOpcode, opField_packHeader, aField_packHeader, lField_packHeader, rsvField_packHeader, ofByte?_code, hl, ha]

/-- The one bit of `BW_WRITE_BIT` uses only A[0]. -/
theorem bit_within (b : Bool) : (BitVec.ofBool b).setWidth 8 &&& ~~~(0x01 : BitVec 8) = 0 := by cases b <;> decide

namespace Laws.EncodedHeader

/-- The header of a command is legal, has the command's opcode, and calls for as many operand words as a well-formed
command has (R72, R73, R74, R80). -/
def Statement (i : Instr) : Prop :=
  headerOpcode i.header = .ok i.opcode ∧
    ∀ ncol, i.wf ncol = true → i.operandWords.length = i.opcode.operandCount ncol (lField i.header)

theorem bwWrite (n : Byte) (d : Word) : Statement (.bwWrite n d) :=
  ⟨headerOpcode_packHeader .bwWrite n 0 (by decide) (by simp [Opcode.aUsed]), fun _ _ => rfl⟩

theorem bwWriteBit (b : Bool) : Statement (.bwWriteBit b) :=
  ⟨headerOpcode_packHeader .bwWriteBit _ 0 (by decide) (bit_within b), fun _ _ => rfl⟩

theorem bwFlush : Statement .bwFlush := ⟨by decide, fun _ _ => rfl⟩

theorem bwEnd : Statement .bwEnd := ⟨by decide, fun _ _ => rfl⟩

theorem egEncode (n : Word) : Statement (.egEncode n) :=
  ⟨headerOpcode_packHeader .egEncode 0 0 (by decide) (by decide), fun _ _ => rfl⟩

theorem aegEncode (c : Byte) (n : Word) : Statement (.aegEncode c n) :=
  ⟨headerOpcode_packHeader .aegEncode c 0 (by decide) (by simp [Opcode.aUsed]), fun _ _ => rfl⟩

theorem predFeed (c : Byte) (v : Word) : Statement (.predFeed c v) :=
  ⟨headerOpcode_packHeader .predFeed c 0 (by decide) (by simp [Opcode.aUsed]), fun _ _ => rfl⟩

theorem colWrite (c : Byte) (v : Word) : Statement (.colWrite c v) :=
  ⟨headerOpcode_packHeader .colWrite c 0 (by decide) (by simp [Opcode.aUsed]), fun _ _ => rfl⟩

theorem colReset (c : Byte) : Statement (.colReset c) :=
  ⟨headerOpcode_packHeader .colReset c 0 (by decide) (by simp [Opcode.aUsed]), fun _ _ => rfl⟩

theorem tabWriteRow (vs : List Word) : Statement (.tabWriteRow vs) :=
  ⟨headerOpcode_packHeader .tabWriteRow 0 0 (by decide) (by decide),
    fun ncol h => by simpa [Instr.wf, Instr.operandWords, Instr.opcode, Opcode.operandCount] using h⟩

theorem tabEndBlock : Statement .tabEndBlock := ⟨by decide, fun _ _ => rfl⟩

theorem tabClose : Statement .tabClose := ⟨by decide, fun _ _ => rfl⟩

theorem statusRead : Statement .statusRead := ⟨by decide, fun _ _ => rfl⟩

theorem frByte (b : Byte) : Statement (.frByte b) :=
  ⟨headerOpcode_packHeader .frByte b 0 (by decide) (by simp [Opcode.aUsed]), fun _ _ => rfl⟩

theorem frStart : Statement .frStart := ⟨by decide, fun _ _ => rfl⟩

theorem frEnd : Statement .frEnd := ⟨by decide, fun _ _ => rfl⟩

theorem strCompress (len : BitVec 16) (ws : List Word) : Statement (.strCompress len ws) :=
  ⟨headerOpcode_packHeader .strCompress 0 len (by simp [Opcode.lUsed]) (by decide),
    fun ncol h => by
      have hl : lField (Instr.strCompress len ws).header = len := lField_packHeader _ _ _
      rw [hl]
      simpa [Instr.wf, Instr.operandWords, Instr.opcode, Opcode.operandCount] using h⟩

end Laws.EncodedHeader

end Sys2Proof
end

