-- ==== Sys2Proof/Laws/Port.lean ====
section
/-! SUPPORT. What the outcomes, the checks and the command port do, said once: the whole state after a command that
completes, faults or is refused, the checks of R243 by cases, and what the block takes from its port. -/

namespace Sys2Proof.Machine

/-! ### Outcomes and checks (60_exceptions.md R241 to R243) -/

theorem complete_eq (data : BitVec 64) (s : State) : complete data s = .next (okState data s) := rfl

theorem raise_eq (code : FaultCode) (s : State) : raise code s = .next (faultState code s) := rfl

theorem refuse_eq (s : State) : refuse s = .next (refusedState s) := rfl

theorem checked_faulted {s : State} (h : s.faulted = true) (body : Host.Outcome State Fault Refusal) :
    checked s body = .next (refusedState s) := by
  simp [checked, h, refuse_eq]

theorem checked_closed {s : State} (hf : s.faulted = false) (hc : s.closed = true)
    (body : Host.Outcome State Fault Refusal) : checked s body = .next (faultState .afterClose s) := by
  simp [checked, hf, hc, raise_eq]

theorem withColumn_lt {s : State} {c : Nat} (h : c < s.cfg.ncol) (body : Host.Outcome State Fault Refusal) :
    withColumn c s body = body := if_neg (Nat.not_le.2 h)

theorem withColumn_ge {s : State} {c : Nat} (h : s.cfg.ncol ≤ c) (body : Host.Outcome State Fault Refusal) :
    withColumn c s body = .next (faultState .columnRange s) := if_pos h

theorem withColumnWord_ok {s : State} {c : Nat} {d : Word} (h : columnWordOk (s.cfg.col c).type d = true)
    (body : Host.Outcome State Fault Refusal) : withColumnWord c d s body = body := if_pos h

theorem withColumnWord_bad {s : State} {c : Nat} {d : Word} (h : columnWordOk (s.cfg.col c).type d = false)
    (body : Host.Outcome State Fault Refusal) : withColumnWord c d s body = .next (faultState .valueRange s) := by
  simp [withColumnWord, h, raise_eq]

/-! ### The command port (30_encoding.md R70, 70_reset_and_hazards.md R269) -/

/-- The leading words and the rest make up the port. -/
theorem leadingWords_split (p : List HostInput) : (leadingWords p).1.map .word ++ (leadingWords p).2 = p := by
  induction p with
  | nil => rfl
  | cons x p ih =>
    cases x with
    | word w => simpa [leadingWords] using ih
    | reset => rfl

theorem leadingWords_append (ws : List Word) (p : List HostInput) :
    leadingWords (ws.map .word ++ p) = (ws ++ (leadingWords p).1, (leadingWords p).2) := by
  induction ws with
  | nil => rfl
  | cons w ws ih => simp [leadingWords, ih]

theorem leadingWords_words (ws : List Word) : leadingWords (ws.map .word) = (ws, []) := by
  have h := leadingWords_append ws []
  simpa [leadingWords] using h

/-- A command that decodes is not changed by words after it (30_encoding.md R72, R81). -/
theorem decode_append {ncol : Nat} {ws : List Word} {i : Instr} {rest : List Word}
    (h : decode ncol ws = .ok (i, rest)) (more : List Word) : decode ncol (ws ++ more) = .ok (i, rest ++ more) := by
  cases ws with
  | nil => simp [decode] at h
  | cons w ws =>
    simp only [decode, List.cons_append] at h ⊢
    cases ho : headerOpcode w with
    | error r => simp [ho] at h
    | ok op =>
      simp only [ho] at h ⊢
      split at h
      · cases h
      · rename_i hlen
        have hlen' : ¬ (ws ++ more).length < op.operandCount ncol (lField w) := by simp; omega
        rw [if_neg hlen']
        simp only [Except.ok.injEq, Prod.mk.injEq] at h
        rw [List.take_append_of_le_length (by omega), List.drop_append_of_le_length (by omega), h.1, h.2]

/-- A whole command at the head of the port is taken, and the port goes on after it. -/
theorem fetch_run {ncol : Nat} {ws : List Word} {i : Instr} (h : decode ncol ws = .ok (i, [])) (p : List HostInput) :
    fetch ncol (ws.map .word ++ p) = .run i p := by
  unfold fetch
  rw [leadingWords_append]
  simp only [decode_append h, List.nil_append, leadingWords_split]

/-- A reset at the head of the port is taken. -/
theorem fetch_reset (ncol : Nat) (p : List HostInput) : fetch ncol (.reset :: p) = .reset p := rfl

/-- An incomplete command waits, or gives way to a reset presented after its words (log 7). -/
theorem fetch_incomplete {ncol : Nat} {ws : List Word} {r : Reject} (h : decode ncol ws = .error r)
    (hr : r = .noHeader ∨ r = .incomplete) :
    fetch ncol (ws.map .word) = .wait ∧ ∀ p, fetch ncol (ws.map .word ++ .reset :: p) = .reset p := by
  constructor
  · unfold fetch
    rw [leadingWords_words]
    rcases hr with rfl | rfl <;> simp [h, noCommand]
  · intro p
    unfold fetch
    rw [leadingWords_append]
    rcases hr with rfl | rfl <;> simp [leadingWords, h, noCommand]

/-- An illegal header is taken alone (60_exceptions.md R244). -/
theorem fetch_illegal {ncol : Nat} {w : Word} {r : Reject} (h : headerOpcode w = .error r)
    (hr : r ≠ .noHeader ∧ r ≠ .incomplete) (p : List HostInput) : fetch ncol (.word w :: p) = .illegal p := by
  unfold fetch
  simp only [leadingWords, decode, h]
  cases r <;> simp_all

end Sys2Proof.Machine
end

