-- ==== Sys2Proof/Laws/Trie.lean ====
section
/-! SUPPORT. The bounds that the recursions of the string compressor run with are enough: a larger bound gives the same
runs, so the bound stands for no behaviour of its own. -/

namespace Sys2Proof.Machine

variable (cfg : Config)

/-- The descent only adds matched bytes, and no more than there are. -/
theorem descend_len (node len : Nat) (bs : List Byte) :
    len ≤ (descend cfg node len bs).2 ∧ (descend cfg node len bs).2 ≤ len + bs.length := by
  induction bs generalizing node len with
  | nil => simp [descend]
  | cons b bs ih =>
    unfold descend
    cases childFor cfg node b with
    | some j =>
      have h := ih j (len + 1)
      simp only [List.length_cons]
      omega
    | none => simp

/-- `lookup_symbol` matches at least the first character, and nothing past the end of the string (R217). -/
theorem lookupSymbol_len (b : Byte) (bs : List Byte) :
    1 ≤ (lookupSymbol cfg b bs).2 ∧ (lookupSymbol cfg b bs).2 ≤ 1 + bs.length := descend_len cfg _ _ _

/-- The length of the string bounds the number of symbols of a match run (R218). -/
theorem matchRun_bound (k : Nat) (bs : List Byte) (h : bs.length ≤ k) :
    matchRun cfg k bs = matchRun cfg bs.length bs := by
  suffices H : ∀ n k l (bs : List Byte), bs.length ≤ n → bs.length ≤ k → bs.length ≤ l →
      matchRun cfg k bs = matchRun cfg l bs from H bs.length k bs.length bs le_rfl h le_rfl
  intro n
  induction n with
  | zero =>
    intro k l bs hn _ _
    have : bs = [] := List.length_eq_zero_iff.mp (by omega)
    subst this
    cases k <;> cases l <;> rfl
  | succ n ih =>
    intro k l bs hn hk hl
    cases bs with
    | nil => cases k <;> cases l <;> rfl
    | cons b bs =>
      obtain ⟨k, rfl⟩ := Nat.exists_eq_succ_of_ne_zero (show k ≠ 0 by simp at hk; omega)
      obtain ⟨l, rfl⟩ := Nat.exists_eq_succ_of_ne_zero (show l ≠ 0 by simp at hl; omega)
      simp only [List.length_cons, Nat.succ_eq_add_one] at hn hk hl
      simp only [matchRun]
      rw [ih k l _ (by simp; omega) (by simp; omega) (by simp; omega)]

/-- A match run never grows the string. -/
theorem matchRun_rest_length (k : Nat) (bs : List Byte) : (matchRun cfg k bs).2.length ≤ bs.length := by
  induction k generalizing bs with
  | zero => cases bs <;> simp [matchRun]
  | succ k ih =>
    cases bs with
    | nil => simp [matchRun]
    | cons b bs =>
      unfold matchRun
      split
      · exact (ih _).trans (by simp; omega)
      · simp

/-- A literal run splits the string. -/
theorem literalRun_append (bs : List Byte) : (literalRun cfg bs).1 ++ (literalRun cfg bs).2 = bs :=
  List.takeWhile_append_dropWhile

/-- One more than the length of the string bounds the rounds of groups (R220): a round that is not the last takes at least
one literal byte. -/
theorem strRounds_bound (k : Nat) (first : Bool) (bs : List Byte) (s : State) (h : bs.length + 1 ≤ k) :
    strRounds cfg k first bs s = strRounds cfg (bs.length + 1) first bs s := by
  suffices H : ∀ n k l first (bs : List Byte) (s : State), bs.length ≤ n → bs.length + 1 ≤ k → bs.length + 1 ≤ l →
      strRounds cfg k first bs s = strRounds cfg l first bs s from
    H bs.length k (bs.length + 1) first bs s le_rfl h le_rfl
  intro n
  induction n with
  | zero =>
    intro k l first bs s hn hk hl
    have hb : bs = [] := List.length_eq_zero_iff.mp (by omega)
    subst hb
    obtain ⟨k, rfl⟩ := Nat.exists_eq_succ_of_ne_zero (show k ≠ 0 by omega)
    obtain ⟨l, rfl⟩ := Nat.exists_eq_succ_of_ne_zero (show l ≠ 0 by omega)
    simp [strRounds, matchRun, literalRun]
  | succ n ih =>
    intro k l first bs s hn hk hl
    obtain ⟨k, rfl⟩ := Nat.exists_eq_succ_of_ne_zero (show k ≠ 0 by omega)
    obtain ⟨l, rfl⟩ := Nat.exists_eq_succ_of_ne_zero (show l ≠ 0 by omega)
    simp only [Nat.succ_eq_add_one] at hk hl
    simp only [strRounds]
    split
    · rfl
    · split
      · rfl
      · rename_i hlit
        have h1 := matchRun_rest_length cfg bs.length bs
        have h2 := congrArg List.length (literalRun_append cfg (matchRun cfg bs.length bs).2)
        rw [List.length_append] at h2
        exact ih _ _ _ _ _ (by omega) (by omega) (by omega)

end Sys2Proof.Machine
end

