-- ==== Sys2Proof/Laws/WellFormed.lean ====
section
/-! SUPPORT. What each check of `WellFormed.lean` on a configuration says (00_scope.md R8, 47_string_trie.md R224), one lemma
for a check. -/

namespace Sys2Proof.Machine

/-! ### Children and parents -/

theorem hasChild_iff (n : TrieNode) (i : Nat) :
    n.hasChild i = true ↔ n.childIndex ≤ i ∧ i < n.childIndex + n.childCount := by
  simp [TrieNode.hasChild]

theorem trieParent_iff (cfg : Config) (i j : Nat) :
    TrieParent cfg i j ↔ ∃ n, cfg.trie[i]? = some n ∧ n.hasChild j = true := by
  simp only [TrieParent, hasChild_iff]

/-- A parent is a node of the table. -/
theorem trieParent_lt {cfg : Config} {i j : Nat} (h : TrieParent cfg i j) : i < cfg.trie.length := by
  obtain ⟨n, hn, -⟩ := h
  exact (List.getElem?_eq_some_iff.1 hn).1

/-! ### Conditions 1, 2, 3 and 6 -/

theorem firstLevelFits_iff (cfg : Config) :
    cfg.firstLevelFits = true ↔
      1 ≤ cfg.firstLevelCount ∧ cfg.firstLevelCount ≤ cfg.trie.length ∧
        cfg.firstLevelMin.toNat + cfg.firstLevelCount ≤ 256 := by
  simp [Config.firstLevelFits, and_assoc]

theorem firstLevelIndexed_iff (cfg : Config) :
    cfg.firstLevelIndexed = true ↔
      ∀ i < cfg.firstLevelCount, ∃ n, cfg.trie[i]? = some n ∧ n.char.toNat = cfg.firstLevelMin.toNat + i := by
  simp only [Config.firstLevelIndexed, List.all_eq_true, List.mem_range]
  refine forall₂_congr fun i _ => ?_
  cases cfg.trie[i]? <;> simp

theorem childrenInRange_iff (cfg : Config) :
    cfg.childrenInRange = true ↔
      ∀ n ∈ cfg.trie, 0 < n.childCount →
        cfg.firstLevelCount ≤ n.childIndex ∧ n.childIndex + n.childCount ≤ cfg.trie.length := by
  simp only [Config.childrenInRange, List.all_eq_true, Bool.or_eq_true, Bool.and_eq_true, beq_iff_eq, decide_eq_true_eq,
    Nat.pos_iff_ne_zero, or_iff_not_imp_left]

theorem codesFit_iff (cfg : Config) :
    cfg.codesFit = true ↔
      ∀ n ∈ cfg.trie, 1 ≤ n.encodedLength ∧ n.encodedLength ≤ 64 ∧ n.encodedValue < 2 ^ n.encodedLength := by
  simp only [Config.codesFit, List.all_eq_true, Bool.and_eq_true, decide_eq_true_eq, and_assoc]

/-! ### Condition 4 -/

/-- Two ranges of children are disjoint exactly when no index is in both. -/
theorem disjointChildren_iff (m n : TrieNode) :
    m.disjointChildren n = true ↔ ∀ k, ¬ (m.hasChild k = true ∧ n.hasChild k = true) := by
  simp only [TrieNode.disjointChildren, Bool.or_eq_true, beq_iff_eq, decide_eq_true_eq, hasChild_iff]
  constructor
  · intro h k
    omega
  · intro h
    have h1 := h m.childIndex
    have h2 := h n.childIndex
    omega

/-- No two positions of the list share a child. -/
theorem noSharedChild_iff (ns : List TrieNode) :
    noSharedChild ns = true ↔
      ∀ (i j k : Nat) (m n : TrieNode), ns[i]? = some m → ns[j]? = some n → m.hasChild k = true → n.hasChild k = true →
        i = j := by
  induction ns with
  | nil => simp [noSharedChild]
  | cons a ns ih =>
    simp only [noSharedChild, Bool.and_eq_true, List.all_eq_true, disjointChildren_iff, ih]
    constructor
    · rintro ⟨ha, hr⟩ i j k m n hm hn hmk hnk
      cases i with
      | zero =>
        cases j with
        | zero => rfl
        | succ j =>
          simp only [List.getElem?_cons_zero, Option.some.injEq, List.getElem?_cons_succ] at hm hn
          subst hm
          exact absurd ⟨hmk, hnk⟩ (ha n (List.mem_of_getElem? hn) k)
      | succ i =>
        cases j with
        | zero =>
          simp only [List.getElem?_cons_zero, Option.some.injEq, List.getElem?_cons_succ] at hm hn
          subst hn
          exact absurd ⟨hnk, hmk⟩ (ha m (List.mem_of_getElem? hm) k)
        | succ j =>
          simp only [List.getElem?_cons_succ] at hm hn
          rw [hr i j k m n hm hn hmk hnk]
    · intro h
      refine ⟨fun n hn k hk => ?_, fun i j k m n hm hn hmk hnk => ?_⟩
      · obtain ⟨j, hj⟩ := List.mem_iff_getElem?.1 hn
        exact absurd (h 0 (j + 1) k a n rfl hj hk.1 hk.2) (by omega)
      · have := h (i + 1) (j + 1) k m n hm hn hmk hnk
        omega

theorem oneParent_iff (cfg : Config) :
    noSharedChild cfg.trie = true ↔ ∀ i j k, TrieParent cfg i k → TrieParent cfg j k → i = j := by
  simp only [noSharedChild_iff, trieParent_iff]
  constructor
  · rintro h i j k ⟨m, hm, hmk⟩ ⟨n, hn, hnk⟩
    exact h i j k m n hm hn hmk hnk
  · intro h i j k m n hm hn hmk hnk
    exact h i j k ⟨m, hm, hmk⟩ ⟨n, hn, hnk⟩

/-! ### Condition 5 -/

/-- The characters of the children, by position. -/
theorem childChars_getElem? (cfg : Config) (n : TrieNode) (i : Nat) :
    (cfg.childChars n)[i]? = if i < n.childCount then (cfg.trie[n.childIndex + i]?).map (·.char) else none := by
  simp only [Config.childChars, List.getElem?_map, List.getElem?_take, List.getElem?_drop]
  split <;> rfl

theorem siblingsDistinct_iff (cfg : Config) :
    cfg.siblingsDistinct = true ↔
      ∀ i j k m n, TrieParent cfg i j → TrieParent cfg i k → cfg.trie[j]? = some m → cfg.trie[k]? = some n →
        m.char = n.char → j = k := by
  simp only [Config.siblingsDistinct, List.all_eq_true, decide_eq_true_eq]
  constructor
  · rintro h i j k m n ⟨p, hp, hj1, hj2⟩ ⟨q, hq, hk1, hk2⟩ hm hn hc
    obtain rfl : p = q := Option.some.inj (hp.symm.trans hq)
    have hnd := List.nodup_iff_getElem?_ne_getElem?.1 (h p (List.mem_of_getElem? hp))
    have at_ : ∀ x y : Nat, p.childIndex ≤ x → x < p.childIndex + p.childCount →
        (cfg.childChars p)[x - p.childIndex]? = (cfg.trie[x]?).map (·.char) := by
      intro x _ h1 h2
      rw [childChars_getElem?, if_pos (by omega), Nat.add_sub_cancel' h1]
    have ej := at_ j j hj1 hj2
    have ek := at_ k k hk1 hk2
    rw [hm] at ej
    rw [hn] at ek
    have hlen : ∀ {x : Nat} {c : Byte}, (cfg.childChars p)[x]? = some c → x < (cfg.childChars p).length :=
      fun hx => (List.getElem?_eq_some_iff.1 hx).1
    have heq : (cfg.childChars p)[j - p.childIndex]? = (cfg.childChars p)[k - p.childIndex]? := by
      rw [ej, ek, Option.map_some, Option.map_some, hc]
    rcases Nat.lt_trichotomy j k with hlt | rfl | hgt
    · exact absurd heq (hnd _ _ (by omega) (hlen ek))
    · rfl
    · exact absurd heq.symm (hnd _ _ (by omega) (hlen ej))
  · intro h p hp
    obtain ⟨i, hi⟩ := List.mem_iff_getElem?.1 hp
    rw [List.nodup_iff_getElem?_ne_getElem?]
    intro x y hxy hy heq
    have hy' := List.getElem?_eq_getElem hy
    have hx' := heq.trans hy'
    rw [childChars_getElem?] at hx' hy'
    split at hx'
    · split at hy'
      · obtain ⟨m, hm, hmc⟩ := Option.map_eq_some_iff.1 hx'
        obtain ⟨n, hn, hnc⟩ := Option.map_eq_some_iff.1 hy'
        have := h i (p.childIndex + x) (p.childIndex + y) m n ⟨p, hi, by omega, by omega⟩ ⟨p, hi, by omega, by omega⟩ hm hn
          (hmc.trans hnc.symm)
        omega
      · cases hy'
    · cases hx'

/-! ### Condition 7 -/

/-- `parentOf` finds a parent, and finds none only where there is none. -/
theorem parentOf_none (cfg : Config) (j : Nat) : cfg.parentOf j = none ↔ ∀ i, ¬ TrieParent cfg i j := by
  simp only [Config.parentOf, List.findIdx?_eq_none_iff, trieParent_iff]
  constructor
  · rintro h i ⟨n, hn, hc⟩
    simp [h n (List.mem_of_getElem? hn)] at hc
  · intro h n hn
    obtain ⟨i, hi⟩ := List.mem_iff_getElem?.1 hn
    by_contra hc
    exact h i ⟨n, hi, by simpa using hc⟩

theorem parentOf_some {cfg : Config} {i j : Nat} (h : cfg.parentOf j = some i) : TrieParent cfg i j := by
  obtain ⟨hi, hc, -⟩ := List.findIdx?_eq_some_iff_getElem.1 h
  exact (trieParent_iff cfg i j).2 ⟨_, List.getElem?_eq_getElem hi, hc⟩

/-- Where a node has at most one parent, `parentOf` finds it. -/
theorem parentOf_eq {cfg : Config} (h1 : ∀ i j k, TrieParent cfg i k → TrieParent cfg j k → i = j) {i j : Nat}
    (h : TrieParent cfg i j) : cfg.parentOf j = some i := by
  cases hp : cfg.parentOf j with
  | none => exact absurd h ((parentOf_none cfg j).1 hp i)
  | some k => rw [h1 i k j h (parentOf_some hp)]

/-- A node that is its own ancestor is rooted within no number of steps. -/
theorem rootedWithin_cycle {cfg : Config} (h1 : ∀ i j k, TrieParent cfg i k → TrieParent cfg j k → i = j) (k : Nat) :
    ∀ i, Relation.TransGen (TrieParent cfg) i i → cfg.rootedWithin k i = false := by
  induction k with
  | zero => intro i _; rfl
  | succ k ih =>
    intro i hc
    obtain ⟨j, hij, hji⟩ := Relation.TransGen.tail'_iff.1 hc
    simp only [Config.rootedWithin, parentOf_eq h1 hji]
    exact ih j (Relation.TransGen.head' hji hij)

/-- The nodes above a node, nearest first, until `rootedWithin` has used up its steps: they form a chain in the table. -/
theorem rootedWithin_false {cfg : Config} (k : Nat) :
    ∀ i, cfg.rootedWithin k i = false →
      ∃ path : List Nat, path.length = k ∧ List.IsChain (fun a b => TrieParent cfg b a) (i :: path) := by
  induction k with
  | zero => exact fun i _ => ⟨[], rfl, List.isChain_singleton i⟩
  | succ k ih =>
    intro i h
    simp only [Config.rootedWithin] at h
    cases hp : cfg.parentOf i with
    | none => simp [hp] at h
    | some j =>
      simp only [hp] at h
      obtain ⟨path, hl, hc⟩ := ih j h
      exact ⟨j :: path, by simp [hl], List.isChain_cons_cons.2 ⟨parentOf_some hp, hc⟩⟩

/-- Condition 7: every node is rooted within as many steps as there are nodes exactly when none is its own ancestor. -/
theorem acyclic_iff {cfg : Config} (h1 : ∀ i j k, TrieParent cfg i k → TrieParent cfg j k → i = j)
    (h3 : ∀ n ∈ cfg.trie, 0 < n.childCount → n.childIndex + n.childCount ≤ cfg.trie.length) :
    cfg.acyclic = true ↔ ∀ i, ¬ Relation.TransGen (TrieParent cfg) i i := by
  simp only [Config.acyclic, List.all_eq_true, List.mem_range]
  constructor
  · intro h i hc
    obtain ⟨j, -, hji⟩ := Relation.TransGen.tail'_iff.1 hc
    obtain ⟨n, hn, hlo, hhi⟩ := hji
    have hi : i < cfg.trie.length := by
      have := h3 n (List.mem_of_getElem? hn) (by omega)
      omega
    have hf := rootedWithin_cycle h1 cfg.trie.length i hc
    rw [h i hi] at hf
    cases hf
  · intro h i hi
    by_contra hc
    obtain ⟨path, hl, hch⟩ := rootedWithin_false cfg.trie.length i (by simpa using hc)
    have htrans : List.Pairwise (fun a b => Relation.TransGen (TrieParent cfg) b a) (i :: path) :=
      (List.isChain_iff_pairwise (R := fun a b => Relation.TransGen (TrieParent cfg) b a)).1
        (hch.imp fun _ _ hab => .single hab)
    have hnd : (i :: path).Nodup := by
      unfold List.Nodup
      refine htrans.imp fun {a b} hab hne => ?_
      subst hne
      exact h a hab
    have hlt : ∀ x ∈ i :: path, x < cfg.trie.length := by
      intro x hx
      rcases List.mem_cons.1 hx with rfl | hx
      · exact hi
      · obtain ⟨pre, post, rfl⟩ := List.append_of_mem hx
        rw [← List.cons_append] at hch
        have := List.isChain_append.1 hch
        obtain ⟨a, ha⟩ : ∃ a, (i :: pre).getLast? = some a := ⟨_, List.getLast?_eq_some_getLast (by simp)⟩
        exact trieParent_lt (this.2.2 a ha x (by simp))
    have hsub := List.Nodup.length_le_card (α := Fin cfg.trie.length)
      (l := (i :: path).attach.map fun x => ⟨x.1, hlt x.1 x.2⟩)
      (by
        refine List.Nodup.map ?_ (List.nodup_attach.2 hnd)
        intro x y hxy
        exact Subtype.ext (by simpa using hxy))
    simp [hl] at hsub

/-! ### The whole trie -/

theorem trieWf_iff (cfg : Config) : cfg.trieWf = true ↔ TrieConditions cfg := by
  simp only [Config.trieWf, Bool.and_eq_true, firstLevelFits_iff, firstLevelIndexed_iff, childrenInRange_iff, oneParent_iff,
    siblingsDistinct_iff, codesFit_iff]
  constructor
  · rintro ⟨⟨⟨⟨⟨⟨h1, h2⟩, h3⟩, h4⟩, h5⟩, h6⟩, h7⟩
    exact ⟨h1, h2, h3, h4, h5, h6, (acyclic_iff h4 fun n hn hc => (h3 n hn hc).2).1 h7⟩
  · intro h
    exact ⟨⟨⟨⟨⟨⟨h.firstLevelFits, h.firstLevelIndexed⟩, h.childrenInRange⟩, h.oneParent⟩, h.siblingsDistinct⟩, h.codesFit⟩,
      (acyclic_iff h.oneParent fun n hn hc => (h.childrenInRange n hn hc).2).2 h.acyclic⟩

/-! ### The other parameters -/

theorem predKind_wf_iff (k : PredKind) : k.wf = true ↔ ∀ n, k = .sl n → 2 ≤ n ∧ n ≤ 255 := by
  cases k <;> simp [PredKind.wf]

theorem initState_eq (w : ByteWidth) : w.initState = 4 * w.bytes := by cases w <;> rfl

theorem fitsAt_iff (m : MaxStates) (w : ByteWidth) :
    m.fitsAt w = true ↔ 4 * w.bytes ≤ m.at w ∧ m.at w ≤ 4 * (w.bits - 1) := by
  simp only [MaxStates.fitsAt, initState_eq, Nat.shiftLeft_eq, Nat.reducePow, Bool.and_eq_true, decide_eq_true_eq]
  rw [Nat.mul_comm (w.bits - 1)]

theorem l12aInitFits_iff (cfg : Config) :
    cfg.l12aInitFits = true ↔
      (-8 ≤ cfg.l12aInitSel ∧ cfg.l12aInitSel ≤ 7) ∧
        ∀ cc ∈ cfg.cols, cc.kind = .l12a →
          (cc.type.minValue ≤ cfg.l12aInitPrev0 ∧ cfg.l12aInitPrev0 ≤ cc.type.maxValue) ∧
            cc.type.minValue ≤ cfg.l12aInitPrev1 ∧ cfg.l12aInitPrev1 ≤ cc.type.maxValue := by
  simp only [Config.l12aInitFits, Bool.and_eq_true, decide_eq_true_eq, List.all_eq_true]
  refine and_congr_right fun _ => forall₂_congr fun cc _ => ?_
  cases cc.kind <;> simp [ColumnType.holds]

end Sys2Proof.Machine
end

