-- ==== Sys2Proof/Machine/Assembler.lean ====
section
/-! DEFINITION. The assembler text of 30_encoding.md R82 and its pseudo-commands (R83): from the characters of a text to the
commands it stands for. No step calls this file. What R82 leaves open of the text is in log 16. -/

namespace Sys2Proof.Machine

/-! ### Tokens -/

/-- What stands on a line: a word (a mnemonic or a number), a comma, or a quoted string. -/
inductive AsmToken where
  | word (cs : List Char)
  | comma
  | text (bs : List Byte)
  deriving DecidableEq, Repr

/-- Where the reader of a line stands. What it has read of a word or a string is kept newest first. -/
inductive LexMode where
  | between
  | word (cs : List Char)
  | quoted (bs : List Byte)
  | escape (bs : List Byte)
  | hexHigh (bs : List Byte)
  | hexLow (bs : List Byte) (high : Nat)
  | comment
  deriving DecidableEq, Repr

/-- The value of a decimal digit. -/
def decDigit? (c : Char) : Option Nat :=
  if 0x30 ≤ c.toNat ∧ c.toNat ≤ 0x39 then some (c.toNat - 0x30) else none

/-- The value of a hexadecimal digit, of either case. -/
def hexDigit? (c : Char) : Option Nat :=
  if 0x30 ≤ c.toNat ∧ c.toNat ≤ 0x39 then some (c.toNat - 0x30)
  else if 0x41 ≤ c.toNat ∧ c.toNat ≤ 0x46 then some (c.toNat - 0x37)
  else if 0x61 ≤ c.toNat ∧ c.toNat ≤ 0x66 then some (c.toNat - 0x57)
  else none

/-- The characters that separate words: space, tab and carriage return. -/
def isBlank (c : Char) : Bool := c.toNat == 0x20 || c.toNat == 0x09 || c.toNat == 0x0D

/-- One character in a mode: the tokens it ends and the mode after it. A comment starts with a semicolon outside a string, a
string stands between quotes, and its escapes are a backslash before a quote, a backslash, or `x` and two hexadecimal
digits (R82). DESIGN CHOICE, safe (log 16): R82 does not say what parts a mnemonic from its operand; here a quote that
follows a word with nothing between them is malformed, so the string of `STR_COMPRESS` stands after a blank. -/
def lexChar (m : LexMode) (c : Char) : Option (List AsmToken × LexMode) :=
  match m with
  | .between =>
    if isBlank c then some ([], .between)
    else if c.toNat = 0x3B then some ([], .comment)
    else if c.toNat = 0x2C then some ([.comma], .between)
    else if c.toNat = 0x22 then some ([], .quoted [])
    else some ([], .word [c])
  | .word cs =>
    if isBlank c then some ([.word cs.reverse], .between)
    else if c.toNat = 0x3B then some ([.word cs.reverse], .comment)
    else if c.toNat = 0x2C then some ([.word cs.reverse, .comma], .between)
    else if c.toNat = 0x22 then none
    else some ([], .word (c :: cs))
  | .quoted bs =>
    if c.toNat = 0x22 then some ([.text bs.reverse], .between)
    else if c.toNat = 0x5C then some ([], .escape bs)
    else if c.toNat < 0x80 then some ([], .quoted (BitVec.ofNat 8 c.toNat :: bs))
    else none
  | .escape bs =>
    if c.toNat = 0x22 ∨ c.toNat = 0x5C then some ([], .quoted (BitVec.ofNat 8 c.toNat :: bs))
    else if c.toNat = 0x78 then some ([], .hexHigh bs)
    else none
  | .hexHigh bs => (hexDigit? c).map fun h => ([], .hexLow bs h)
  | .hexLow bs h => (hexDigit? c).map fun l => ([], .quoted (BitVec.ofNat 8 (16 * h + l) :: bs))
  | .comment => some ([], .comment)

/-- The tokens of a line; none for an unfinished string or a character that stands where it may not. -/
def lexLine : LexMode → List Char → Option (List AsmToken)
  | .between, [] => some []
  | .word cs, [] => some [.word cs.reverse]
  | .comment, [] => some []
  | .quoted _, [] => none
  | .escape _, [] => none
  | .hexHigh _, [] => none
  | .hexLow _ _, [] => none
  | m, c :: cs =>
    match lexChar m c with
    | some (ts, m') => (lexLine m' cs).map (ts ++ ·)
    | none => none

/-! ### Operands -/

/-- The operands of a line: tokens that are not commas, one comma between each two. -/
def operandTokens : List AsmToken → Option (List AsmToken)
  | [] => some []
  | .comma :: _ => none
  | [t] => some [t]
  | t :: .comma :: u :: ts => (operandTokens (u :: ts)).map (t :: ·)
  | _ :: .comma :: [] => none
  | _ :: .word _ :: _ => none
  | _ :: .text _ :: _ => none

/-- Digits of a base, most significant first, from the value of those before them. -/
def digitsValue (digit? : Char → Option Nat) (base : Nat) : Nat → List Char → Option Nat
  | acc, [] => some acc
  | acc, c :: cs =>
    match digit? c with
    | some d => digitsValue digit? base (acc * base + d) cs
    | none => none

/-- A number without a sign: decimal, or hexadecimal after `0x` (R82). -/
def natNumber : List Char → Option Nat
  | [] => none
  | ['0', 'x'] => none
  | '0' :: 'x' :: cs => digitsValue hexDigit? 16 0 cs
  | cs => digitsValue decDigit? 10 0 cs

/-- A number below a bound. -/
def numberBelow (bound : Nat) : AsmToken → Option Nat
  | .word cs =>
    match natNumber cs with
    | some n => if n < bound then some n else none
    | none => none
  | .comma => none
  | .text _ => none

/-- The operand of the field A (R73). -/
def byteOperand (t : AsmToken) : Option Byte := (numberBelow 256 t).map (BitVec.ofNat 8)

/-- A raw or unsigned operand word (R78). -/
def rawOperand (t : AsmToken) : Option Word := (numberBelow (2 ^ 64) t).map (BitVec.ofNat 64)

/-- The operand word of a value of column c: a negative decimal number, only for a signed column of the block, in two's
complement; any other number as the raw word (R76, R82). Whether the word carries a value of the column's type is for the
command to check. DESIGN CHOICE, safe (log 16): R82 says only "column word of v", and a non-negative v of 2^63 or more has
none in a signed column; taken as the raw word it can carry a negative value, so `0xFFFFFFFFFFFFFFFF` carries −1. -/
def valueOperand (cfg : Config) (c : Nat) (t : AsmToken) : Option Word :=
  match t with
  | .word ('-' :: cs) =>
    if c < cfg.ncol ∧ (cfg.col c).type.signed = true ∧ cs ≠ [] then
      match digitsValue decDigit? 10 0 cs with
      | some n => if n ≤ 2 ^ 63 then some (BitVec.ofInt 64 (-(n : Int))) else none
      | none => none
    else none
  | .word cs => rawOperand (.word cs)
  | .comma => none
  | .text _ => none

/-- The values of a row, from column c on. -/
def rowOperands (cfg : Config) : Nat → List AsmToken → Option (List Word)
  | _, [] => some []
  | c, t :: ts =>
    match valueOperand cfg c t, rowOperands cfg (c + 1) ts with
    | some w, some ws => some (w :: ws)
    | _, _ => none

/-- Bytes packed in words, the last word filled up with zeros (R77). -/
def packBytes (bs : List Byte) : List Word :=
  wordsOfBytes (bs ++ List.replicate (8 * stringWords bs.length - bs.length) 0)

/-! ### Lines -/

/-- The command of a mnemonic and its operands (R82), or of a pseudo-command (R83). DESIGN CHOICE, safe (log 16): R83 does
not say what `BW_BYTE b` is for b above 255, nor `BW_ONES n` for n above 64, where the expansion's operand word does not
hold `2^n − 1`; here both are malformed. -/
def asmCommand (cfg : Config) (mnemonic : String) (ts : List AsmToken) : Option Instr :=
  match mnemonic, ts with
  | "BW_WRITE", [n, d] => (byteOperand n).bind fun n => (rawOperand d).map fun d => .bwWrite n d
  | "BW_WRITE_BIT", [b] => (numberBelow 2 b).map fun b => .bwWriteBit (b == 1)
  | "BW_FLUSH", [] => some .bwFlush
  | "BW_END", [] => some .bwEnd
  | "EG_ENCODE", [n] => (rawOperand n).map .egEncode
  | "AEG_ENCODE", [c, n] => (byteOperand c).bind fun c => (rawOperand n).map fun n => .aegEncode c n
  | "PRED_FEED", [c, v] => (byteOperand c).bind fun c => (valueOperand cfg c.toNat v).map fun v => .predFeed c v
  | "COL_WRITE", [c, v] => (byteOperand c).bind fun c => (valueOperand cfg c.toNat v).map fun v => .colWrite c v
  | "COL_RESET", [c] => (byteOperand c).map .colReset
  | "TAB_WRITE_ROW", vs =>
    match rowOperands cfg 0 vs with
    | some ws => if ws.length = cfg.ncol then some (.tabWriteRow ws) else none
    | none => none
  | "TAB_END_BLOCK", [] => some .tabEndBlock
  | "TAB_CLOSE", [] => some .tabClose
  | "STATUS_READ", [] => some .statusRead
  | "FR_BYTE", [b] => (byteOperand b).map .frByte
  | "FR_START", [] => some .frStart
  | "FR_END", [] => some .frEnd
  | "STR_COMPRESS", [.text bs] =>
    if bs.length < 2 ^ 16 then some (.strCompress (BitVec.ofNat 16 bs.length) (packBytes bs)) else none
  | "BW_ZEROS", [n] => (byteOperand n).map bwZeros
  | "BW_ONES", [n] => (numberBelow 65 n).map fun n => bwOnes (BitVec.ofNat 8 n)
  | "BW_BYTE", [b] => (byteOperand b).map bwByte
  | "END_BIT_STREAM", [] => some endBitStream
  | _, _ => none

/-- What a line of assembler text stands for: at most one command. -/
inductive AsmLine where
  | blank
  | command (i : Instr)
  | malformed
  deriving DecidableEq, Repr

/-- One line (R82). -/
def asmLine (cfg : Config) (line : List Char) : AsmLine :=
  match lexLine .between line with
  | some [] => .blank
  | some (.word m :: ts) =>
    match (operandTokens ts).bind (asmCommand cfg (String.ofList m)) with
    | some i => .command i
    | none => .malformed
  | some (.comma :: _) => .malformed
  | some (.text _ :: _) => .malformed
  | none => .malformed

/-- The lines of a text. -/
def splitLines : List Char → List (List Char)
  | [] => [[]]
  | c :: cs =>
    if c.toNat = 0x0A then [] :: splitLines cs
    else
      match splitLines cs with
      | [] => [[c]]
      | l :: ls => (c :: l) :: ls

/-- The commands of the lines in order; none where a line is malformed. -/
def asmLines (cfg : Config) : List (List Char) → Option (List Instr)
  | [] => some []
  | l :: ls =>
    match asmLine cfg l, asmLines cfg ls with
    | .blank, rest => rest
    | .command i, some is => some (i :: is)
    | .command _, none => none
    | .malformed, _ => none

/-- The commands of a text (R82, R83); their words are those of `encode`. -/
def assemble (cfg : Config) (text : String) : Option (List Instr) := asmLines cfg (splitLines text.toList)

end Sys2Proof.Machine
end

