-- ==== Sys2Proof/Tests/Slice0.lean ====
section
/-! SUPPORT. Tests: words written out from the spec's encoding, ill-formed terms that are refused, vectors of
95_test_vectors.md (each names its row), and for every statement with hypotheses a concrete state and operands that meet
them. Every expected value is the spec's. -/

namespace Sys2Proof.Tests

open Sys2Proof.Machine

/-! ### Decoding: one word sequence for each command, from the fields of 30_encoding.md R71 to R77

A header is written as `RSV ++ L ++ A ++ OP`, each field from the table of R75. -/

theorem test_decode_bwWrite :
    decode 2 [0x00000000#32 ++ 0x0000#16 ++ 0x10#8 ++ 0x01#8, 0x0000000000006C54] = .ok (.bwWrite 16 0x6C54, []) := by
  decide +kernel
theorem test_decode_bwWriteBit :
    decode 2 [0x00000000#32 ++ 0x0000#16 ++ 0x01#8 ++ 0x02#8, 7] = .ok (.bwWriteBit true, [7]) := by decide +kernel
theorem test_decode_bwFlush :
    decode 2 [0x00000000#32 ++ 0x0000#16 ++ 0x00#8 ++ 0x03#8] = .ok (.bwFlush, []) := by decide +kernel
theorem test_decode_bwEnd :
    decode 2 [0x00000000#32 ++ 0x0000#16 ++ 0x00#8 ++ 0x04#8] = .ok (.bwEnd, []) := by decide +kernel
theorem test_decode_egEncode :
    decode 2 [0x00000000#32 ++ 0x0000#16 ++ 0x00#8 ++ 0x08#8, 0xFFFFFFFFFFFFFFFF] = .ok (.egEncode (-1), []) := by
  decide +kernel
theorem test_decode_aegEncode :
    decode 2 [0x00000000#32 ++ 0x0000#16 ++ 0x05#8 ++ 0x0C#8, 9] = .ok (.aegEncode 5 9, []) := by decide +kernel
theorem test_decode_predFeed :
    decode 2 [0x00000000#32 ++ 0x0000#16 ++ 0x01#8 ++ 0x10#8, 9] = .ok (.predFeed 1 9, []) := by decide +kernel
theorem test_decode_colWrite :
    decode 2 [0x00000000#32 ++ 0x0000#16 ++ 0xFF#8 ++ 0x14#8, 9] = .ok (.colWrite 255 9, []) := by decide +kernel
theorem test_decode_colReset :
    decode 2 [0x00000000#32 ++ 0x0000#16 ++ 0x01#8 ++ 0x15#8] = .ok (.colReset 1, []) := by decide +kernel
theorem test_decode_tabWriteRow :
    decode 2 [0x00000000#32 ++ 0x0000#16 ++ 0x00#8 ++ 0x18#8, 3, 4, 5] = .ok (.tabWriteRow [3, 4], [5]) := by
  decide +kernel
theorem test_decode_tabEndBlock :
    decode 2 [0x00000000#32 ++ 0x0000#16 ++ 0x00#8 ++ 0x19#8] = .ok (.tabEndBlock, []) := by decide +kernel
theorem test_decode_tabClose :
    decode 2 [0x00000000#32 ++ 0x0000#16 ++ 0x00#8 ++ 0x1A#8] = .ok (.tabClose, []) := by decide +kernel
theorem test_decode_statusRead :
    decode 2 [0x00000000#32 ++ 0x0000#16 ++ 0x00#8 ++ 0x1B#8] = .ok (.statusRead, []) := by decide +kernel
theorem test_decode_frByte :
    decode 2 [0x00000000#32 ++ 0x0000#16 ++ 0x54#8 ++ 0x20#8] = .ok (.frByte 0x54, []) := by decide +kernel
theorem test_decode_frStart :
    decode 2 [0x00000000#32 ++ 0x0000#16 ++ 0x00#8 ++ 0x21#8] = .ok (.frStart, []) := by decide +kernel
theorem test_decode_frEnd :
    decode 2 [0x00000000#32 ++ 0x0000#16 ++ 0x00#8 ++ 0x22#8] = .ok (.frEnd, []) := by decide +kernel
/-- Nine bytes take two words; the second holds byte 8 in its lowest byte (R77). -/
theorem test_decode_strCompress :
    decode 2 [0x00000000#32 ++ 0x0009#16 ++ 0x00#8 ++ 0x28#8, 0x6867666564636261, 0x69] =
      .ok (.strCompress 9 [0x6867666564636261, 0x69], []) ∧
    stringBytes 9 [0x6867666564636261, 0x69] = [0x61, 0x62, 0x63, 0x64, 0x65, 0x66, 0x67, 0x68, 0x69] := by
  decide +kernel

/-- R80: an unassigned OP (also 0x00 and 0xF0), a nonzero RSV, L or A bit that the opcode does not use, and bits of A above
A[0] for BW_WRITE_BIT, are illegal. -/
theorem test_decode_illegal :
    decode 2 [0] = .error .undefinedOpcode ∧ decode 2 [0xF0] = .error .undefinedOpcode ∧
      decode 2 [0x0000000100000003] = .error .reservedBits ∧ decode 2 [0x8000000000000028] = .error .reservedBits ∧
      decode 2 [0x0000000000010003] = .error .lengthBits ∧ decode 2 [0x0000000000000103] = .error .operandBits ∧
      decode 2 [0x0000000000000202] = .error .operandBits := by decide +kernel

/-- R72, R269: too few words are no command yet. -/
theorem test_decode_incomplete :
    decode 2 [] = .error .noHeader ∧ decode 2 [0x0000000000000018, 3] = .error .incomplete := by decide +kernel

/-- The words of program P7's first row and of its string command's header, from 95_test_vectors.md and R84. -/
theorem test_encode :
    encode (.colWrite 1 (-1)) = [0x0000000000000114, 0xFFFFFFFFFFFFFFFF] ∧
      encode (.strCompress 5 [0x0000006261636261]) = [0x0000000000050028, 0x0000006261636261] ∧
      encode (.bwWriteBit true) = [0x0000000000000102] := by decide +kernel

/-- The numbering of spec/opcode_table.json: the first operand word is bits 127 to 64. -/
theorem test_decodeTableWord :
    decodeTableWord 128 (5 * 2 ^ 64 + 0x0301) = some (.bwWrite 3 5) ∧ decodeTableWord 64 0x0301 = some (.bwWrite 3 0) ∧
      decodeTableWord 64 0x18 = some (.tabWriteRow [0, 0]) ∧ decodeTableWord 64 0 = none := by decide +kernel

/-- 20_memory.md R55: a word stored as bytes has its least significant byte first. -/
theorem test_bytes_of_word : bytesOfWords [0x0123456789ABCDEF] = [0xEF, 0xCD, 0xAB, 0x89, 0x67, 0x45, 0x23, 0x01] := by
  decide +kernel

/-- R82, R83: lines of assembler text, a comment, an escape, and texts that are refused. -/
theorem test_assemble :
    assemble Config.example "BW_WRITE 3, 0x5 ; five\n\nCOL_WRITE 1, -1\nSTR_COMPRESS \"abcab\"\nBW_ONES 3" =
      some [.bwWrite 3 5, .colWrite 1 (-1), .strCompress 5 [0x0000006261636261], .bwWrite 3 7] ∧
    assemble Config.example "STR_COMPRESS \"\\x80\\\"\\\\\"" = some [.strCompress 3 [0x5C2280]] ∧
    assemble Config.example "COL_WRITE 0, -1" = none ∧ assemble Config.example "BW_FLUSH 1" = none := by
  decide +kernel

/-! ### WellFormed refuses ill-formed terms -/

/-- R72: a row with another number of words than NCOL, and a string with too few or too many words. -/
theorem test_wf_instr :
    Instr.wf 2 (.tabWriteRow [1]) = false ∧ Instr.wf 2 (.tabWriteRow [1, 2]) = true ∧
      Instr.wf 2 (.strCompress 8 []) = false ∧ Instr.wf 2 (.strCompress 8 [1]) = true ∧
      Instr.wf 2 (.strCompress 8 [1, 2]) = false ∧ Instr.wf 2 (.strCompress 9 [1, 2]) = true := by decide

theorem test_wf_example : Config.example.wf = true := by decide +kernel

/-- R7, R8: more than 256 columns; 256 are allowed. -/
theorem test_wf_columns :
    { Config.example with cols := List.replicate 257 ⟨⟨false, .one⟩, .l12a, []⟩ }.wf = false ∧
      { Config.example with cols := List.replicate 256 ⟨⟨false, .one⟩, .l12a, []⟩ }.wf = true := by decide +kernel

/-- R7, R8: N of SL(N) below 2 and above 255. -/
theorem test_wf_kind :
    { Config.example with cols := [⟨⟨false, .one⟩, .sl 1, []⟩] }.wf = false ∧
      { Config.example with cols := [⟨⟨false, .one⟩, .sl 256, []⟩] }.wf = false ∧
      { Config.example with cols := [⟨⟨false, .one⟩, .sl 255, []⟩] }.wf = true := by decide +kernel

/-- R8: initial values of L12A out of a column's range, and a selector outside −8..7. -/
theorem test_wf_l12aInit :
    { Config.example with l12aInitPrev0 := 32768 }.wf = false ∧ { Config.example with l12aInitPrev1 := -32769 }.wf = false ∧
      { Config.example with l12aInitSel := 8 }.wf = false ∧ { Config.example with l12aInitSel := -9 }.wf = false ∧
      { Config.example with l12aInitPrev0 := -32768, l12aInitPrev1 := 32767, l12aInitSel := -8 }.wf = true := by
  decide +kernel

/-- R8: a name of more than 65535 bytes. -/
theorem test_wf_name (name : List Byte) (h : 65535 < name.length) :
    { Config.example with cols := [⟨⟨false, .one⟩, .l12a, name⟩] }.wf = false := by
  have h' : ¬ name.length ≤ 65535 := by omega
  simp [Config.wf, h']

/-- R8: FORMAT_VERSION + 1 does not fit 64 bits. -/
theorem test_wf_version :
    { Config.example with formatVersion := 2 ^ 64 - 1 }.wf = false ∧
      { Config.example with formatVersion := 2 ^ 64 - 2 }.wf = true := by decide +kernel

/-- R7: MAX_STATE below INIT_STATE and above (W − 1) << 2, at the least and the greatest width. -/
theorem test_wf_maxState :
    { Config.example with maxState := ⟨3, 60, 124, 252⟩ }.wf = false ∧
      { Config.example with maxState := ⟨29, 60, 124, 252⟩ }.wf = false ∧
      { Config.example with maxState := ⟨28, 60, 124, 253⟩ }.wf = false ∧
      { Config.example with maxState := ⟨4, 8, 16, 32⟩ }.wf = true := by decide +kernel

/-- 47_string_trie.md R224, conditions 1 to 7 in order, one ill-formed trie for each. -/
theorem test_wf_trie :
    { Config.example with firstLevelCount := 0 }.wf = false ∧
      { Config.example with firstLevelMin := 0x62 }.wf = false ∧
      { Config.example with trie := [⟨0x61, 0, 1, 1, 0⟩], firstLevelCount := 1 }.childrenInRange = false ∧
      noSharedChild [⟨0x61, 2, 1, 1, 0⟩, ⟨0x62, 2, 1, 1, 0⟩, ⟨0x61, 0, 0, 1, 0⟩] = false ∧
      { Config.example with trie := [⟨0x61, 1, 2, 1, 0⟩, ⟨0x62, 0, 0, 1, 0⟩, ⟨0x62, 0, 0, 1, 0⟩],
                            firstLevelCount := 1 }.siblingsDistinct = false ∧
      { Config.example with trie := [⟨0x61, 0, 0, 3, 8⟩], firstLevelCount := 1 }.codesFit = false ∧
      { Config.example with trie := [⟨0x61, 0, 0, 1, 0⟩, ⟨0x61, 2, 1, 1, 0⟩, ⟨0x61, 1, 1, 1, 0⟩],
                            firstLevelCount := 1 }.acyclic = false := by decide +kernel

/-! ### One-step vectors of 95_test_vectors.md -/

/-- The state of a block with these columns and otherwise the parameters that 95_test_vectors.md assumes. -/
def fresh (cols : List ColumnConfig) : State := State.resetWith { Config.example with cols := cols, formatVersion := 0 }

def int8 (k : PredKind) : ColumnConfig := ⟨⟨true, .one⟩, k, []⟩
def uint8 (k : PredKind) : ColumnConfig := ⟨⟨false, .one⟩, k, []⟩

/-- OUT, the buffer and its fill after one command. -/
def streamAfter (i : Instr) (s : State) : Option (List Byte × BitVec 8 × BitVec 3) :=
  match exec i s with
  | .next t => some (t.out, t.bwBuffer, t.bwUsed)
  | .fault _ => none
  | .refused _ => none

/-- The response of one command. -/
def responseOf (i : Instr) (s : State) : Option Response :=
  match exec i s with
  | .next t => t.responses.getLast?
  | .fault _ => none
  | .refused _ => none

/-- The column units after one command. -/
def colsAfter (i : Instr) (s : State) : Option (List ColUnit) :=
  match exec i s with
  | .next t => some t.cols
  | .fault _ => none
  | .refused _ => none

/-- BW-7 and BW-12: a 64-bit field, and a field whose bytes are escaped. -/
theorem test_bwWrite :
    streamAfter (.bwWrite 64 0x0123456789ABCDEF) (fresh []) = some ([0xEF, 0xCD, 0xAB, 0x89, 0x67, 0x45, 0x23, 0x01], 0, 0) ∧
      streamAfter (.bwWrite 16 0x6C54) (fresh []) = some ([0x54, 0x20, 0x6C], 0, 0) := by decide +kernel
/-- BW-15. -/
theorem test_bwWrite_range : responseOf (.bwWrite 65 0) (fresh []) = some ⟨false, .bitcountRange, 0⟩ := by decide +kernel
/-- BW-14: the eighth bit completes the byte. -/
theorem test_bwWriteBit :
    streamAfter (.bwWriteBit true) { fresh [] with bwBuffer := 0x7F, bwUsed := 7 } = some ([0xFF], 0, 0) := by decide +kernel
/-- BW-2 and BW-11: the second flush emits nothing. -/
theorem test_bwFlush :
    streamAfter .bwFlush { fresh [] with bwBuffer := 5, bwUsed := 3 } = some ([0x05], 0, 0) ∧
      streamAfter .bwFlush (fresh []) = some ([], 0, 0) := by decide +kernel
/-- BW-3, BW-4 and BW-6. -/
theorem test_bwEnd :
    streamAfter .bwEnd { fresh [] with bwBuffer := 5, bwUsed := 3 } = some ([0x0D], 0, 0) ∧
      streamAfter .bwEnd (fresh []) = some ([0x01], 0, 0) ∧
      streamAfter .bwEnd { fresh [] with bwUsed := 7 } = some ([0x80], 0, 0) := by decide +kernel
/-- The table of 2.2: the code of 6 is `00111`, and that of 2^64 − 1 is 64 zeros, a 1, 64 zeros. -/
theorem test_egEncode :
    streamAfter (.egEncode 6) (fresh []) = some ([], 0x1C, 5) ∧
      streamAfter (.egEncode 0xFFFFFFFFFFFFFFFF) (fresh []) =
        some ([0, 0, 0, 0, 0, 0, 0, 0, 1, 0, 0, 0, 0, 0, 0, 0], 0, 1) := by decide +kernel
/-- AEG-5: `011` `1`, and the state goes from 4 to 5. -/
theorem test_aegEncode :
    streamAfter (.aegEncode 0 5) (fresh [uint8 .l12a]) = some ([], 0x0E, 4) ∧
      colsAfter (.aegEncode 0 5) (fresh [uint8 .l12a]) = some [⟨5, .l12a 0 0 0⟩] := by decide +kernel
/-- AEG-17 and AEG-18. -/
theorem test_aegEncode_range :
    responseOf (.aegEncode 0 256) (fresh [uint8 .l12a]) = some ⟨false, .valueRange, 0⟩ ∧
      responseOf (.aegEncode 1 0) (fresh [uint8 .l12a]) = some ⟨false, .columnRange, 0⟩ := by decide +kernel
/-- SL-2, last step: −5 + trunc(−5/2) = −7, as a column word. -/
theorem test_predFeed_sl :
    responseOf (.predFeed 0 0) { fresh [int8 (.sl 3)] with cols := [⟨4, .sl [0, 3, -5]⟩] } =
        some ⟨true, .none, 0xFFFFFFFFFFFFFFF9⟩ ∧
      colsAfter (.predFeed 0 0) { fresh [int8 (.sl 3)] with cols := [⟨4, .sl [0, 3, -5]⟩] } =
        some [⟨4, .sl [3, -5, 0]⟩] := by decide +kernel
/-- L12-6: model (b) wraps to 126. -/
theorem test_predFeed_l12a :
    responseOf (.predFeed 0 0) { fresh [int8 .l12a] with cols := [⟨4, .l12a (-128) 127 (-1)⟩] } =
        some ⟨true, .none, 126⟩ ∧
      colsAfter (.predFeed 0 0) { fresh [int8 .l12a] with cols := [⟨4, .l12a (-128) 127 (-1)⟩] } =
        some [⟨4, .l12a 127 0 (-2)⟩] := by decide +kernel
/-- COL-2: miss, prediction high, AEG(0) at k = 1. -/
theorem test_colWrite :
    streamAfter (.colWrite 0 (-1)) (fresh [int8 (.sl 2)]) = some ([], 0x06, 4) ∧
      colsAfter (.colWrite 0 (-1)) (fresh [int8 (.sl 2)]) = some [⟨3, .sl [-1]⟩] := by decide +kernel
/-- CW-1 and CW-7. -/
theorem test_colWrite_range :
    responseOf (.colWrite 0 0x80) (fresh [int8 (.sl 2)]) = some ⟨false, .valueRange, 0⟩ ∧
      responseOf (.colWrite 2 0x12345) (fresh [int8 (.sl 2), int8 (.sl 2)]) = some ⟨false, .columnRange, 0⟩ := by
  decide +kernel
/-- 2.6, last paragraph. -/
theorem test_colReset :
    colsAfter (.colReset 0) { fresh [int8 (.sl 2)] with cols := [⟨3, .sl [-1]⟩] } = some [⟨4, .sl []⟩] := by decide +kernel
/-- TAB-7: a row of no columns opens a block. -/
theorem test_tabWriteRow : streamAfter (.tabWriteRow []) (fresh []) = some ([0x54, 0x6C], 0x0A, 4) := by decide +kernel
/-- TAB-1 and TAB-5. -/
theorem test_tabEndBlock :
    streamAfter .tabEndBlock (fresh []) = some ([0x54, 0x6C, 0x1A, 0x54, 0x23], 0, 0) ∧
      streamAfter .tabEndBlock (fresh [⟨⟨true, .two⟩, .l12a, []⟩]) =
        some ([0x54, 0x6C, 0xD2, 0x0B, 0x54, 0x23], 0, 0) := by decide +kernel
/-- TAB-13: a name through the trie. -/
theorem test_tabEndBlock_name :
    streamAfter .tabEndBlock (fresh [⟨⟨true, .one⟩, .l12a, [0x61, 0x62]⟩]) =
      some ([0x54, 0x6C, 0x92, 0x36, 0x01, 0x54, 0x23], 0, 0) := by decide +kernel
/-- TAB-8: closing an open block; TAB-10: closing outside one drops the pending bits. -/
theorem test_tabClose :
    streamAfter .tabClose { fresh [] with block := .inBlock, out := [0x54, 0x6C], bwBuffer := 0x0A, bwUsed := 4 } =
        some ([0x54, 0x6C, 0x1A, 0x54, 0x23], 0, 0) ∧
      streamAfter .tabClose { fresh [] with bwBuffer := 5, bwUsed := 3 } = some ([], 0, 0) := by decide +kernel
/-- ST-2, and ST-5 as the state its header leaves. -/
theorem test_statusRead :
    responseOf .statusRead { fresh [uint8 .l12a, uint8 .l12a] with bwBuffer := 5, bwUsed := 3 } =
        some ⟨true, .none, 0x0000000002050003⟩ ∧
      responseOf .statusRead { fresh [uint8 .l12a, uint8 .l12a] with faulted := true, faultCode := .illegalCommand } =
        some ⟨true, .none, 0x0000000002000140⟩ := by decide +kernel
/-- FR-1, its second command, and FR-9. -/
theorem test_frByte :
    streamAfter (.frByte 0x6C) { fresh [] with out := [0x54], hadEscape := true } = some ([0x54, 0x20, 0x6C], 0, 0) ∧
      streamAfter (.frByte 0x6C) (fresh []) = some ([0x6C], 0, 0) := by decide +kernel
/-- FR-6, its second command: no doubling before a marker. -/
theorem test_frStart :
    streamAfter .frStart { fresh [] with out := [0x54], hadEscape := true } = some ([0x54, 0x54, 0x6C], 0, 0) := by
  decide +kernel
/-- FR-8. -/
theorem test_frEnd : streamAfter .frEnd (fresh []) = some ([0x54, 0x23], 0, 0) := by decide +kernel
/-- STR-5, `011` `001` `110` `1`, and STR-14, `1` `010` `00011110` `010` `000` `1`. -/
theorem test_strCompress :
    streamAfter (.strCompress 5 [0x0000006261636261]) (fresh []) = some ([0xE6], 2, 2) ∧
      streamAfter (.strCompress 2 [0x0000000000006178]) (fresh []) = some ([0x85, 0x27], 4, 3) := by decide +kernel
/-- STR-15: a nonzero padding byte. -/
theorem test_strCompress_padding :
    responseOf (.strCompress 1 [0x0000000000000161]) (fresh []) = some ⟨false, .illegalCommand, 0⟩ := by decide +kernel
/-- The step of a word placed at the port runs its command: BW-3's last command from reset is `01`. -/
theorem test_step_runs_placed_word :
    (match step (State.reset.withFetchWord 64 0x04) with
      | .next t => some (t.out, t.port)
      | .fault _ => none
      | .refused _ => none) = some ([0x01], []) := by decide +kernel

/-! ### The hypotheses of the statements are met

For each statement of Obligations.lean with hypotheses, a theorem `test_meets_<statement>` shows a concrete state and
operands that meet them together; where a statement has several clauses, one case for each, at boundary values. -/

/-- The invariants of `State.Inv` as one check. -/
def invCheck (s : State) : Bool :=
  s.cfg.wf && decide (s.bwBuffer.toNat < 2 ^ s.bwUsed.toNat) && (!s.hadEscape || s.out.getLast? == some escByte) &&
    (!s.closed || s.block == .noBlock) && ((s.faultCode == .none) == !s.faulted) && s.faultCode != .refused &&
    unitsFit s.cfg s.cfg.cols s.cols

theorem inv_of_check {s : State} (h : invCheck s = true) : s.Inv := by
  simp only [invCheck, Bool.and_eq_true, decide_eq_true_eq] at h
  obtain ⟨⟨⟨⟨⟨⟨h1, h2⟩, h3⟩, h4⟩, h5⟩, h6⟩, h7⟩ := h
  refine ⟨h1, h2, fun he => by simpa [he] using h3, fun hc => by simpa [hc] using h4, ?_, by simpa using h6, h7⟩
  cases hf : s.faulted <;> cases hcode : s.faultCode <;> simp [hf, hcode] at h5 ⊢

/-- The outcome is a next state that passes a check. -/
def nextWith (o : Host.Outcome State Fault Refusal) (p : State → Bool) : Bool :=
  match o with
  | .next t => p t
  | .fault _ => false
  | .refused _ => false

theorem exists_nextWith {o : Host.Outcome State Fault Refusal} {p : State → Bool} (h : nextWith o p = true) :
    ∃ t, o = .next t ∧ p t = true := by
  cases o with
  | next t => exact ⟨t, rfl, h⟩
  | fault f => cases h
  | refused r => cases h

theorem exists_next {o : Host.Outcome State Fault Refusal} (h : nextWith o (fun _ => true) = true) :
    ∃ t, o = .next t := (exists_nextWith h).imp fun _ h => h.1

theorem exists_response {o : Host.Outcome State Fault Refusal} {rs : List Response}
    (h : nextWith o (fun t => t.responses == rs) = true) : ∃ t, o = .next t ∧ t.responses = rs :=
  (exists_nextWith h).imp fun _ h => ⟨h.1, by simpa using h.2⟩

/-- A state in the middle of a run: column 0 is uint8 SL(2) with a full history, column 1 int16 L12A with a negative
selector, three bits pending, and OUT ends in ESC. -/
def base : State :=
  { State.resetWith Config.example with
    bwBuffer := 5
    bwUsed := 3
    hadEscape := true
    out := [0x41, 0x54]
    cols := [⟨4, .sl [1, 4]⟩, ⟨8, .l12a 3 6 (-1)⟩] }

/-- The same inside a block. -/
def inside : State := { base with block := .inBlock }

/-- The same with seven bits pending. -/
def seven : State := { base with bwBuffer := 0x7F, bwUsed := 7 }

theorem base_inv : base.Inv := inv_of_check (by decide +kernel)
theorem inside_inv : inside.Inv := inv_of_check (by decide +kernel)
theorem base_ready : Ready base := ⟨rfl, rfl⟩
theorem inside_ready : Ready inside := ⟨rfl, rfl⟩
theorem base_clean : BufferClean base := base_inv.buffer
theorem seven_clean : BufferClean seven := by unfold BufferClean; decide

theorem test_meets_DecodeInvertsEncode :
    Instr.wf 2 (.tabWriteRow [1, 2]) = true ∧ Instr.wf 2 (.strCompress 9 [1, 2]) = true := by decide
theorem test_meets_EncodeInvertsDecode : decode 2 [0x18, 3, 4, 5] = .ok (.tabWriteRow [3, 4], [5]) := by decide +kernel

theorem test_meets_StepRunsDecodedCommand :
    base.cfg.wf = true ∧ decode base.cfg.ncol [0x18, 3, 4] = .ok (.tabWriteRow [3, 4], []) ∧
      ({ base with port := [.word 0x18, .word 3, .word 4, .reset] } : State).port =
        [0x18, 3, 4].map .word ++ [.reset] := by decide +kernel

/-- An unassigned opcode, one with a nonzero RSV, and one with a nonzero A, with the fault flag clear and set. -/
theorem test_meets_IllegalHeaderFaults :
    base.cfg.wf = true ∧
      (∀ op : Opcode, (0xF0 : Word) &&& op.headerMask ≠ op.headerMatch) ∧
      (∀ op : Opcode, (0x0000000100000003 : Word) &&& op.headerMask ≠ op.headerMatch) ∧
      (∀ op : Opcode, (0x0000000000000202 : Word) &&& op.headerMask ≠ op.headerMatch) ∧
      ({ base with port := [.word 0xF0] } : State).port = .word 0xF0 :: [] ∧
      ({ base with faulted := true, port := [.word 0xF0] } : State).port = .word 0xF0 :: [] := by
  refine ⟨by decide +kernel, ?_, ?_, ?_, rfl, rfl⟩ <;> intro op <;> cases op <;> decide

/-- No header, and a row header with one word too few. -/
theorem test_meets_IncompleteCommandWaits :
    base.cfg.wf = true ∧ base.port = ([] : List Word).map .word ∧ commandIncomplete base.cfg.ncol [] ∧
      ({ base with port := [.word 0x18, .word 3] } : State).port = [0x18, 3].map .word ∧
      commandIncomplete base.cfg.ncol [0x18, 3] :=
  ⟨by decide +kernel, rfl, .inl rfl, rfl, .inr ⟨0x18, [3], .tabWriteRow, rfl, by decide +kernel, by decide +kernel⟩⟩

theorem test_meets_ResetDropsIncompleteCommand :
    base.cfg.wf = true ∧
      ({ base with port := [.word 0x18, .word 3, .reset] } : State).port = [0x18, 3].map .word ++ .reset :: [] ∧
      commandIncomplete base.cfg.ncol [0x18, 3] :=
  ⟨by decide +kernel, rfl, .inr ⟨0x18, [3], .tabWriteRow, rfl, by decide +kernel, by decide +kernel⟩⟩

/-- With nothing after the reset, and with a word after it. -/
theorem test_meets_ResetWritesEveryRegister :
    base.cfg.wf = true ∧ ({ base with port := [.reset] } : State).port = .reset :: [] ∧
      ({ base with port := [.reset, .word 3] } : State).port = .reset :: [.word 3] := by decide +kernel

theorem test_meets_OnlyIllFormedConfigurationStops :
    base.cfg.wf = true ∧ ({ base with cfg := { base.cfg with l12aInitSel := 8 } } : State).cfg.wf = false := by
  decide +kernel

/-- Two states that differ in every register take the same command from the port. -/
theorem test_meets_NextCommandStartIgnoresState :
    ({ base with port := [.word 0x04, .reset] } : State).port =
        ({ State.reset with faulted := true, faultCode := .afterClose, port := [.word 0x04, .reset] } : State).port ∧
      base.cfg.ncol = State.reset.cfg.ncol ∧ (∃ t₁, step { base with port := [.word 0x04, .reset] } = .next t₁) ∧
      ∃ t₂, step { State.reset with faulted := true, faultCode := .afterClose, port := [.word 0x04, .reset] } = .next t₂ :=
  ⟨rfl, rfl, exists_next (by decide +kernel), exists_next (by decide +kernel)⟩

theorem test_meets_FaultedBlockRefuses :
    ({ base with faulted := true, faultCode := .valueRange } : State).faulted = true ∧ Instr.bwEnd ≠ .statusRead := by
  decide
theorem test_meets_ClosedBlockFaults :
    ({ base with closed := true } : State).faulted = false ∧ ({ base with closed := true } : State).closed = true ∧
      Instr.bwEnd ≠ .statusRead := by decide

/-- A refused command and a faulting one. -/
theorem test_meets_FailedCommandHasNoOtherEffect :
    (∃ t, exec .bwEnd { base with faulted := true, faultCode := .valueRange } = .next t ∧
        t.responses = base.responses ++ [⟨false, .refused, 0⟩]) ∧
      ∃ t, exec (.bwWrite 65 0) base = .next t ∧ t.responses = base.responses ++ [⟨false, .bitcountRange, 0⟩] :=
  ⟨exists_response (by decide +kernel), exists_response (by decide +kernel)⟩

/-- A faulted block and a closed one, each with a command at the port and no reset. -/
theorem test_meets_StickyFlagsUntilReset :
    (HostInput.reset ∉ [HostInput.word 0x04] ∧
        ∃ t, step { base with faulted := true, faultCode := .valueRange, port := [.word 0x04] } = .next t) ∧
      ∃ t, step { base with closed := true, port := [.word 0x04] } = .next t :=
  ⟨⟨by decide, exists_next (by decide +kernel)⟩, exists_next (by decide +kernel)⟩

/-- The least column index that is too high, the greatest, and the least bit count that is too high. -/
theorem test_meets_ColumnIndexAndBitCountFault :
    Ready base ∧ base.cfg.ncol ≤ (2 : Byte).toNat ∧ base.cfg.ncol ≤ (255 : Byte).toNat ∧ 64 < (65 : Byte).toNat :=
  ⟨base_ready, by decide, by decide, by decide⟩

theorem uint8_256 (v : Int) : ¬ Carries ⟨false, .one⟩ 256 v := by
  rintro ⟨h1, h2⟩
  have h3 := congrArg BitVec.toInt h2
  simp [ColumnType.holds, ColumnType.minValue, ColumnType.maxValue, ColumnType.bits, ByteWidth.bits] at h1
  simp [Int.bmod] at h3
  omega

theorem int16_8000 (v : Int) : ¬ Carries ⟨true, .two⟩ 0x8000 v := by
  rintro ⟨h1, h2⟩
  have h3 := congrArg BitVec.toInt h2
  simp [ColumnType.holds, ColumnType.minValue, ColumnType.maxValue, ColumnType.bits, ByteWidth.bits] at h1
  simp [Int.bmod] at h3
  omega

/-- The least n that is too high for column 0, the least words that carry no value of columns 0 and 1, and a row in which
only the last word carries none. -/
theorem test_meets_ValueRangeFaults :
    Ready base ∧ (0 : Byte).toNat < base.cfg.ncol ∧ 2 ^ (base.cfg.col 0).type.bits ≤ (256 : Word).toNat ∧
      (∀ v, ¬ Carries (base.cfg.col 0).type 256 v) ∧ (1 : Byte).toNat < base.cfg.ncol ∧
      (∀ v, ¬ Carries (base.cfg.col 1).type 0x8000 v) ∧ ([7, 0x8000] : List Word).length = base.cfg.ncol ∧
      (∀ v, ¬ Carries (base.cfg.col 1).type (([7, 0x8000] : List Word).getD 1 0) v) :=
  ⟨base_ready, by decide, by decide, uint8_256, by decide, int16_8000, by decide, int16_8000⟩

/-- The first byte past the string, and the last one of its word. -/
theorem test_meets_StringPaddingFaults :
    Ready base ∧ ([0x0161] : List Word).length = stringWords (1 : BitVec 16).toNat ∧ (1 : BitVec 16).toNat ≤ 1 ∧
      packedByte [0x0161] 1 ≠ 0 ∧ 7 < 8 * ([0x8000000000000061] : List Word).length ∧
      packedByte [0x8000000000000061] 7 ≠ 0 :=
  ⟨base_ready, by decide +kernel⟩

theorem test_meets_BwWriteAppendsField :
    Ready base ∧ BufferClean base ∧ (0 : Byte).toNat ≤ 64 ∧ (64 : Byte).toNat ≤ 64 :=
  ⟨base_ready, base_clean, by decide, by decide⟩
theorem test_meets_BwWriteBitAppendsBit : Ready seven ∧ BufferClean seven ∧ seven.bwUsed = 7 :=
  ⟨⟨rfl, rfl⟩, seven_clean, rfl⟩
theorem test_meets_BwFlushEmitsPartialByte :
    Ready base ∧ BufferClean base ∧ base.bwUsed ≠ 0 ∧ Ready State.reset ∧ BufferClean State.reset ∧
      State.reset.bwUsed = 0 :=
  ⟨base_ready, base_clean, by decide, ⟨rfl, rfl⟩, by unfold BufferClean; decide, rfl⟩
theorem test_meets_BwEndEmitsOneByte : Ready seven ∧ BufferClean seven := ⟨⟨rfl, rfl⟩, seven_clean⟩
theorem test_meets_FieldsReadBackFromStream :
    Ready base ∧ BufferClean base ∧ ∀ f ∈ ([(0, 5), (64, 9), (3, 1)] : List (Byte × Word)), f.1.toNat ≤ 64 :=
  ⟨base_ready, base_clean, by simp⟩
theorem test_meets_EgEncodeAppendsCode : Ready base ∧ BufferClean base := ⟨base_ready, base_clean⟩
/-- The ends of the ranges of R121. -/
theorem test_meets_EliasGammaLength :
    (egBits 1).length = 3 ∧ (egBits 2).length = 3 ∧ (egBits 3).length = 5 ∧ (egBits 6).length = 5 ∧
      (egBits 7).length = 7 ∧ (egBits 14).length = 7 := by decide +kernel

/-- The least and the greatest operand of column 0. -/
theorem test_meets_AegEncodeAppendsCodeAndAdapts :
    base.Inv ∧ Ready base ∧ base.cols[(0 : Byte).toNat]? = some ⟨4, .sl [1, 4]⟩ ∧
      (0 : Word).toNat < 2 ^ (base.cfg.col (0 : Byte).toNat).type.bits ∧
      (255 : Word).toNat < 2 ^ (base.cfg.col (0 : Byte).toNat).type.bits :=
  ⟨base_inv, base_ready, rfl, by decide, by decide⟩
/-- The floor, the ceiling and p = 1. -/
theorem test_meets_AegStateAdapts :
    (0 : BitVec 8).toNat ≤ 28 ∧ (28 : BitVec 8).toNat ≤ 28 ∧ (28 : Nat) ≤ 255 ∧ adaptState 28 0 0 = 0 ∧
      adaptState 28 28 2 = 28 ∧ adaptState 28 27 2 = 28 ∧ adaptState 28 28 1 = 28 := by decide +kernel
theorem test_meets_AegStateConverges : base.Inv ∧ Ready base ∧ base.cols[(1 : Byte).toNat]? = some ⟨8, .l12a 3 6 (-1)⟩ :=
  ⟨base_inv, base_ready, rfl⟩

/-- The least and the greatest value of int16 and of uint64. -/
theorem test_meets_ColumnWordCarriesValue :
    Carries ⟨true, .two⟩ 0xFFFFFFFFFFFF8000 (-32768) ∧ Carries ⟨true, .two⟩ 0x7FFF 32767 ∧
      Carries ⟨false, .eight⟩ 0 0 ∧ Carries ⟨false, .eight⟩ 0xFFFFFFFFFFFFFFFF (2 ^ 64 - 1) := by
  unfold Carries
  decide +kernel
theorem test_meets_AbsDiffIsTrueDistance :
    ColumnType.holds ⟨true, .eight⟩ (-2 ^ 63) = true ∧ ColumnType.holds ⟨true, .eight⟩ (2 ^ 63 - 1) = true := by
  decide +kernel
theorem test_meets_SaturateIsNearestValue :
    ColumnType.holds ⟨true, .one⟩ (-128) = true ∧ saturate ⟨true, .one⟩ (-129) = -128 ∧
      saturate ⟨true, .one⟩ 128 = 127 := by decide +kernel

/-- Nothing held, one value held of two, and two of two. -/
theorem test_meets_PredFeedSimpleLinear :
    base.Inv ∧ Ready base ∧ (base.cfg.col (0 : Byte).toNat).kind = .sl 2 ∧
      base.cols[(0 : Byte).toNat]? = some ⟨4, .sl [1, 4]⟩ ∧ Carries (base.cfg.col (0 : Byte).toNat).type 255 255 ∧
      ([1, 4] : List Int).length = 2 ∧
      ({ base with cols := [⟨4, .sl []⟩, ⟨8, .l12a 3 6 (-1)⟩] } : State).Inv ∧
      ({ base with cols := [⟨4, .sl [9]⟩, ⟨8, .l12a 3 6 (-1)⟩] } : State).Inv ∧
      ([9] : List Int).length < 2 ∧ ([9] : List Int).getLast? = some 9 :=
  ⟨base_inv, base_ready, rfl, rfl, by unfold Carries; decide +kernel, rfl, inv_of_check (by decide +kernel),
    inv_of_check (by decide +kernel), by decide, rfl⟩

theorem test_meets_PredFeedLinear12Adapt :
    base.Inv ∧ Ready base ∧ base.cols[(1 : Byte).toNat]? = some ⟨8, .l12a 3 6 (-1)⟩ ∧
      (base.cfg.col (1 : Byte).toNat).kind = .l12a ∧ Carries (base.cfg.col (1 : Byte).toNat).type (-32768) (-32768) ∧
      ({ base with cols := [⟨4, .sl []⟩, ⟨8, .l12a (-32768) 32767 (-8)⟩] } : State).Inv :=
  ⟨base_inv, base_ready, rfl, rfl, by unfold Carries; decide +kernel, inv_of_check (by decide +kernel)⟩

/-- N = 2 up to the end of int8, and one step past its start. -/
theorem test_meets_SimpleLinearExactOnLinearSequence :
    2 ≤ 2 ∧ ColumnType.holds ⟨true, .one⟩ (127 - 2 * 3 + (2 : Nat) * 3) = true ∧
      ColumnType.holds ⟨true, .one⟩ (-124 + (2 : Nat) * (-2)) = true := by decide +kernel

/-- A hit and a miss on column 0, whose prediction is 7. -/
theorem test_meets_ColWriteCodesValue :
    base.Inv ∧ Ready base ∧ base.cols[(0 : Byte).toNat]? = some ⟨4, .sl [1, 4]⟩ ∧
      Carries (base.cfg.col (0 : Byte).toNat).type 7 7 ∧ Carries (base.cfg.col (0 : Byte).toNat).type 255 255 :=
  ⟨base_inv, base_ready, rfl, by unfold Carries; decide +kernel, by unfold Carries; decide +kernel⟩
theorem test_meets_ColResetMakesColumnFresh :
    Ready base ∧ (0 : Byte).toNat < base.cfg.ncol ∧ (1 : Byte).toNat < base.cfg.ncol :=
  ⟨base_ready, by decide, by decide⟩

theorem base_row : RowFits base.cfg [255, -32768] := .cons (by decide) (.cons (by decide) .nil)

theorem test_meets_TabWriteRowCodesRow :
    base.Inv ∧ Ready base ∧ base.block = .noBlock ∧ inside.Inv ∧ Ready inside ∧ inside.block = .inBlock ∧
      RowFits base.cfg [255, -32768] ∧ RowFits inside.cfg [255, -32768] :=
  ⟨base_inv, base_ready, rfl, inside_inv, inside_ready, rfl, base_row, base_row⟩
theorem test_meets_TabEndBlockEndsBlock :
    base.Inv ∧ Ready base ∧ base.block = .noBlock ∧ inside.Inv ∧ Ready inside ∧ inside.block = .inBlock :=
  ⟨base_inv, base_ready, rfl, inside_inv, inside_ready, rfl⟩
theorem test_meets_TabCloseEndsBlockAndCloses :
    Ready base ∧ BufferClean base ∧ base.block = .noBlock ∧ Ready inside ∧ BufferClean inside ∧ inside.block = .inBlock :=
  ⟨base_ready, base_clean, rfl, inside_ready, inside_inv.buffer, rfl⟩

/-- Each of the three kinds of command completes. -/
theorem test_meets_BlockStateMachine :
    (∃ t, exec (.tabWriteRow [1, 2]) base = .next t ∧ t.responses = base.responses ++ [⟨true, .none, 0⟩]) ∧
      (∃ t, exec .tabClose inside = .next t ∧ t.responses = inside.responses ++ [⟨true, .none, 0⟩]) ∧
      ∃ t, exec .bwEnd inside = .next t ∧ t.responses = inside.responses ++ [⟨true, .none, 0⟩] :=
  ⟨exists_response (by decide +kernel), exists_response (by decide +kernel), exists_response (by decide +kernel)⟩

/-- An empty block, and one of two rows. -/
theorem test_meets_BlockLayoutOnTheWire :
    ({ base with bwBuffer := 0, bwUsed := 0 } : State).Inv ∧ Ready { base with bwBuffer := 0, bwUsed := 0 } ∧
      ({ base with bwBuffer := 0, bwUsed := 0 } : State).block = .noBlock ∧
      ∀ vals ∈ [[255, -32768], [(255 : Int), -32768]], RowFits base.cfg vals :=
  ⟨inv_of_check (by decide +kernel), ⟨rfl, rfl⟩, rfl, by
    intro vals h
    simp at h
    subst h
    exact base_row⟩

/-- Two states with other OUT, columns and flags, and the same pending bits. -/
theorem test_meets_BlockIgnoresEarlierBlocks :
    base.Inv ∧ ({ base with out := [], hadEscape := false, cols := [⟨28, .sl []⟩, ⟨0, .l12a 0 0 7⟩] } : State).Inv ∧
      Ready base ∧ base.block = .noBlock ∧
      pendingBits base =
        pendingBits { base with out := [], hadEscape := false, cols := [⟨28, .sl []⟩, ⟨0, .l12a 0 0 7⟩] } ∧
      ∀ vals ∈ [[(255 : Int), -32768]], RowFits base.cfg vals :=
  ⟨base_inv, inv_of_check (by decide +kernel), base_ready, rfl, rfl, by
    intro vals h
    simp at h
    subst h
    exact base_row⟩

/-- Each function byte after an ESC; another byte after an ESC; and a function byte after none. -/
theorem test_meets_FrByteEscapesFunctionByte :
    Ready base ∧ (base.hadEscape = true ∧ ((0x6C : Byte) = 0x6C ∨ (0x6C : Byte) = 0x23 ∨ (0x6C : Byte) = 0x20)) ∧
      (base.hadEscape = true ∧ ((0x23 : Byte) = 0x6C ∨ (0x23 : Byte) = 0x23 ∨ (0x23 : Byte) = 0x20)) ∧
      (base.hadEscape = true ∧ ((0x20 : Byte) = 0x6C ∨ (0x20 : Byte) = 0x23 ∨ (0x20 : Byte) = 0x20)) ∧
      ¬ (base.hadEscape = true ∧ ((0x54 : Byte) = 0x6C ∨ (0x54 : Byte) = 0x23 ∨ (0x54 : Byte) = 0x20)) ∧
      Ready State.reset ∧
      ¬ (State.reset.hadEscape = true ∧ ((0x6C : Byte) = 0x6C ∨ (0x6C : Byte) = 0x23 ∨ (0x6C : Byte) = 0x20)) :=
  ⟨base_ready, by decide, by decide, by decide, by decide, ⟨rfl, rfl⟩, by decide⟩
theorem test_meets_FrMarkersAppendMarker : Ready base ∧ Ready inside := ⟨base_ready, inside_ready⟩
/-- A payload whose escaped form has an ESC before a byte. -/
theorem test_meets_EscaperExpansion :
    (0x54, 0x20) ∈ (escapeBytes false [0x54, 0x6C]).zip (escapeBytes false [0x54, 0x6C]).tail := by decide +kernel
theorem test_meets_EscapeFlagTracksLastByte :
    (∃ t, exec (.frByte 0x54) base = .next t) ∧ ∃ t, exec (.bwWriteBit true) base = .next t :=
  ⟨exists_next (by decide +kernel), exists_next (by decide +kernel)⟩

/-- A string of eight bytes, one of one byte, and the empty one. -/
theorem test_meets_StrCompressAppendsCode :
    Ready base ∧ BufferClean base ∧ ([] : List Word).length = stringWords (0 : BitVec 16).toNat ∧
      ([0x61] : List Word).length = stringWords (1 : BitVec 16).toNat ∧
      (∀ i, (1 : BitVec 16).toNat ≤ i → i < 8 * ([0x61] : List Word).length → packedByte [0x61] i = 0) ∧
      ([0x6867666564636261] : List Word).length = stringWords (8 : BitVec 16).toNat := by
  refine ⟨base_ready, base_clean, rfl, rfl, fun i h1 h2 => ?_, rfl⟩
  have h3 : i < 8 := by simpa using h2
  have h4 : 1 ≤ i := by simpa using h1
  interval_cases i <;> decide
theorem test_meets_StringCodeShape :
    ([0x61, 0x62] : List Byte) = 0x61 :: [0x62] ∧ isFirst Config.example 0x61 = true ∧
      isFirst Config.example 0x63 = true ∧ ([0x78] : List Byte) ≠ [] := by decide
/-- A match run that takes "ab" and stops before a literal, a byte that is no first character, and a literal run that stops
before a first character. -/
theorem test_meets_RunsEndWhereTheyMust :
    (isFirst Config.example 0x61 = true ∧ lookupSymbol Config.example 0x61 [0x62, 0x78] = (3, 2) ∧
      [0x78] = ([0x61, 0x62, 0x78] : List Byte).drop 2) ∧ isFirst Config.example 0x78 = false ∧
    (matchRun Config.example 2 [0x61, 0x78]).2 = 0x78 :: [] ∧ (literalRun Config.example [0x78, 0x61]).2 = 0x61 :: [] ∧
      0x78 ∈ (literalRun Config.example [0x78, 0x61]).1 := by decide +kernel
/-- "abcab" follows two edges and no third. -/
theorem test_meets_LookupIsLongestPath :
    Config.example.wf = true ∧ isFirst Config.example 0x61 = true ∧
      lookupSymbol Config.example 0x61 [0x62, 0x63, 0x61, 0x62] = (4, 3) ∧
      TriePath Config.example ((0x61 : Byte).toNat - Config.example.firstLevelMin.toNat)
        (([0x62, 0x63, 0x61, 0x62] : List Byte).take 1) 3 :=
  ⟨by decide +kernel, by decide, by decide +kernel,
    3, ⟨_, _, rfl, rfl, by decide +kernel, by decide +kernel, by decide +kernel⟩, rfl⟩

theorem test_meets_ColumnsChangeOnlyWhereNamed :
    (∃ t, exec (.colWrite 0 7) base = .next t ∧ 1 ≠ (0 : Byte).toNat) ∧ ∃ t, exec .bwEnd base = .next t :=
  ⟨(exists_next (by decide +kernel)).imp fun _ h => ⟨h, by decide⟩, exists_next (by decide +kernel)⟩
theorem test_meets_OutOnlyGrowsAndConfigurationStays :
    ∃ t, step { base with port := [.word 0x19] } = .next t ∧ t.out ≠ base.out :=
  (exists_nextWith (p := fun t => t.out != base.out) (by decide +kernel)).imp fun _ h => ⟨h.1, by simpa using h.2⟩
/-- A configuration of no columns, and one of 256; and the last column of an example. -/
theorem test_meets_ResetStateSatisfiesInv :
    { Config.example with cols := [] }.wf = true ∧ 1 < Config.example.ncol ∧
      { Config.example with cols := List.replicate 256 ⟨⟨true, .eight⟩, .l12a, []⟩ }.wf = true := by decide +kernel
/-- A step that takes a row and one that takes a reset. -/
theorem test_meets_StepKeepsInv :
    ({ base with port := [.word 0x18, .word 255, .word 1, .reset] } : State).Inv ∧
      (∃ t, step { base with port := [.word 0x18, .word 255, .word 1, .reset] } = .next t) ∧
      ∃ t, step { base with port := [.reset] } = .next t :=
  ⟨inv_of_check (by decide +kernel), exists_next (by decide +kernel), exists_next (by decide +kernel)⟩

end Sys2Proof.Tests
end

section
/-! What a fresh column unit and a reset hold, and the statement of 10_state.md R37. -/

namespace Sys2Proof.Machine

/-! ### Fresh units (44_column.md R171) -/

@[simp] theorem PredState.fresh_l12a (cfg : Config) :
    PredState.fresh cfg .l12a = .l12a cfg.l12aInitPrev0 cfg.l12aInitPrev1 (BitVec.ofInt 4 cfg.l12aInitSel) := rfl

@[simp] theorem PredState.fresh_sl (cfg : Config) (n : Nat) : PredState.fresh cfg (.sl n) = .sl [] := rfl

@[simp] theorem ColUnit.fresh_pred (cfg : Config) (cc : ColumnConfig) :
    (ColUnit.fresh cfg cc).pred = PredState.fresh cfg cc.kind := rfl

/-- The fresh coder state is the `INIT_STATE` of the column's width (42_adaptive_golomb.md R132). -/
@[simp] theorem ColUnit.fresh_aeg (cfg : Config) (cc : ColumnConfig) :
    (ColUnit.fresh cfg cc).aeg = BitVec.ofNat 8 (4 * cc.type.width.bytes) :=
  congrArg (BitVec.ofNat 8) (initState_eq cc.type.width)

/-! ### Reset (10_state.md R37) -/

/-- The whole state a reset leaves: it names every register it writes, so the configuration, OUT, the port and the
responses stay. -/
theorem resetBlock_eq (s : State) :
    resetBlock s = { s with
      bwBuffer := 0
      bwUsed := 0
      hadEscape := false
      block := .noBlock
      closed := false
      faulted := false
      faultCode := .none
      cols := freshUnits s.cfg } := rfl

/-- Settles O10: a reset makes every column unit fresh, and a fresh unit holds the values of R37 for its column's width
and kind of predictor. -/
theorem resetLeavesListedValues : Obligations.ResetLeavesListedValues := by
  unfold Obligations.ResetLeavesListedValues
  intro s
  rw [resetBlock_eq]
  congr 1
  refine List.map_congr_left fun cc _ => ?_
  refine congrArg₂ ColUnit.mk (ColUnit.fresh_aeg s.cfg cc) ((ColUnit.fresh_pred s.cfg cc).trans ?_)
  cases cc.kind with
  | l12a => exact PredState.fresh_l12a s.cfg
  | sl n => exact PredState.fresh_sl s.cfg n

end Sys2Proof.Machine
end

section
/-! The BitWriter commands: what each one runs in a block that takes commands, and the statements of 40_bitwriter.md
R103, R105 and R106. -/

namespace Sys2Proof.Machine

/-! ### One payload byte (R101, R102) -/

/-- Whether a bit is pending is what `BW.used` counts (R22). -/
theorem pendingBits_eq_nil_iff (s : State) : pendingBits s = [] ↔ s.bwUsed = 0 := by
  rw [← List.length_eq_zero_iff, pendingBits_length, ← BitVec.toNat_inj]
  rfl

/-- The last step of `BW_flush` and of `BW_end`, as a whole state: a byte leaves through the Framing unit and no bit is
pending. -/
theorem frAccept_setBits_zero (b : Byte) (s : State) :
    (frAccept b s).setBits 0 0 = { s with
      bwBuffer := 0
      bwUsed := 0
      out := s.out ++ escapeBytes s.hadEscape [b]
      hadEscape := b == 0x54 } := by
  rw [frAccept_eq]
  rfl

/-! ### The commands, past the general checks -/

/-- A bit count of at most 64 passes the check of R103. -/
theorem exec_bwWrite_of_ready {s : State} (hr : Ready s) {n : Byte} (hn : n.toNat ≤ 64) (d : Word) :
    exec (.bwWrite n d) s = .next (okState 0 (bwWrite d.toNat n.toNat s)) := by
  change execBwWrite n d s = _
  rw [execBwWrite, checked_ready hr, if_neg (Nat.not_lt.2 hn), complete_eq]

theorem exec_bwFlush_of_ready {s : State} (hr : Ready s) : exec .bwFlush s = .next (okState 0 (bwFlush s)) :=
  checked_ready hr _

theorem exec_bwEnd_of_ready {s : State} (hr : Ready s) : exec .bwEnd s = .next (okState 0 (bwEnd s)) :=
  checked_ready hr _

/-! ### The statements -/

/-- Settles O22: a legal bit count passes the command's check, and on a clean buffer the loop of `BW_write` is an append
(`bwWrite_eq`). -/
theorem bwWriteAppendsField : Obligations.BwWriteAppendsField := by
  unfold Obligations.BwWriteAppendsField
  intro s n d hr hb hn
  rw [exec_bwWrite_of_ready hr hn, bwWrite_eq hb]

/-- Settles O24: by whether a bit is pending, the two branches of `BW_flush`. -/
theorem bwFlushEmitsPartialByte : Obligations.BwFlushEmitsPartialByte := by
  unfold Obligations.BwFlushEmitsPartialByte
  intro s hr hb
  rw [exec_bwFlush_of_ready hr, bwFlush_eq hb]
  constructor
  · intro hnone
    rw [if_pos ((pendingBits_eq_nil_iff s).2 hnone)]
  · intro hsome
    rw [if_neg (mt (pendingBits_eq_nil_iff s).1 hsome), frAccept_setBits_zero]

/-- Settles O25: the end bit either fills the pending byte or is flushed with it, and in both cases `BW_end` is one byte
through the Framing unit (`bwEnd_eq`). -/
theorem bwEndEmitsOneByte : Obligations.BwEndEmitsOneByte := by
  unfold Obligations.BwEndEmitsOneByte
  intro s hr hb
  rw [exec_bwEnd_of_ready hr, bwEnd_eq hb, frAccept_setBits_zero]

end Sys2Proof.Machine
end

section
/-! The Elias-gamma code: its exponent, its length, and the command that appends it; the statements of 41_elias_gamma.md
R120 to R122. -/

namespace Sys2Proof.Machine

/-! ### The exponent and the length of a code (R120, R121) -/

/-- The exponent L of the code of R120 is pinned by the two powers of two around a positive number. -/
theorem floorLog2_eq_iff {x l : Nat} (hx : x ≠ 0) : floorLog2 x = l ↔ 2 ^ l ≤ x ∧ x < 2 ^ (l + 1) := Nat.log2_eq_iff hx

/-- L zeros, a 1 and L low bits. -/
theorem egBits_length (n : Nat) : (egBits n).length = 2 * floorLog2 (n + 1) + 1 := by
  simp only [egBits, List.length_append, List.length_replicate, List.length_cons, fieldBits_length]
  omega

/-- One length for all the numbers between two powers of two: each range of R121 is an instance. -/
theorem egBits_length_of_range {n l : Nat} (hlo : 2 ^ l ≤ n + 1) (hhi : n + 1 < 2 ^ (l + 1)) :
    (egBits n).length = 2 * l + 1 := by
  rw [egBits_length, (floorLog2_eq_iff n.succ_ne_zero).2 ⟨hlo, hhi⟩]

theorem egBits_zero : egBits 0 = [true] := by
  have hl : floorLog2 (0 + 1) = 0 := (floorLog2_eq_iff (by decide)).2 (by decide)
  rw [egBits, hl]
  rfl

/-- No other code is as short as that of 0: exponent 0 leaves only `n + 1 = 1`. -/
theorem one_lt_egBits_length {n : Nat} (hn : n ≠ 0) : 1 < (egBits n).length := by
  have hl : floorLog2 (n + 1) ≠ 0 := by
    intro h0
    obtain ⟨-, hhi⟩ := (floorLog2_eq_iff n.succ_ne_zero).1 h0
    omega
  rw [egBits_length]
  omega

/-! ### The command, past the general checks (R122) -/

/-- EG_ENCODE has no check of its own. -/
theorem exec_egEncode_of_ready {s : State} (hr : Ready s) (n : Word) :
    exec (.egEncode n) s = .next (okState 0 (egEncode n.toNat s)) :=
  checked_ready hr _

/-! ### The statements -/

/-- Settles O27: on a clean buffer the three writes of `EG_encode` are one append of the code (`egEncode_eq`), whose exponent
is the L that the powers of two around n + 1 pin. -/
theorem egEncodeAppendsCode : Obligations.EgEncodeAppendsCode := by
  unfold Obligations.EgEncodeAppendsCode
  intro s n hr hb
  obtain ⟨hlo, hhi⟩ := (floorLog2_eq_iff n.toNat.succ_ne_zero).1 rfl
  refine ⟨floorLog2 (n.toNat + 1), hlo, hhi, ?_⟩
  rw [exec_egEncode_of_ready hr, egEncode_eq hb, egBits]

/-- Settles O29: the three ranges are those of the exponents 1, 2 and 3. -/
theorem eliasGammaLength : Obligations.EliasGammaLength := by
  unfold Obligations.EliasGammaLength
  refine ⟨egBits_length, egBits_zero, fun _ => one_lt_egBits_length, ?_, ?_, ?_⟩
  · intro n hlo hhi
    exact egBits_length_of_range (l := 1) (by omega) (by omega)
  · intro n hlo hhi
    exact egBits_length_of_range (l := 2) (by omega) (by omega)
  · intro n hlo hhi
    exact egBits_length_of_range (l := 3) (by omega) (by omega)

end Sys2Proof.Machine
end

section
/-! The adaptive coder's command: what AEG_ENCODE runs in a block that takes commands, and the statement of
42_adaptive_golomb.md R135 with R133. -/

namespace Sys2Proof.Machine

/-! ### A column that has its unit (10_state.md R27) -/

/-- The access of the commands reads a unit that the state holds. -/
theorem unitAt_of_getElem? {s : State} {c : Nat} {u : ColUnit} (hu : s.cols[c]? = some u) : unitAt s c = u := by
  simp [unitAt, hu]

/-- A column that has a unit is one of the configuration's, so its index passes the check of R243 step 4. -/
theorem lt_ncol_of_getElem? {s : State} (h : s.Inv) {c : Nat} {u : ColUnit} (hu : s.cols[c]? = some u) :
    c < s.cfg.ncol := by
  obtain ⟨hc, -⟩ := List.getElem?_eq_some_iff.1 hu
  rwa [inv_length h] at hc

/-! ### The coder of one column (R130, R133) -/

/-- The shift k drops the two fraction bits of the state (R130). -/
theorem shiftOf_eq_div (a : BitVec 8) : shiftOf a = a.toNat / 4 := Nat.shiftRight_eq_div_pow _ 2

/-- `AEG_encode(c, n)` on a column that has the unit u, as a whole state: the code of n at the shift of u leaves, and of all
the units only that of column c is written, in its coder state. -/
theorem aegEncode_eq_of_getElem? {s : State} (h : BufferClean s) {c : Nat} {u : ColUnit} (hu : s.cols[c]? = some u)
    (n : Nat) :
    aegEncode c n s =
      { appendBits (aegBits (shiftOf u.aeg) n) s with
        cols :=
          s.cols.set c
            { u with
              aeg := adaptState (s.cfg.maxState.at (s.cfg.col c).type.width) u.aeg (n / 2 ^ shiftOf u.aeg) } } := by
  rw [aegEncode_eq h, unitAt_of_getElem? hu]
  rfl

/-! ### The command, past the general checks (R135) -/

/-- An index of a column and an operand that its width holds pass the two checks of R135. -/
theorem exec_aegEncode_of_ready {s : State} (hr : Ready s) {c : Byte} (hc : c.toNat < s.cfg.ncol) {n : Word}
    (hn : n.toNat < 2 ^ (s.cfg.col c.toNat).type.bits) :
    exec (.aegEncode c n) s = .next (okState 0 (aegEncode c.toNat n.toNat s)) := by
  change execAegEncode c n s = _
  rw [execAegEncode, checked_ready hr, withColumn_lt hc, if_neg (Nat.not_le.2 hn), complete_eq]

/-! ### The statement -/

/-- Settles O30: the operand passes the command's checks, and the quotient and the remainder that `AEG_encode` writes are one
append of the code of R133 (`aegEncode_eq`), at the shift `k = state / 4` of the unit of column c. -/
theorem aegEncodeAppendsCodeAndAdapts : Obligations.AegEncodeAppendsCodeAndAdapts := by
  unfold Obligations.AegEncodeAppendsCodeAndAdapts
  intro s c n u h hr hu hn
  rw [exec_aegEncode_of_ready hr (lt_ncol_of_getElem? h hu) hn, aegEncode_eq_of_getElem? h.buffer hu, shiftOf_eq_div,
    aegBits]

end Sys2Proof.Machine
end

section
/-! Values of a column type: their range, their residues modulo 2^W, and the column words that carry them; the
statements of 43_predictors.md R145 and R146. -/

namespace Sys2Proof.Machine

/-! ### The range of a type (00_scope.md R11) -/

theorem columnBits_pos (t : ColumnType) : 0 < t.bits := by
  rw [ColumnType.bits]
  cases t.width <;> decide

theorem columnBits_le (t : ColumnType) : t.bits ≤ 64 := by
  rw [ColumnType.bits]
  cases t.width <;> decide

theorem holds_iff_of_signed {t : ColumnType} (ht : t.signed = true) (v : Int) :
    t.holds v = true ↔ -(2 : Int) ^ (t.bits - 1) ≤ v ∧ v < 2 ^ (t.bits - 1) := by
  rw [holds_iff, ColumnType.minValue, ColumnType.maxValue, if_pos ht, if_pos ht, Int.le_sub_one_iff]

theorem holds_iff_of_unsigned {t : ColumnType} (ht : ¬ t.signed = true) (v : Int) :
    t.holds v = true ↔ 0 ≤ v ∧ v < (2 : Int) ^ t.bits := by
  rw [holds_iff, ColumnType.minValue, ColumnType.maxValue, if_neg ht, if_neg ht, Int.le_sub_one_iff]

/-- A type has `2^W` values. -/
theorem maxValue_eq (t : ColumnType) : t.maxValue = t.minValue + (2 ^ t.bits - 1) := by
  have hhalf : 2 * (2 : Int) ^ (t.bits - 1) = 2 ^ t.bits := mul_pow_sub_one (columnBits_pos t).ne' 2
  rw [ColumnType.minValue, ColumnType.maxValue]
  split <;> omega

theorem holds_zero (t : ColumnType) : t.holds 0 = true := by
  have hpos : ∀ n : Nat, (0 : Int) < 2 ^ n := fun n => pow_pos two_pos n
  by_cases ht : t.signed = true
  · exact (holds_iff_of_signed ht 0).2 ⟨Int.neg_nonpos_of_nonneg (hpos _).le, hpos _⟩
  · exact (holds_iff_of_unsigned ht 0).2 ⟨le_rfl, hpos _⟩

/-- Two values of a type are less than `2^W` apart (the remark of R145). -/
theorem sub_lt_of_holds {t : ColumnType} {a b : Int} (ha : t.holds a = true) (hb : t.holds b = true) :
    a - b < 2 ^ t.bits := by
  obtain ⟨-, hamax⟩ := (holds_iff t a).1 ha
  obtain ⟨hbmin, -⟩ := (holds_iff t b).1 hb
  have hspan := maxValue_eq t
  omega

/-! ### Residues (00_scope.md R10) -/

theorem unsignedResidue_cast (w : Nat) (x : Int) : (unsignedResidue w x : Int) = x % 2 ^ w := by
  have hpos : ((2 ^ w : Nat) : Int) ≠ 0 := by positivity
  rw [unsignedResidue, Int.toNat_of_nonneg (Int.emod_nonneg x hpos), Nat.cast_pow, Nat.cast_ofNat]

theorem unsignedResidue_modEq (w : Nat) (x : Int) : (unsignedResidue w x : Int) ≡ x [ZMOD 2 ^ w] := by
  rw [unsignedResidue_cast]
  exact Int.mod_modEq x _

/-- A residue depends on its argument only modulo `2^W`. -/
theorem unsignedResidue_congr {w : Nat} {x y : Int} (h : x ≡ y [ZMOD 2 ^ w]) :
    unsignedResidue w x = unsignedResidue w y := by
  zify
  rw [unsignedResidue_cast, unsignedResidue_cast]
  exact h

theorem unsignedResidue_lt (w : Nat) (x : Int) : unsignedResidue w x < 2 ^ w := by
  zify
  rw [unsignedResidue_cast]
  exact Int.emod_lt_of_pos x (pow_pos two_pos w)

theorem unsignedResidue_of_lt {w : Nat} {x : Int} (h0 : 0 ≤ x) (h1 : x < 2 ^ w) :
    (unsignedResidue w x : Int) = x := by
  rw [unsignedResidue_cast, Int.emod_eq_of_lt h0 h1]

/-- The two's-complement reading takes `2^W` off the upper half of the residues, so it stays in its class. -/
theorem signedResidue_modEq (w : Nat) (x : Int) : signedResidue w x ≡ x [ZMOD 2 ^ w] := by
  have hres := unsignedResidue_modEq w x
  rw [signedResidue]
  split
  · exact hres
  · rw [Nat.cast_pow, Nat.cast_ofNat]
    exact Int.sub_modulus_modEq_iff.2 hres

theorem signedResidue_range {w : Nat} (hw : 0 < w) (x : Int) :
    -(2 : Int) ^ (w - 1) ≤ signedResidue w x ∧ signedResidue w x < 2 ^ (w - 1) := by
  have hlt := unsignedResidue_lt w x
  have hhalf : 2 * 2 ^ (w - 1) = 2 ^ w := mul_pow_sub_one hw.ne' 2
  rw [signedResidue]
  zify at hlt hhalf
  split
  next hlow =>
    zify at hlow
    omega
  next hhigh =>
    zify at hhigh
    push_cast
    omega

/-! ### Reading W bits as a type (00_scope.md R11) -/

theorem readAs_modEq (t : ColumnType) (b : Nat) : readAs t b ≡ b [ZMOD 2 ^ t.bits] := by
  rw [readAs]
  split
  · exact signedResidue_modEq t.bits b
  · rfl

theorem holds_readAs {t : ColumnType} {b : Nat} (hb : b < 2 ^ t.bits) : t.holds (readAs t b) = true := by
  rw [readAs]
  split
  next ht => exact (holds_iff_of_signed ht _).2 (signedResidue_range (columnBits_pos t) b)
  next ht =>
    refine (holds_iff_of_unsigned ht _).2 ⟨Int.natCast_nonneg b, ?_⟩
    exact_mod_cast hb

/-! ### The distance (R145) -/

/-- Subtracting residues gives the true difference when it is one of the numbers that W bits hold. -/
theorem unsignedResidue_sub {w : Nat} {a b : Int} (h0 : b ≤ a) (h1 : a - b < 2 ^ w) :
    (unsignedResidue w (unsignedResidue w a - unsignedResidue w b) : Int) = a - b := by
  have hmod : (unsignedResidue w a : Int) - unsignedResidue w b ≡ a - b [ZMOD 2 ^ w] :=
    (unsignedResidue_modEq w a).sub (unsignedResidue_modEq w b)
  rw [unsignedResidue_congr hmod, unsignedResidue_of_lt (by omega) h1]

theorem absDiff_fst {t : ColumnType} {a b : Int} (ha : t.holds a = true) (hb : t.holds b = true) :
    ((absDiff t a b).1 : Int) = |a - b| := by
  rw [absDiff]
  split
  next hab => rw [unsignedResidue_sub hab.le (sub_lt_of_holds ha hb), abs_of_pos (sub_pos.2 hab)]
  next hab =>
    rw [unsignedResidue_sub (not_lt.1 hab) (sub_lt_of_holds hb ha), abs_sub_comm,
      abs_of_nonneg (sub_nonneg.2 (not_lt.1 hab))]

theorem absDiff_fst_lt (t : ColumnType) (a b : Int) : (absDiff t a b).1 < 2 ^ t.bits := by
  rw [absDiff]
  split
  · exact unsignedResidue_lt _ _
  · exact unsignedResidue_lt _ _

theorem absDiff_snd_iff (t : ColumnType) (a b : Int) : (absDiff t a b).2 = true ↔ b < a := by
  rw [absDiff]
  split <;> simp_all

/-! ### Saturation (R146) -/

theorem minValue_le_maxValue (t : ColumnType) : t.minValue ≤ t.maxValue := by
  obtain ⟨hmin, hmax⟩ := (holds_iff t 0).1 (holds_zero t)
  exact hmin.trans hmax

theorem holds_saturate (t : ColumnType) (x : Int) : t.holds (saturate t x) = true :=
  (holds_iff t _).2 ⟨le_min (le_max_right _ _) (minValue_le_maxValue t), min_le_right _ _⟩

/-- A clamped x has moved to the bound on its side, and every value of the type is past that bound. -/
theorem abs_sub_saturate_le {t : ColumnType} {v : Int} (hv : t.holds v = true) (x : Int) :
    |x - saturate t x| ≤ |x - v| := by
  obtain ⟨hmin, hmax⟩ := (holds_iff t v).1 hv
  rw [saturate]
  rcases lt_or_ge x t.minValue with hlow | hlow
  · rw [max_eq_right hlow.le, min_eq_left (hmin.trans hmax)]
    exact abs_le_abs_of_nonpos (by omega) (by omega)
  · rw [max_eq_left hlow]
    rcases le_or_gt x t.maxValue with hhigh | hhigh
    · rw [min_eq_left hhigh, sub_self, abs_zero]
      exact abs_nonneg _
    · rw [min_eq_right hhigh.le]
      exact abs_le_abs_of_nonneg (by omega) (by omega)

/-! ### Column words (30_encoding.md R76) -/

/-- The low bits of the 64-bit form of a value are its shorter form. -/
theorem setWidth_ofInt_of_le {w : Nat} (hw : w ≤ 64) (v : Int) :
    (BitVec.ofInt 64 v).setWidth w = BitVec.ofInt w v := by
  refine BitVec.eq_of_toNat_eq ?_
  rw [BitVec.toNat_setWidth]
  change unsignedResidue 64 v % 2 ^ w = unsignedResidue w v
  zify
  rw [unsignedResidue_cast, unsignedResidue_cast, Int.emod_emod_of_dvd v (pow_dvd_pow 2 hw)]

/-- The low W bits of a column word, read as its type, are the value it carries. -/
theorem columnValue_of_carries {t : ColumnType} {d : Word} {v : Int} (h : Carries t d v) : columnValue t d = v := by
  obtain ⟨hv, rfl⟩ := h
  rw [columnValue, setWidth_ofInt_of_le (columnBits_le t)]
  split
  next ht =>
    obtain ⟨hlo, hhi⟩ := (holds_iff_of_signed ht v).1 hv
    exact BitVec.toInt_ofInt_eq_self (columnBits_pos t) hlo hhi
  next ht =>
    obtain ⟨hlo, hhi⟩ := (holds_iff_of_unsigned ht v).1 hv
    exact unsignedResidue_of_lt hlo hhi

/-- A value goes out as its 64-bit form. -/
theorem columnWord_of_holds {t : ColumnType} {v : Int} (hv : t.holds v = true) :
    columnWord t v = BitVec.ofInt 64 v := by
  rw [columnWord]
  split
  next ht =>
    obtain ⟨hlo, hhi⟩ := (holds_iff_of_signed ht v).1 hv
    rw [BitVec.signExtend, BitVec.toInt_ofInt_eq_self (columnBits_pos t) hlo hhi]
  next ht =>
    obtain ⟨hlo, hhi⟩ := (holds_iff_of_unsigned ht v).1 hv
    rw [← BitVec.ofNat_toNat, ← BitVec.ofInt_natCast]
    exact congrArg _ (unsignedResidue_of_lt hlo hhi)

/-- A word is a column word when it is the word of the value it is read as. -/
theorem columnWordOk_eq (t : ColumnType) (d : Word) : columnWordOk t d = (d == columnWord t (columnValue t d)) := by
  rw [columnWordOk, columnWord, columnValue]
  split
  · rw [BitVec.ofInt_toInt]
  · rw [BitVec.ofInt_natCast, BitVec.ofNat_toNat, BitVec.setWidth_eq]

theorem columnWordOk_of_carries {t : ColumnType} {d : Word} {v : Int} (h : Carries t d v) :
    columnWordOk t d = true := by
  rw [columnWordOk_eq, columnValue_of_carries h, columnWord_of_holds h.1, beq_iff_eq]
  exact h.2

/-! ### The statements -/

/-- Settles O34: the true difference fits in W bits, so the subtraction of residues does not wrap. -/
theorem absDiffIsTrueDistance : Obligations.AbsDiffIsTrueDistance := by
  unfold Obligations.AbsDiffIsTrueDistance
  intro t a b ha hb
  exact ⟨absDiff_fst ha hb, absDiff_fst_lt t a b, absDiff_snd_iff t a b⟩

/-- Settles O35: the model clamps as R146 writes it, and to the bound nearest to x. -/
theorem saturateIsNearestValue : Obligations.SaturateIsNearestValue := by
  unfold Obligations.SaturateIsNearestValue
  intro t x v hv
  exact ⟨rfl, holds_saturate t x, abs_sub_saturate_le hv x⟩

end Sys2Proof.Machine
end

section
/-! The predictors of a column and the command that feeds one: what each predicts and keeps, and the statements of
43_predictors.md R147 to R156. -/

namespace Sys2Proof.Machine

/-! ### A fitting unit (10_state.md R29, R30) -/

theorem fits_sl_iff {cc : ColumnConfig} {n : Nat} (hk : cc.kind = .sl n) (h : List Int) :
    (PredState.sl h).fits cc = true ↔ h.length ≤ n ∧ ∀ x ∈ h, cc.type.holds x = true := by
  simp [PredState.fits, hk]

theorem fits_l12a_iff {cc : ColumnConfig} (hk : cc.kind = .l12a) (p0 p1 : Int) (sel : BitVec 4) :
    (PredState.l12a p0 p1 sel).fits cc = true ↔ cc.type.holds p0 = true ∧ cc.type.holds p1 = true := by
  simp [PredState.fits, hk]

theorem inv_pred_fits {s : State} (h : s.Inv) {c : Nat} {u : ColUnit} (hu : s.cols[c]? = some u) :
    u.pred.fits (s.cfg.col c) = true := by
  have hfit := inv_unit h (lt_ncol_of_getElem? h hu)
  rw [unitAt_of_getElem? hu] at hfit
  exact (fits_parts hfit).2

/-! ### The command, past the checks (R155, R156) -/

theorem predictAndFeed_of_getElem? {s : State} {c : Nat} {u : ColUnit} (hu : s.cols[c]? = some u) (v : Int) :
    predictAndFeed c v s =
      (predict (s.cfg.col c) u.pred, setUnit c { u with pred := feed (s.cfg.col c) u.pred v } s) := by
  rw [predictAndFeed, unitAt_of_getElem? hu]

/-- PRED_FEED of a value of the type: the answer is the prediction from the state before it, and of all the units only
that of column c is written, in its predictor. -/
theorem exec_predFeed_of_carries {s : State} (h : s.Inv) (hr : Ready s) {c : Byte} {d : Word} {v : Int} {u : ColUnit}
    (hu : s.cols[c.toNat]? = some u) (hd : Carries (s.cfg.col c.toNat).type d v) :
    exec (.predFeed c d) s = .next (okState
      (columnWord (s.cfg.col c.toNat).type (predict (s.cfg.col c.toNat) u.pred))
      { s with cols := s.cols.set c.toNat { u with pred := feed (s.cfg.col c.toNat) u.pred v } }) := by
  change execPredFeed c d s = _
  rw [execPredFeed, checked_ready hr, withColumn_lt (lt_ncol_of_getElem? h hu),
    withColumnWord_ok (columnWordOk_of_carries hd)]
  dsimp only
  rw [columnValue_of_carries hd, complete_eq, predictAndFeed_of_getElem? hu]
  rfl

/-! ### SimpleLinear (R147 to R149) -/

theorem slPredict_nil {n : Nat} (hn : 2 ≤ n) (t : ColumnType) : slPredict t n [] = 0 := by
  have hshort : ([] : List Int).length ≠ n := by simp; omega
  rw [slPredict, if_neg hshort, if_neg (by decide)]

theorem slPredict_of_length_lt {n : Nat} {h : List Int} {last : Int} (hlt : h.length < n)
    (hlast : h.getLast? = some last) (t : ColumnType) : slPredict t n h = last := by
  have hpos : 1 ≤ h.length := List.length_pos_of_mem (List.mem_of_getLast? hlast)
  rw [slPredict, if_neg hlt.ne, if_pos hpos, List.getLastD_eq_getLast?, hlast, Option.getD_some]

theorem slPredict_of_length_eq {n : Nat} {h : List Int} {first last : Int} (hlen : h.length = n)
    (hfirst : h.head? = some first) (hlast : h.getLast? = some last) (t : ColumnType) :
    slPredict t n h = saturate t (last + Int.tdiv (last - first) ((n : Int) - 1)) := by
  rw [slPredict, if_pos hlen, slExtrapolate, List.getLastD_eq_getLast?, hlast, List.headD_eq_head?_getD, hfirst]
  rfl

/-- The three predictions are a clamp, a value that was fed, and 0. -/
theorem holds_slPredict {t : ColumnType} {n : Nat} {h : List Int} (hh : ∀ x ∈ h, t.holds x = true) :
    t.holds (slPredict t n h) = true := by
  rw [slPredict]
  split
  · exact holds_saturate t _
  · split
    next hpos =>
      have hne : h ≠ [] := List.ne_nil_of_length_pos hpos
      rw [List.getLastD_eq_getLast?, List.getLast?_eq_some_getLast hne]
      exact hh _ (List.getLast_mem hne)
    next => exact holds_zero t

/-! ### Linear12Adapt (R150 to R154) -/

theorem holds_l12aModelB (t : ColumnType) (p0 p1 : Int) : t.holds (l12aModelB t p0 p1) = true :=
  holds_readAs (unsignedResidue_lt _ _)

/-- Model (b) is the constant derivative up to the wrap of R152. -/
theorem l12aModelB_modEq (t : ColumnType) (p0 p1 : Int) : l12aModelB t p0 p1 ≡ 2 * p1 - p0 [ZMOD 2 ^ t.bits] := by
  have hargs : 2 * (unsignedResidue t.bits p1 : Int) - unsignedResidue t.bits p0 ≡ 2 * p1 - p0 [ZMOD 2 ^ t.bits] :=
    ((unsignedResidue_modEq _ p1).mul_left 2).sub (unsignedResidue_modEq _ p0)
  exact (readAs_modEq t _).trans ((unsignedResidue_modEq _ _).trans hargs)

theorem holds_l12aPredict {t : ColumnType} {p1 : Int} (hp1 : t.holds p1 = true) (p0 : Int) (sel : BitVec 4) :
    t.holds (l12aPredict t p0 p1 sel) = true := by
  rw [l12aPredict]
  split
  · exact hp1
  · exact holds_l12aModelB t p0 p1

/-- The number in a selector register moves as R154 writes it: the bounds −8 and 7 are those of its 4 bits, so it does
not wrap. -/
theorem adaptSelector_toInt (sel : BitVec 4) (ea eb : Nat) :
    (adaptSelector sel ea eb).toInt =
      if ea < eb then min (sel.toInt + 1) 7 else if eb < ea then max (sel.toInt - 1) (-8) else sel.toInt := by
  have hlo : -8 ≤ sel.toInt := BitVec.le_toInt sel
  have hhi : sel.toInt < 8 := BitVec.toInt_lt
  rw [adaptSelector]
  split
  · exact BitVec.toInt_ofInt_eq_self (by decide) (by omega) (by omega)
  · split
    · exact BitVec.toInt_ofInt_eq_self (by decide) (by omega) (by omega)
    · rfl

/-- On values of the type the candidate errors that steer the selector are true distances. -/
theorem adaptSelector_absDiff_toInt {t : ColumnType} {a b v : Int} (ha : t.holds a = true) (hb : t.holds b = true)
    (hv : t.holds v = true) (sel : BitVec 4) :
    (adaptSelector sel (absDiff t a v).1 (absDiff t b v).1).toInt =
      if |a - v| < |b - v| then min (sel.toInt + 1) 7
        else if |b - v| < |a - v| then max (sel.toInt - 1) (-8) else sel.toInt := by
  rw [adaptSelector_toInt, ← absDiff_fst ha hv, ← absDiff_fst hb hv]
  simp only [Nat.cast_lt]

/-! ### The dispatcher (R155) -/

/-- A fitting predictor predicts a value of the column type. -/
theorem holds_predict {cc : ColumnConfig} {p : PredState} (hp : p.fits cc = true) :
    cc.type.holds (predict cc p) = true := by
  cases hk : cc.kind with
  | sl n => cases p with
    | sl h =>
      rw [predict, hk]
      exact holds_slPredict ((fits_sl_iff hk h).1 hp).2
    | l12a p0 p1 sel => simp [PredState.fits, hk] at hp
  | l12a => cases p with
    | sl h => simp [PredState.fits, hk] at hp
    | l12a p0 p1 sel =>
      rw [predict, hk]
      exact holds_l12aPredict ((fits_l12a_iff hk p0 p1 sel).1 hp).2 p0 sel

/-! ### The statements -/

/-- Settles O36: the answer is the prediction of R147 from the history as it stood, by how many values it holds. -/
theorem predFeedSimpleLinear : Obligations.PredFeedSimpleLinear := by
  unfold Obligations.PredFeedSimpleLinear
  intro s c d v u n h hinv hr hu hk hpred hd
  have hn : 2 ≤ n := ((predKind_wf_iff _).1 (inv_kind hinv (lt_ncol_of_getElem? hinv hu)) n hk).1
  refine ⟨slPredict (s.cfg.col c.toNat).type n h, ?_, ?_, ?_, ?_⟩
  · rintro rfl
    exact slPredict_nil hn _
  · intro last hlt hlast
    exact slPredict_of_length_lt hlt hlast _
  · intro first last hlen hfirst hlast
    exact slPredict_of_length_eq hlen hfirst hlast _
  · rw [exec_predFeed_of_carries hinv hr hu hd, columnWord_of_holds (holds_predict (inv_pred_fits hinv hu)), predict,
      feed, hk, hpred]
    simp only [PredState.hist, slFeed, List.drop_one]

/-- Settles O37: model (b) is pinned by its range and its class modulo `2^W`, and the selector by the true distances of
the two models. -/
theorem predFeedLinear12Adapt : Obligations.PredFeedLinear12Adapt := by
  unfold Obligations.PredFeedLinear12Adapt
  intro s c d v u p0 p1 sel hinv hr hu hk hpred hd
  have hfit := inv_pred_fits hinv hu
  have hexec := exec_predFeed_of_carries hinv hr hu hd
  rw [columnWord_of_holds (holds_predict hfit)] at hexec
  rw [hpred] at hfit hexec
  obtain ⟨-, hp1⟩ := (fits_l12a_iff hk p0 p1 sel).1 hfit
  have hb := holds_l12aModelB (s.cfg.col c.toNat).type p0 p1
  refine ⟨_, _, hb, (l12aModelB_modEq _ p0 p1).symm.dvd, adaptSelector_absDiff_toInt hp1 hb hd.1 sel, ?_⟩
  rw [hexec, predict, feed, hk]
  rfl

end Sys2Proof.Machine
end

section
/-! The column compressor: the code of one value and the unit after it, on a hit and on a miss, what COL_WRITE and
COL_RESET run in a block that takes commands, and the statements of 44_column.md R170 to R173. -/

namespace Sys2Proof.Machine

/-! ### The code of one value (R170) -/

theorem colBits_hit {cc : ColumnConfig} {u : ColUnit} {v : Int} (hp : predict cc u.pred = v) :
    colBits cc u v = [true] := if_pos hp

theorem colBits_miss {cc : ColumnConfig} {u : ColUnit} {v : Int} (hp : predict cc u.pred ≠ v) :
    colBits cc u v =
      false :: decide (v < predict cc u.pred) :: aegBits (shiftOf u.aeg) ((predict cc u.pred - v).natAbs - 1) :=
  if_neg hp

/-- On a hit the coder state stays. -/
theorem colNext_hit (cfg : Config) {cc : ColumnConfig} {u : ColUnit} {v : Int} (hp : predict cc u.pred = v) :
    colNext cfg cc u v = { u with pred := feed cc u.pred v } :=
  congrArg (ColUnit.mk · (feed cc u.pred v)) (if_pos hp)

/-- On a miss the coder adapts by the quotient of the distance less one. -/
theorem colNext_miss (cfg : Config) {cc : ColumnConfig} {u : ColUnit} {v : Int} (hp : predict cc u.pred ≠ v) :
    colNext cfg cc u v =
      { aeg := adaptState (cfg.maxState.at cc.type.width) u.aeg
          (((predict cc u.pred - v).natAbs - 1) / 2 ^ shiftOf u.aeg)
        pred := feed cc u.pred v } :=
  congrArg (ColUnit.mk · (feed cc u.pred v)) (if_neg hp)

/-- On values of the type `abs_diff` is the true distance and the side that the code of R170 is said by. -/
theorem absDiff_eq {t : ColumnType} {a b : Int} (ha : t.holds a = true) (hb : t.holds b = true) :
    absDiff t a b = ((a - b).natAbs, decide (b < a)) := by
  have hdist : (absDiff t a b).1 = (a - b).natAbs := by
    zify
    exact absDiff_fst ha hb
  have hside : (absDiff t a b).2 = decide (b < a) := by
    rw [Bool.eq_iff_iff, absDiff_snd_iff, decide_eq_true_iff]
  exact Prod.ext hdist hside

/-- `COL_write(c, v)` on a column that has the unit u, as a whole state: the code of v leaves, and of all the units only
that of column c is written. The prediction is a value of the type, so the distance of a miss does not wrap. -/
theorem colWrite_eq_of_getElem? {s : State} (h : s.Inv) {c : Nat} {u : ColUnit} (hu : s.cols[c]? = some u) {v : Int}
    (hv : (s.cfg.col c).type.holds v = true) :
    colWrite c v s =
      { appendBits (colBits (s.cfg.col c) u v) s with
        cols := s.cols.set c (colNext s.cfg (s.cfg.col c) u v) } := by
  have hunit := unitAt_of_getElem? hu
  by_cases hp : predict (s.cfg.col c) u.pred = v
  · rw [colWrite_hit h.buffer (by rwa [hunit]), hunit, colBits_hit hp, colNext_hit s.cfg hp]
    rfl
  · have hlen : c < s.cols.length := (List.getElem?_eq_some_iff.1 hu).1
    have hdist := absDiff_eq (holds_predict (inv_pred_fits h hu)) hv
    rw [colWrite_miss h.buffer hlen (by rwa [hunit]), hunit, hdist, colBits_miss hp, colNext_miss s.cfg hp]
    rfl

/-- A fresh unit by its two registers (R171). -/
theorem ColUnit.fresh_eq (cfg : Config) (cc : ColumnConfig) :
    ColUnit.fresh cfg cc =
      { aeg := BitVec.ofNat 8 (4 * cc.type.width.bytes), pred := PredState.fresh cfg cc.kind } :=
  congrArg₂ ColUnit.mk (ColUnit.fresh_aeg cfg cc) (ColUnit.fresh_pred cfg cc)

/-- `COL_fresh(c)`, as a whole state (R171): of all the units only that of column c is written. -/
theorem colFresh_eq (c : Nat) (s : State) :
    colFresh c s = { s with cols := s.cols.set c (ColUnit.fresh s.cfg (s.cfg.col c)) } := rfl

/-! ### The commands, past the checks (R172, R173) -/

/-- COL_WRITE of a word that carries a value of the column runs `COL_write` of that value. -/
theorem exec_colWrite_of_ready {s : State} (hr : Ready s) {c : Byte} (hc : c.toNat < s.cfg.ncol) {d : Word} {v : Int}
    (hd : Carries (s.cfg.col c.toNat).type d v) :
    exec (.colWrite c d) s = .next (okState 0 (colWrite c.toNat v s)) := by
  change execColWrite c d s = _
  rw [execColWrite, checked_ready hr, withColumn_lt hc, withColumnWord_ok (columnWordOk_of_carries hd),
    columnValue_of_carries hd, complete_eq]

theorem exec_colReset_of_ready {s : State} (hr : Ready s) {c : Byte} (hc : c.toNat < s.cfg.ncol) :
    exec (.colReset c) s = .next (okState 0 (colFresh c.toNat s)) := by
  change execColReset c s = _
  rw [execColReset, checked_ready hr, withColumn_lt hc, complete_eq]

/-! ### The statements -/

/-- Settles O39: the word passes the command's checks, and `COL_write` of its value appends the code that the true distance
gives and leaves the unit that it gives (`colWrite_eq_of_getElem?`). -/
theorem colWriteCodesValue : Obligations.ColWriteCodesValue := by
  unfold Obligations.ColWriteCodesValue
  intro s c d v u h hr hu hd
  rw [exec_colWrite_of_ready hr (lt_ncol_of_getElem? h hu) hd, colWrite_eq_of_getElem? h hu hd.1]

/-- Settles O40: the fresh unit that COL_RESET writes holds the values of R171 for the column's width and kind of
predictor. -/
theorem colResetMakesColumnFresh : Obligations.ColResetMakesColumnFresh := by
  unfold Obligations.ColResetMakesColumnFresh
  intro s c hr hc
  rw [exec_colReset_of_ready hr hc, colFresh_eq, ColUnit.fresh_eq]
  cases (s.cfg.col c.toNat).kind with
  | l12a => rw [PredState.fresh_l12a]
  | sl n => rw [PredState.fresh_sl]

end Sys2Proof.Machine
end

section
/-! The block controller: starting and ending a block as whole states, what TAB_END_BLOCK runs in a block that takes
commands, and the statement of 45_tablog.md R188. -/

namespace Sys2Proof.Machine

/-! ### Starting and ending a block (45_tablog.md R181, R186) -/

/-- `TAB_start_block()` leaves the whole state of R181: the header bits go behind those that were pending, through a
Framing unit that the start marker has cleared. -/
theorem tabStartBlock_eq_startedBlock {s : State} (h : s.Inv) : tabStartBlock s = startedBlock s :=
  tabStartBlock_eq h.buffer (inv_length h)

/-- `TAB_end_block()` leaves the whole state of R186. -/
theorem tabEndBlock_eq_endedBlock {s : State} (h : BufferClean s) : tabEndBlock s = endedBlock s := tabEndBlock_eq h

/-- Outside a block, a command that needs one starts it (R187, R188). -/
theorem openBlock_of_noBlock {s : State} (hb : s.block = .noBlock) : openBlock s = tabStartBlock s := by
  rw [openBlock, hb]

/-- An open block goes on. -/
theorem openBlock_of_inBlock {s : State} (hb : s.block = .inBlock) : openBlock s = s := by
  rw [openBlock, hb]

/-! ### The command, past the general checks (R188) -/

/-- TAB_END_BLOCK has no check of its own: it ends the block that is open, once there is one. -/
theorem exec_tabEndBlock_of_ready {s : State} (hr : Ready s) :
    exec .tabEndBlock s = .next (okState 0 (tabEndBlock (openBlock s))) :=
  checked_ready hr _

/-! ### The statement -/

/-- Settles O42: by the block state. An open block is ended as it stands; outside one the header is written first, and the
end bit then goes behind the header's last pending bits, which the start leaves in a clean buffer. -/
theorem tabEndBlockEndsBlock : Obligations.TabEndBlockEndsBlock := by
  unfold Obligations.TabEndBlockEndsBlock
  intro s h hr
  rw [exec_tabEndBlock_of_ready hr]
  constructor
  · intro hopen
    rw [openBlock_of_inBlock hopen, tabEndBlock_eq_endedBlock h.buffer]
  · intro hnone
    have hstarted : BufferClean (tabStartBlock s) := (inv_tabStartBlock h hr.notClosed).buffer
    rw [openBlock_of_noBlock hnone, tabEndBlock_eq_endedBlock hstarted, tabStartBlock_eq_startedBlock h]

end Sys2Proof.Machine
end

section
/-! The Framing unit: which payload bytes are escaped, the markers as whole states, what FR_BYTE, FR_START and FR_END run in
a block that takes commands, and the statements of 46_framing.md R203 to R205. -/

namespace Sys2Proof.Machine

/-! ### One payload byte (46_framing.md R200, R201) -/

theorem isFunctionByte_iff (b : Byte) : isFunctionByte b = true ↔ b = 0x6C ∨ b = 0x23 ∨ b = 0x20 := by
  simp only [isFunctionByte, Bool.or_eq_true, beq_iff_eq, or_assoc]
  rfl

theorem needsDbl_iff (e : Bool) (b : Byte) :
    needsDbl e b = true ↔ e = true ∧ (b = 0x6C ∨ b = 0x23 ∨ b = 0x20) := by
  rw [needsDbl, Bool.and_eq_true, isFunctionByte_iff]

/-- One byte is escaped by a `DBL` in front of it. -/
theorem escapeBytes_singleton_of_needsDbl {e : Bool} {b : Byte} (h : needsDbl e b = true) :
    escapeBytes e [b] = [0x20, b] := by
  rw [escapeBytes, if_pos h]
  rfl

/-- One byte that needs no `DBL` passes as it is. -/
theorem escapeBytes_singleton_of_not_needsDbl {e : Bool} {b : Byte} (h : ¬ needsDbl e b = true) :
    escapeBytes e [b] = [b] := by
  rw [escapeBytes, if_neg h]
  rfl

/-- `FR_accept(b)`, as a whole state: only OUT and the flag are written. -/
theorem frAccept_eq_escapeBytes (b : Byte) (s : State) :
    frAccept b s = { s with out := s.out ++ escapeBytes s.hadEscape [b], hadEscape := b == 0x54 } := frAccept_eq b s

/-! ### A marker (46_framing.md R202) -/

/-- `FR_mark(f)`, as a whole state: only OUT and the flag are written. -/
theorem frMark_eq_marker (f : Byte) (s : State) :
    frMark f s = { s with out := s.out ++ [0x54, f], hadEscape := false } := frMark_eq f s

/-! ### The commands, past the general checks (46_framing.md R203 to R205) -/

/-- FR_BYTE has no check of its own. -/
theorem exec_frByte_of_ready {s : State} (hr : Ready s) (b : Byte) :
    exec (.frByte b) s = .next (okState 0 (frAccept b s)) :=
  checked_ready hr _

theorem exec_frStart_of_ready {s : State} (hr : Ready s) :
    exec .frStart s = .next (okState 0 (frMark startByte s)) :=
  checked_ready hr _

theorem exec_frEnd_of_ready {s : State} (hr : Ready s) : exec .frEnd s = .next (okState 0 (frMark endByte s)) :=
  checked_ready hr _

/-! ### The statements -/

/-- Settles O48: the condition of R203 is the one under which the escaper puts a `DBL` before the byte (`needsDbl_iff`). -/
theorem frByteEscapesFunctionByte : Obligations.FrByteEscapesFunctionByte := by
  unfold Obligations.FrByteEscapesFunctionByte
  intro s b hr
  rw [exec_frByte_of_ready hr, frAccept_eq_escapeBytes, ← needsDbl_iff]
  constructor
  · intro hdbl
    rw [escapeBytes_singleton_of_needsDbl hdbl]
  · intro hplain
    rw [escapeBytes_singleton_of_not_needsDbl hplain]

/-- Settles O49: both commands are the marker of R202 with their own function byte. -/
theorem frMarkersAppendMarker : Obligations.FrMarkersAppendMarker := by
  unfold Obligations.FrMarkersAppendMarker
  intro s hr
  constructor
  · rw [exec_frStart_of_ready hr, frMark_eq_marker, startByte]
  · rw [exec_frEnd_of_ready hr, frMark_eq_marker, endByte]

end Sys2Proof.Machine
end

section
/-! The string compressor's trie and its code: a step down the trie is an edge of it, a string's code is a chain of groups;
the statements of 47_string_trie.md R217 and R225. -/

namespace Sys2Proof.Machine

/-! ### A step down the trie (R217) -/

theorem trieConditions_of_wf {cfg : Config} (h : cfg.wf = true) : TrieConditions cfg := by
  simp only [Config.wf, Bool.and_eq_true] at h
  exact (trieWf_iff cfg).1 h.2

theorem nodeMatches_iff (cfg : Config) (b : Byte) (j : Nat) :
    nodeMatches cfg b j = true ↔ ∃ n, cfg.trie[j]? = some n ∧ n.char = b := by
  unfold nodeMatches
  cases cfg.trie[j]? <;> simp

/-- An edge is a child that matches. -/
theorem trieEdge_iff (cfg : Config) (i : Nat) (b : Byte) (j : Nat) :
    TrieEdge cfg i b j ↔ TrieParent cfg i j ∧ nodeMatches cfg b j = true := by
  rw [nodeMatches_iff]
  constructor
  · rintro ⟨m, n, hm, hn, hlo, hhi, hc⟩
    exact ⟨⟨m, hm, hlo, hhi⟩, n, hn, hc⟩
  · rintro ⟨⟨m, hm, hlo, hhi⟩, n, hn, hc⟩
    exact ⟨m, n, hm, hn, hlo, hhi, hc⟩

/-- Siblings have distinct characters (R224 condition 5), so a character leads to one node at most. -/
theorem trieEdge_unique {cfg : Config} (h : TrieConditions cfg) {i j k : Nat} {b : Byte}
    (hj : TrieEdge cfg i b j) (hk : TrieEdge cfg i b k) : j = k := by
  obtain ⟨hpj, hmj⟩ := (trieEdge_iff cfg i b j).1 hj
  obtain ⟨hpk, hmk⟩ := (trieEdge_iff cfg i b k).1 hk
  obtain ⟨m, hm, hcm⟩ := (nodeMatches_iff cfg b j).1 hmj
  obtain ⟨n, hn, hcn⟩ := (nodeMatches_iff cfg b k).1 hmk
  exact h.siblingsDistinct i j k m n hpj hpk hm hn (hcm.trans hcn.symm)

/-- The node found among the children is reached by an edge. -/
theorem trieEdge_of_childFor {cfg : Config} {i j : Nat} {b : Byte} (h : childFor cfg i b = some j) :
    TrieEdge cfg i b j := by
  unfold childFor at h
  cases hn : cfg.trie[i]? with
  | none => simp [hn] at h
  | some n =>
    simp only [hn] at h
    obtain ⟨hlo, hhi⟩ := List.mem_range'_1.1 (List.mem_of_find?_eq_some h)
    exact (trieEdge_iff cfg i b j).2 ⟨⟨n, hn, hlo, hhi⟩, List.find?_some h⟩

/-- Where no child is found, there is no edge. -/
theorem not_trieEdge_of_childFor {cfg : Config} {i : Nat} {b : Byte} (h : childFor cfg i b = none) (j : Nat) :
    ¬ TrieEdge cfg i b j := by
  rw [trieEdge_iff]
  rintro ⟨⟨n, hn, hlo, hhi⟩, hm⟩
  simp only [childFor, hn, List.find?_eq_none] at h
  exact h j (List.mem_range'_1.2 ⟨hlo, hhi⟩) hm

/-! ### The descent (R217) -/

/-- The loop goes along edges only, so the bytes it has counted lead to the node it is at. -/
theorem descend_path (cfg : Config) (i len : Nat) (bs : List Byte) :
    TriePath cfg i (bs.take ((descend cfg i len bs).2 - len)) (descend cfg i len bs).1 := by
  induction bs generalizing i len with
  | nil =>
    rw [List.take_nil]
    rfl
  | cons b bs ih =>
    unfold descend
    cases hc : childFor cfg i b with
    | none =>
      simp only [Nat.sub_self, List.take_zero]
      rfl
    | some j =>
      have hlen := (descend_len cfg j (len + 1) bs).1
      have hcount : (descend cfg j (len + 1) bs).2 - len = (descend cfg j (len + 1) bs).2 - (len + 1) + 1 := by omega
      simp only [hcount, List.take_succ_cons]
      exact ⟨j, trieEdge_of_childFor hc, ih j (len + 1)⟩

/-- A path along the string takes the edges of the loop, as no others have its characters, and so ends no later. -/
theorem le_descend_of_path {cfg : Config} (h : TrieConditions cfg) (bs : List Byte) {m i j len : Nat}
    (hm : m ≤ bs.length) (hp : TriePath cfg i (bs.take m) j) : m ≤ (descend cfg i len bs).2 - len := by
  induction bs generalizing m i len with
  | nil => exact (Nat.le_zero.1 hm).trans_le (Nat.zero_le _)
  | cons b bs ih =>
    cases m with
    | zero => exact Nat.zero_le _
    | succ m =>
      rw [List.take_succ_cons] at hp
      obtain ⟨k, hk, hrest⟩ := hp
      unfold descend
      cases hc : childFor cfg i b with
      | none => exact absurd hk (not_trieEdge_of_childFor hc k)
      | some l =>
        obtain rfl : k = l := trieEdge_unique h hk (trieEdge_of_childFor hc)
        have hlen := (descend_len cfg k (len + 1) bs).1
        have hle := ih (len := len + 1) (Nat.le_of_succ_le_succ hm) hrest
        dsimp only
        omega

theorem lookupSymbol_path (cfg : Config) (b : Byte) (bs : List Byte) :
    TriePath cfg (b.toNat - cfg.firstLevelMin.toNat) (bs.take ((lookupSymbol cfg b bs).2 - 1)) (lookupSymbol cfg b bs).1 :=
  descend_path cfg _ 1 bs

theorem le_lookupSymbol_of_path {cfg : Config} (h : TrieConditions cfg) {b : Byte} {bs : List Byte} {m j : Nat}
    (hm : m ≤ bs.length) (hp : TriePath cfg (b.toNat - cfg.firstLevelMin.toNat) (bs.take m) j) :
    m ≤ (lookupSymbol cfg b bs).2 - 1 :=
  le_descend_of_path h bs hm hp

/-! ### The runs at a first character and at another byte (R218, R219) -/

theorem matchRun_ne_nil_of_isFirst {cfg : Config} {b : Byte} (h : isFirst cfg b = true) (bs : List Byte) :
    (matchRun cfg (b :: bs).length (b :: bs)).1 ≠ [] := by
  simp [matchRun, h]

theorem matchRun_of_not_isFirst {cfg : Config} {b : Byte} (h : isFirst cfg b = false) (bs : List Byte) :
    matchRun cfg (b :: bs).length (b :: bs) = ([], b :: bs) := by
  simp [matchRun, h]

theorem literalRun_ne_nil_of_not_isFirst {cfg : Config} {b : Byte} (h : isFirst cfg b = false) (bs : List Byte) :
    (literalRun cfg (b :: bs)).1 ≠ [] := by
  simp [literalRun, h]

/-! ### The groups (R220) -/

theorem matchGroupBits_nil (cfg : Config) : matchGroupBits cfg [] = [true] := by
  simp [matchGroupBits, egBits_zero]

theorem literalGroupBits_nil : literalGroupBits [] = [true] := by
  simp [literalGroupBits, egBits_zero]

theorem matchGroupBits_length_pos (cfg : Config) (syms : List Nat) : 0 < (matchGroupBits cfg syms).length := by
  rw [matchGroupBits, List.length_append, egBits_length]
  omega

theorem literalGroupBits_length_pos (lits : List Byte) : 0 < (literalGroupBits lits).length := by
  rw [literalGroupBits, List.length_append, egBits_length]
  omega

/-- Only the count 0 codes in one bit. -/
theorem one_lt_matchGroupBits_length (cfg : Config) {syms : List Nat} (h : syms ≠ []) :
    1 < (matchGroupBits cfg syms).length := by
  have hcount := one_lt_egBits_length (mt List.length_eq_zero_iff.1 h)
  rw [matchGroupBits, List.length_append]
  omega

theorem one_lt_literalGroupBits_length {lits : List Byte} (h : lits ≠ []) : 1 < (literalGroupBits lits).length := by
  have hcount := one_lt_egBits_length (mt List.length_eq_zero_iff.1 h)
  rw [literalGroupBits, List.length_append]
  omega

/-! ### The rounds of groups (R220) -/

/-- What follows the match group of a round that goes on: its literal group, and the rounds on the bytes left if that took
any. -/
def literalTailBits (cfg : Config) (k : Nat) (bs : List Byte) : List Bool :=
  literalGroupBits (literalRun cfg bs).1 ++
    if (literalRun cfg bs).1 = [] then [] else strRoundBits cfg k false (literalRun cfg bs).2

theorem literalTailBits_length_pos (cfg : Config) (k : Nat) (bs : List Byte) :
    0 < (literalTailBits cfg k bs).length := by
  have hlits := literalGroupBits_length_pos (literalRun cfg bs).1
  rw [literalTailBits, List.length_append]
  omega

theorem one_lt_literalTailBits_length {cfg : Config} {bs : List Byte} (h : (literalRun cfg bs).1 ≠ []) (k : Nat) :
    1 < (literalTailBits cfg k bs).length := by
  have hlits := one_lt_literalGroupBits_length h
  rw [literalTailBits, List.length_append]
  omega

/-- A later round without a match is the last, and its empty group is all of it. -/
theorem strRoundBits_of_no_match {cfg : Config} {bs : List Byte} (h : (matchRun cfg bs.length bs).1 = []) (k : Nat) :
    strRoundBits cfg (k + 1) false bs = [true] := by
  simp [strRoundBits, h, matchGroupBits_nil]

/-- The first round and every round with a match have both groups. -/
theorem strRoundBits_of_literals {cfg : Config} {first : Bool} {bs : List Byte}
    (h : ¬ ((matchRun cfg bs.length bs).1 = [] ∧ first = false)) (k : Nat) :
    strRoundBits cfg (k + 1) first bs =
      matchGroupBits cfg (matchRun cfg bs.length bs).1 ++ literalTailBits cfg k (matchRun cfg bs.length bs).2 := by
  rw [strRoundBits, if_neg h, literalTailBits]

theorem strBits_eq (cfg : Config) (bs : List Byte) :
    strBits cfg bs = matchGroupBits cfg (matchRun cfg bs.length bs).1 ++
      literalTailBits cfg bs.length (matchRun cfg bs.length bs).2 :=
  strRoundBits_of_literals (by simp) bs.length

/-- The last group of the rounds is empty, and its count is the code of 0. The bound k leaves a round for the bytes that a
literal run of at least one byte leaves. -/
theorem strRoundBits_getLast? (cfg : Config) {k : Nat} {first : Bool} {bs : List Byte} (hk : bs.length < k) :
    (strRoundBits cfg k first bs).getLast? = some true := by
  induction k generalizing first bs with
  | zero => exact absurd hk (Nat.not_lt_zero _)
  | succ k ih =>
    by_cases hstop : (matchRun cfg bs.length bs).1 = [] ∧ first = false
    · obtain ⟨hnone, rfl⟩ := hstop
      rw [strRoundBits_of_no_match hnone]
      rfl
    · suffices htail : (literalTailBits cfg k (matchRun cfg bs.length bs).2).getLast? = some true by
        rw [strRoundBits_of_literals hstop, List.getLast?_append, htail, Option.some_or]
      unfold literalTailBits
      by_cases hlit : (literalRun cfg (matchRun cfg bs.length bs).2).1 = []
      · rw [if_pos hlit, hlit, literalGroupBits_nil]
        rfl
      · have hrest := matchRun_rest_length cfg bs.length bs
        have hsplit := congrArg List.length (literalRun_append cfg (matchRun cfg bs.length bs).2)
        rw [List.length_append] at hsplit
        have htaken := List.length_pos_iff.2 hlit
        rw [if_neg hlit, List.getLast?_append, ih (by omega), Option.some_or]

theorem strBits_nil (cfg : Config) : strBits cfg [] = [true, true] := by
  simp [strBits_eq, matchRun, literalRun, literalTailBits, matchGroupBits_nil, literalGroupBits_nil]

/-- The first byte is in the first match group or in the first literal group, which then takes more than one bit. -/
theorem two_lt_strBits_length (cfg : Config) {bs : List Byte} (h : bs ≠ []) : 2 < (strBits cfg bs).length := by
  obtain ⟨b, rest, rfl⟩ := List.exists_cons_of_ne_nil h
  rw [strBits_eq, List.length_append]
  cases hb : isFirst cfg b with
  | true =>
    have hmatch := one_lt_matchGroupBits_length cfg (matchRun_ne_nil_of_isFirst hb rest)
    have htail := literalTailBits_length_pos cfg (b :: rest).length (matchRun cfg (b :: rest).length (b :: rest)).2
    omega
  | false =>
    rw [matchRun_of_not_isFirst hb]
    dsimp only
    have hmatch := matchGroupBits_length_pos cfg []
    have htail := one_lt_literalTailBits_length (literalRun_ne_nil_of_not_isFirst hb rest) (b :: rest).length
    omega

/-! ### The statements -/

/-- Settles O54: the code of a string is its first match group and what follows (`strBits_eq`); the length is that of the
group that takes the first byte, the last bit that of the empty group that ends the rounds. -/
theorem stringCodeShape : Obligations.StringCodeShape := by
  unfold Obligations.StringCodeShape
  intro cfg bs
  refine ⟨strBits_nil cfg, two_lt_strBits_length cfg, strRoundBits_getLast? cfg (Nat.lt_succ_self _), ?_⟩
  rintro b rest rfl hb
  exact matchRun_ne_nil_of_isFirst hb rest

/-- Settles O56: `lookup_symbol` is the descent from the first-level node, which goes along a path (`descend_path`); in a
well-formed trie no other path along the string outruns it (`le_descend_of_path`). -/
theorem lookupIsLongestPath : Obligations.LookupIsLongestPath := by
  unfold Obligations.LookupIsLongestPath
  intro cfg b bs node len hwf _ hlookup
  obtain rfl : (lookupSymbol cfg b bs).1 = node := congrArg Prod.fst hlookup
  obtain rfl : (lookupSymbol cfg b bs).2 = len := congrArg Prod.snd hlookup
  obtain ⟨hlo, hhi⟩ := lookupSymbol_len cfg b bs
  exact ⟨hlo, hhi, lookupSymbol_path cfg b bs, fun _ _ => le_lookupSymbol_of_path (trieConditions_of_wf hwf)⟩

end Sys2Proof.Machine
end

section
/-! How a command can end: it completes, it faults, or it is refused; and the statement of 60_exceptions.md R241, that one
which does not complete leaves nothing but its fault and its response. -/

namespace Sys2Proof.Machine

/-! ### The three ways a command ends (60_exceptions.md R241 to R243) -/

/-- The ways a command presented in state s ends. A completed one may leave any state behind its response; the other two are
whole states made from s itself, and which of them it is follows the fault flag of s. -/
inductive CommandEnds (s : State) : Host.Outcome State Fault Refusal → Prop where
  | completed (data : BitVec 64) (u : State) : CommandEnds s (.next (okState data u))
  | faulted (code : FaultCode) (hs : s.faulted = false) (hnone : code ≠ .none) (hrefused : code ≠ .refused) :
      CommandEnds s (.next (faultState code s))
  | refused (hs : s.faulted = true) : CommandEnds s (.next (refusedState s))

theorem commandEnds_complete (s : State) (data : BitVec 64) (u : State) : CommandEnds s (complete data u) :=
  .completed data u

theorem commandEnds_raise {s : State} (hs : s.faulted = false) {code : FaultCode} (hnone : code ≠ .none)
    (hrefused : code ≠ .refused) : CommandEnds s (raise code s) :=
  .faulted code hs hnone hrefused

/-- A check of a command's own goes on in one of two ways. -/
theorem commandEnds_ite {s : State} {p : Prop} [Decidable p] {a b : Host.Outcome State Fault Refusal}
    (ha : CommandEnds s a) (hb : CommandEnds s b) : CommandEnds s (if p then a else b) := by
  split
  · exact ha
  · exact hb

/-- The general checks (R243 steps 1 and 3): what comes after them runs in a ready block only. -/
theorem commandEnds_checked {s : State} {body : Host.Outcome State Fault Refusal}
    (hbody : Ready s → CommandEnds s body) : CommandEnds s (checked s body) := by
  cases hf : s.faulted with
  | true =>
    rw [checked_faulted hf]
    exact .refused hf
  | false =>
    cases hc : s.closed with
    | true =>
      rw [checked_closed hf hc]
      exact .faulted .afterClose hf (by decide) (by decide)
    | false =>
      have hr : Ready s := ⟨hf, hc⟩
      rw [checked_ready hr]
      exact hbody hr

/-- The check of the column index (R243 step 4). -/
theorem commandEnds_withColumn {s : State} (hr : Ready s) (c : Nat) {body : Host.Outcome State Fault Refusal}
    (hbody : CommandEnds s body) : CommandEnds s (withColumn c s body) :=
  commandEnds_ite (commandEnds_raise hr.notFaulted (by decide) (by decide)) hbody

/-- The check of one column word (R243 step 6). -/
theorem commandEnds_withColumnWord {s : State} (hr : Ready s) (c : Nat) (d : Word)
    {body : Host.Outcome State Fault Refusal} (hbody : CommandEnds s body) :
    CommandEnds s (withColumnWord c d s body) :=
  commandEnds_ite hbody (commandEnds_raise hr.notFaulted (by decide) (by decide))

/-! ### Every command ends in one of them -/

/-- Every fault of a command is raised from the state before it, so no check leaves a trace of its own. -/
theorem exec_commandEnds (i : Instr) (s : State) : CommandEnds s (exec i s) := by
  cases i with
  | bwWrite n d =>
    exact commandEnds_checked fun hr =>
      commandEnds_ite (commandEnds_raise hr.notFaulted (by decide) (by decide)) (commandEnds_complete _ _ _)
  | bwWriteBit b => exact commandEnds_checked fun _ => commandEnds_complete _ _ _
  | bwFlush => exact commandEnds_checked fun _ => commandEnds_complete _ _ _
  | bwEnd => exact commandEnds_checked fun _ => commandEnds_complete _ _ _
  | egEncode n => exact commandEnds_checked fun _ => commandEnds_complete _ _ _
  | aegEncode c n =>
    exact commandEnds_checked fun hr => commandEnds_withColumn hr _ <|
      commandEnds_ite (commandEnds_raise hr.notFaulted (by decide) (by decide)) (commandEnds_complete _ _ _)
  | predFeed c v =>
    exact commandEnds_checked fun hr => commandEnds_withColumn hr _ <|
      commandEnds_withColumnWord hr _ _ (commandEnds_complete _ _ _)
  | colWrite c v =>
    exact commandEnds_checked fun hr => commandEnds_withColumn hr _ <|
      commandEnds_withColumnWord hr _ _ (commandEnds_complete _ _ _)
  | colReset c =>
    exact commandEnds_checked fun hr => commandEnds_withColumn hr _ (commandEnds_complete _ _ _)
  | tabWriteRow vs =>
    exact commandEnds_checked fun hr =>
      commandEnds_ite (commandEnds_complete _ _ _) (commandEnds_raise hr.notFaulted (by decide) (by decide))
  | tabEndBlock => exact commandEnds_checked fun _ => commandEnds_complete _ _ _
  | tabClose => exact commandEnds_checked fun _ => commandEnds_complete _ _ _
  | statusRead => exact commandEnds_complete _ _ _
  | frByte b => exact commandEnds_checked fun _ => commandEnds_complete _ _ _
  | frStart => exact commandEnds_checked fun _ => commandEnds_complete _ _ _
  | frEnd => exact commandEnds_checked fun _ => commandEnds_complete _ _ _
  | strCompress len ws =>
    exact commandEnds_checked fun hr =>
      commandEnds_ite (commandEnds_complete _ _ _) (commandEnds_raise hr.notFaulted (by decide) (by decide))

/-! ### The statement -/

/-- Settles O17: of the three ways a command ends (`exec_commandEnds`), the completed one ends its responses with an `ok`
one, so a last response that is not `ok` leaves the two that are whole states made from s. -/
theorem failedCommandHasNoOtherEffect : Obligations.FailedCommandHasNoOtherEffect := by
  unfold Obligations.FailedCommandHasNoOtherEffect
  intro i s t r hexec hresp hfail
  have hends := exec_commandEnds i s
  rw [hexec] at hends
  cases hends with
  | completed data u =>
    have hlast : [(⟨true, .none, data⟩ : Response)] = [r] := List.append_inj_right' hresp rfl
    obtain rfl := List.singleton_inj.1 hlast
    cases hfail
  | faulted code hs hnone hrefused => exact .inr ⟨hs, code, hnone, hrefused, rfl⟩
  | refused hs => exact .inl ⟨hs, rfl⟩

end Sys2Proof.Machine
end

section
/-! The encoding of commands: a header is its four fields, a legal header is the packing of its opcode and its operand
fields, and words are their bytes; the statements of 30_encoding.md R70 to R84 and 20_memory.md R55. -/

namespace Sys2Proof

/-! ### A header is its fields (R71) -/

theorem header_ext {h g : Word} (hop : opField h = opField g) (ha : aField h = aField g) (hl : lField h = lField g)
    (hrsv : rsvField h = rsvField g) : h = g := by
  simp only [opField, aField, lField, rsvField, ← BitVec.toNat_inj, BitVec.extractLsb'_toNat, Nat.shiftRight_eq_div_pow]
    at hop ha hl hrsv
  apply BitVec.eq_of_toNat_eq
  omega

theorem opField_and (h g : Word) : opField (h &&& g) = opField h &&& opField g := BitVec.extractLsb'_and
theorem aField_and (h g : Word) : aField (h &&& g) = aField h &&& aField g := BitVec.extractLsb'_and
theorem lField_and (h g : Word) : lField (h &&& g) = lField h &&& lField g := BitVec.extractLsb'_and
theorem rsvField_and (h g : Word) : rsvField (h &&& g) = rsvField h &&& rsvField g := BitVec.extractLsb'_and

theorem opField_not (h : Word) : opField (~~~h) = ~~~opField h := BitVec.extractLsb'_not_of_lt (by decide)
theorem aField_not (h : Word) : aField (~~~h) = ~~~aField h := BitVec.extractLsb'_not_of_lt (by decide)
theorem lField_not (h : Word) : lField (~~~h) = ~~~lField h := BitVec.extractLsb'_not_of_lt (by decide)
theorem rsvField_not (h : Word) : rsvField (~~~h) = ~~~rsvField h := by
  ext i hi
  simp [rsvField]
  omega

theorem and_not_zero {w : Nat} (x : BitVec w) : x &&& ~~~0#w = x := by rw [BitVec.not_zero, BitVec.and_allOnes]

/-- The masked comparison of R75 is the check of the four fields (R80). -/
theorem and_mask_eq_match_iff (op : Opcode) (h : Word) :
    h &&& op.headerMask = op.headerMatch ↔
      opField h = op.code ∧ rsvField h = 0 ∧ lField h &&& ~~~op.lUsed = 0 ∧ aField h &&& ~~~op.aUsed = 0 := by
  have hop : opField (h &&& op.headerMask) = opField h := by
    rw [opField_and, Opcode.headerMask, opField_not, opField_packHeader]
    exact and_not_zero _
  have ha : aField (h &&& op.headerMask) = aField h &&& ~~~op.aUsed := by
    rw [aField_and, Opcode.headerMask, aField_not, aField_packHeader]
  have hl : lField (h &&& op.headerMask) = lField h &&& ~~~op.lUsed := by
    rw [lField_and, Opcode.headerMask, lField_not, lField_packHeader]
  have hrsv : rsvField (h &&& op.headerMask) = rsvField h := by
    rw [rsvField_and, Opcode.headerMask, rsvField_not, rsvField_packHeader]
    exact and_not_zero _
  rw [← hop, ← ha, ← hl, ← hrsv, Opcode.headerMatch]
  constructor
  · intro hmatch
    rw [hmatch]
    exact ⟨opField_packHeader _ _ _, rsvField_packHeader _ _ _, lField_packHeader _ _ _, aField_packHeader _ _ _⟩
  · rintro ⟨hop, hrsv, hl, ha⟩
    exact header_ext (hop.trans (opField_packHeader _ _ _).symm) (ha.trans (aField_packHeader _ _ _).symm)
      (hl.trans (lField_packHeader _ _ _).symm) (hrsv.trans (rsvField_packHeader _ _ _).symm)

/-! ### Legal headers (R75, R80) -/

theorem ofByte?_eq_some_iff (b : Byte) (op : Opcode) : Opcode.ofByte? b = some op ↔ b = op.code := by
  constructor
  · intro h
    unfold Opcode.ofByte? at h
    split at h
    all_goals cases h
    all_goals exact BitVec.eq_of_toNat_eq ‹_›
  · rintro rfl
    exact ofByte?_code op

/-- What a legal header is, field by field (R80). -/
theorem headerOpcode_eq_ok_iff (h : Word) (op : Opcode) :
    headerOpcode h = .ok op ↔
      opField h = op.code ∧ rsvField h = 0 ∧ lField h &&& ~~~op.lUsed = 0 ∧ aField h &&& ~~~op.aUsed = 0 := by
  constructor
  · intro hok
    unfold headerOpcode at hok
    split at hok
    next => cases hok
    next op' hop =>
      split at hok
      next => cases hok
      next hrsv =>
        split at hok
        next => cases hok
        next hl =>
          split at hok
          next => cases hok
          next ha =>
            cases hok
            exact ⟨(ofByte?_eq_some_iff _ _).1 hop, not_ne_iff.1 hrsv, not_ne_iff.1 hl, not_ne_iff.1 ha⟩
  · rintro ⟨hop, hrsv, hl, ha⟩
    simp [headerOpcode, hop, ofByte?_code, hrsv, hl, ha]

/-- The rows of R75 select the legal headers. -/
theorem headerOpcode_eq_ok_iff_mask (h : Word) (op : Opcode) :
    headerOpcode h = .ok op ↔ h &&& op.headerMask = op.headerMatch :=
  (headerOpcode_eq_ok_iff h op).trans (and_mask_eq_match_iff op h).symm

/-- The decoder rejects a header by one of the names of R80, never as a missing word. -/
theorem headerOpcode_error_ne {h : Word} {r : Reject} (herr : headerOpcode h = .error r) :
    r ≠ .noHeader ∧ r ≠ .incomplete := by
  unfold headerOpcode at herr
  split at herr
  · cases herr
    decide
  · split at herr
    · cases herr
      decide
    · split at herr
      · cases herr
        decide
      · split at herr
        · cases herr
          decide
        · cases herr

/-! ### The command of a header and its operand words -/

@[simp] theorem Opcode.opcode_build (op : Opcode) (h : Word) (ds : List Word) : (op.build h ds).opcode = op := by
  cases op <;> rfl

/-- A byte with no bit above bit 0 is its bit 0. -/
theorem setWidth_getLsbD_zero {a : Byte} (ha : a &&& ~~~(0x01 : Byte) = 0) :
    (BitVec.ofBool (a.getLsbD 0)).setWidth 8 = a := by
  revert a
  decide

/-- A decoded command holds the header's field A (R73). -/
theorem Opcode.aOperand_build {op : Opcode} {h : Word} (ha : aField h &&& ~~~op.aUsed = 0) (ds : List Word) :
    (op.build h ds).aOperand = aField h := by
  cases op
  case bwWriteBit => exact setWidth_getLsbD_zero ha
  case bwWrite | aegEncode | predFeed | colWrite | colReset | frByte => rfl
  all_goals exact (by rwa [← and_not_zero (aField h)] : aField h = 0).symm

/-- A decoded command holds the header's field L (R74). -/
theorem Opcode.lOperand_build {op : Opcode} {h : Word} (hl : lField h &&& ~~~op.lUsed = 0) (ds : List Word) :
    (op.build h ds).lOperand = lField h := by
  cases op
  case strCompress => rfl
  all_goals exact (by rwa [← and_not_zero (lField h)] : lField h = 0).symm

/-- A decoded command holds the operand words that its header calls for, and is well-formed (R72). -/
theorem Opcode.build_wf {op : Opcode} {h : Word} {ncol : Nat} {ds : List Word}
    (hds : ds.length = op.operandCount ncol (lField h)) :
    (op.build h ds).wf ncol = true ∧ (op.build h ds).operandWords = ds := by
  cases op
  case tabWriteRow | strCompress => exact ⟨beq_iff_eq.2 hds, rfl⟩
  case bwWrite | egEncode | aegEncode | predFeed | colWrite =>
    obtain ⟨d, rfl⟩ := List.length_eq_one_iff.1 hds
    exact ⟨rfl, rfl⟩
  all_goals
    obtain rfl := List.length_eq_zero_iff.1 hds
    exact ⟨rfl, rfl⟩

/-- A legal header is the one that its decoded command is encoded with. -/
theorem Opcode.header_build {op : Opcode} {h : Word} (hok : headerOpcode h = .ok op) (ds : List Word) :
    (op.build h ds).header = h := by
  obtain ⟨hop, hrsv, hl, ha⟩ := (headerOpcode_eq_ok_iff h op).1 hok
  rw [Instr.header, opcode_build, aOperand_build ha, lOperand_build hl]
  exact header_ext ((opField_packHeader _ _ _).trans hop.symm) (aField_packHeader _ _ _) (lField_packHeader _ _ _)
    ((rsvField_packHeader _ _ _).trans hrsv.symm)

/-- Every command's header is legal and calls for its operand words (the family of `Laws.EncodedHeader`). -/
theorem encodedHeader (i : Instr) : Laws.EncodedHeader.Statement i :=
  match i with
  | .bwWrite n d => Laws.EncodedHeader.bwWrite n d
  | .bwWriteBit b => Laws.EncodedHeader.bwWriteBit b
  | .bwFlush => Laws.EncodedHeader.bwFlush
  | .bwEnd => Laws.EncodedHeader.bwEnd
  | .egEncode n => Laws.EncodedHeader.egEncode n
  | .aegEncode c n => Laws.EncodedHeader.aegEncode c n
  | .predFeed c v => Laws.EncodedHeader.predFeed c v
  | .colWrite c v => Laws.EncodedHeader.colWrite c v
  | .colReset c => Laws.EncodedHeader.colReset c
  | .tabWriteRow vs => Laws.EncodedHeader.tabWriteRow vs
  | .tabEndBlock => Laws.EncodedHeader.tabEndBlock
  | .tabClose => Laws.EncodedHeader.tabClose
  | .statusRead => Laws.EncodedHeader.statusRead
  | .frByte b => Laws.EncodedHeader.frByte b
  | .frStart => Laws.EncodedHeader.frStart
  | .frEnd => Laws.EncodedHeader.frEnd
  | .strCompress len ws => Laws.EncodedHeader.strCompress len ws

/-- A command is the one built from its own header and operand words. -/
theorem Instr.build_header (i : Instr) : i.opcode.build i.header i.operandWords = i := by
  have hA : aField i.header = i.aOperand := aField_packHeader _ _ _
  have hL : lField i.header = i.lOperand := lField_packHeader _ _ _
  cases i
  case bwWriteBit b =>
    refine (congrArg (fun a : Byte => Instr.bwWriteBit (a.getLsbD 0)) hA).trans ?_
    cases b <;> rfl
  case bwWrite n d => exact congrArg (Instr.bwWrite · d) hA
  case aegEncode c n => exact congrArg (Instr.aegEncode · n) hA
  case predFeed c v => exact congrArg (Instr.predFeed · v) hA
  case colWrite c v => exact congrArg (Instr.colWrite · v) hA
  case colReset c => exact congrArg Instr.colReset hA
  case frByte b => exact congrArg Instr.frByte hA
  case strCompress len ws => exact congrArg (Instr.strCompress · ws) hL
  all_goals rfl

/-! ### Decoding -/

/-- What the decoder answers is the command of a legal header and of as many words after it as it calls for. -/
theorem decode_eq_ok_iff {ncol : Nat} {ws : List Word} {i : Instr} {rest : List Word} :
    decode ncol ws = .ok (i, rest) ↔
      ∃ h op ds, headerOpcode h = .ok op ∧ ds.length = op.operandCount ncol (lField h) ∧ ws = h :: (ds ++ rest) ∧
        i = op.build h ds := by
  constructor
  · intro hdec
    cases ws with
    | nil => cases hdec
    | cons h ws =>
      simp only [decode] at hdec
      split at hdec
      next => cases hdec
      next op hok =>
        split at hdec
        next => cases hdec
        next hlen =>
          cases hdec
          exact ⟨h, op, ws.take _, hok, List.length_take_of_le (Nat.not_lt.1 hlen),
            by rw [List.take_append_drop], rfl⟩
  · rintro ⟨h, op, ds, hok, hlen, rfl, rfl⟩
    simp [decode, hok, ← hlen]

end Sys2Proof

namespace Sys2Proof.Machine

/-- Settles O1: the command's header is legal and calls for its operand words, and the command is the one built from them
(`Instr.build_header`). -/
theorem decodeInvertsEncode : Obligations.DecodeInvertsEncode := by
  unfold Obligations.DecodeInvertsEncode
  intro ncol i rest hwf
  obtain ⟨hok, hlen⟩ := encodedHeader i
  exact decode_eq_ok_iff.2 ⟨_, _, _, hok, hlen ncol hwf, rfl, i.build_header.symm⟩

/-- Settles O2: a legal header is the one that its command is encoded with (`Opcode.header_build`), and the command holds
the operand words as they came in. -/
theorem encodeInvertsDecode : Obligations.EncodeInvertsDecode := by
  unfold Obligations.EncodeInvertsDecode
  intro ncol ws i rest hdec
  obtain ⟨h, op, ds, hok, hlen, rfl, rfl⟩ := decode_eq_ok_iff.1 hdec
  obtain ⟨hwf, hwords⟩ := Opcode.build_wf hlen
  refine ⟨hwf, ?_⟩
  rw [encode, Opcode.header_build hok, hwords, List.cons_append]

/-- Settles O3: a mask clears exactly the bits that the opcode uses, so the masked comparison is the check of the four
fields (`and_mask_eq_match_iff`). -/
theorem headerMaskSelectsOpcode : Obligations.HeaderMaskSelectsOpcode := by
  unfold Obligations.HeaderMaskSelectsOpcode
  exact ⟨headerOpcode_eq_ok_iff_mask, by decide⟩

/-- Words that encode a command decode to it. -/
theorem decode_of_encode_eq {ncol : Nat} {i : Instr} {ws : List Word} (hwf : i.wf ncol = true) (henc : encode i = ws) :
    decode ncol ws = .ok (i, []) := by
  rw [← henc, ← List.append_nil (encode i)]
  exact decodeInvertsEncode ncol i [] hwf

/-- Settles O4: each example is the encoding of the command beside it. -/
theorem exampleWordsDecode : Obligations.ExampleWordsDecode := by
  unfold Obligations.ExampleWordsDecode
  refine ⟨?_, ?_, ?_, ?_, ?_, ?_, ?_, ?_⟩
  all_goals exact decode_of_encode_eq (by decide) (by decide)

/-! ### Words carried as bytes (20_memory.md R55) -/

@[simp] theorem wordBytes_length (w : Word) : (wordBytes w).length = 8 := by simp [wordBytes]

theorem wordBytes_getElem? (w : Word) {i : Nat} (hi : i < 8) : (wordBytes w)[i]? = some (w.extractLsb' (8 * i) 8) := by
  simp [wordBytes, hi]

theorem bytesOfWords_cons (w : Word) (ws : List Word) : bytesOfWords (w :: ws) = wordBytes w ++ bytesOfWords ws := rfl

/-- Eight bytes, the least significant first, make their word again. -/
theorem wordsOfBytes_wordBytes_append (w : Word) (bs : List Byte) :
    wordsOfBytes (wordBytes w ++ bs) = w :: wordsOfBytes bs := by
  refine congrArg (· :: wordsOfBytes bs) ?_
  iterate 7 rw [BitVec.extractLsb'_append_extractLsb'_eq_extractLsb' (by rfl)]
  exact BitVec.extractLsb'_eq_self

theorem wordsOfBytes_bytesOfWords (ws : List Word) : wordsOfBytes (bytesOfWords ws) = ws := by
  induction ws with
  | nil => rfl
  | cons w ws ih => rw [bytesOfWords_cons, wordsOfBytes_wordBytes_append, ih]

/-- Settles O5: the eight bytes of a word come first and make the word again, and those of the next words follow. -/
theorem wordsCarriedAsBytes : Obligations.WordsCarriedAsBytes := by
  unfold Obligations.WordsCarriedAsBytes
  intro w ws
  have hbyte : ∀ i < 8, (bytesOfWords (w :: ws))[i]? = some (w.extractLsb' (8 * i) 8) := by
    intro i hi
    rw [bytesOfWords_cons, List.getElem?_append_left (by simpa using hi), wordBytes_getElem? w hi]
  refine ⟨wordsOfBytes_bytesOfWords _, ?_, hbyte, ?_⟩
  · rw [List.head?_eq_getElem?, hbyte 0 (by decide)]
    exact congrArg some ((BitVec.setWidth_eq_extractLsb' (by decide)).symm)
  · rw [bytesOfWords_cons, List.drop_left' (wordBytes_length w)]

end Sys2Proof.Machine
end

section
/-! What a completed command did: one effect for each command, and what every effect leaves alone; the statements of
60_exceptions.md R243, R244 and R248, 45_tablog.md R180, 10_state.md R24 and 42_adaptive_golomb.md R135 about every
command. -/

namespace Sys2Proof.Machine

/-! ### Commands that do not get past the general checks (60_exceptions.md R243) -/

theorem exec_eq_checked {i : Instr} (hi : i ≠ .statusRead) (s : State) : ∃ body, exec i s = checked s body := by
  cases i
  case statusRead => exact absurd rfl hi
  all_goals exact ⟨_, rfl⟩

/-- Settles O15: the check of the fault flag is the first that the command makes. -/
theorem faultedBlockRefuses : Obligations.FaultedBlockRefuses := by
  unfold Obligations.FaultedBlockRefuses
  intro i s hf hi
  obtain ⟨body, hexec⟩ := exec_eq_checked hi s
  rw [hexec, checked_faulted hf]

/-- Settles O16: the check of the close flag stands before all of a command's own. -/
theorem closedBlockFaults : Obligations.ClosedBlockFaults := by
  unfold Obligations.ClosedBlockFaults
  intro i s hf hc hi
  obtain ⟨body, hexec⟩ := exec_eq_checked hi s
  rw [hexec, checked_closed hf hc]

/-! ### The effect of a command that completes -/

/-- What each command leaves, before its response, and which of its checks it has passed. -/
inductive Effect (s : State) : Instr → State → Prop where
  | bwWrite (n : Byte) (d : Word) : Effect s (.bwWrite n d) (bwWrite d.toNat n.toNat s)
  | bwWriteBit (b : Bool) : Effect s (.bwWriteBit b) (bwWrite b.toNat 1 s)
  | bwFlush : Effect s .bwFlush (bwFlush s)
  | bwEnd : Effect s .bwEnd (bwEnd s)
  | egEncode (n : Word) : Effect s (.egEncode n) (egEncode n.toNat s)
  | aegEncode (c : Byte) (n : Word) (hc : c.toNat < s.cfg.ncol) :
      Effect s (.aegEncode c n) (aegEncode c.toNat n.toNat s)
  | predFeed (c : Byte) (d : Word) (hc : c.toNat < s.cfg.ncol) :
      Effect s (.predFeed c d) (predictAndFeed c.toNat (columnValue (s.cfg.col c.toNat).type d) s).2
  | colWrite (c : Byte) (d : Word) (hc : c.toNat < s.cfg.ncol) :
      Effect s (.colWrite c d) (colWrite c.toNat (columnValue (s.cfg.col c.toNat).type d) s)
  | colReset (c : Byte) (hc : c.toNat < s.cfg.ncol) : Effect s (.colReset c) (colFresh c.toNat s)
  | tabWriteRow (vs : List Word) (hopen : s.closed = false) :
      Effect s (.tabWriteRow vs) (codeRow vs (openBlock s))
  | tabEndBlock (hopen : s.closed = false) : Effect s .tabEndBlock (tabEndBlock (openBlock s))
  | tabClose : Effect s .tabClose (tabClose s)
  | statusRead : Effect s .statusRead s
  | frByte (b : Byte) : Effect s (.frByte b) (frAccept b s)
  | frStart : Effect s .frStart (frMark startByte s)
  | frEnd : Effect s .frEnd (frMark endByte s)
  | strCompress (len : BitVec 16) (ws : List Word) :
      Effect s (.strCompress len ws) (strCompress (stringBytes len.toNat ws) s)

/-- The state behind a response is pinned by the state with it. -/
theorem okState_inj {data data' : BitVec 64} {u v : State} (h : okState data u = okState data' v) : u = v := by
  simp only [okState, State.mk.injEq] at h
  obtain ⟨h1, h2, h3, h4, h5, h6, h7, h8, h9, h10, h11, hresp⟩ := h
  exact State.ext_fields h1 h2 h3 h4 h5 h6 h7 h8 h9 h10 h11 (List.append_inj_left' hresp rfl)

/-- A response that is `ok` is no fault's. -/
theorem raise_ne_okState (code : FaultCode) (s : State) (data : BitVec 64) (u : State) :
    raise code s ≠ .next (okState data u) := by
  intro h
  have hresp : s.responses ++ [⟨false, code, 0⟩] = u.responses ++ [⟨true, .none, data⟩] :=
    congrArg State.responses (Host.Outcome.next.inj h)
  simp at hresp

theorem refuse_ne_okState (s : State) (data : BitVec 64) (u : State) : refuse s ≠ .next (okState data u) := by
  intro h
  have hresp : s.responses ++ [⟨false, .refused, 0⟩] = u.responses ++ [⟨true, .none, data⟩] :=
    congrArg State.responses (Host.Outcome.next.inj h)
  simp at hresp

section
variable {s u : State} {data : BitVec 64} {body : Host.Outcome State Fault Refusal}

theorem eq_of_complete_eq {data' : BitVec 64} {v : State} (h : complete data' v = .next (okState data u)) : v = u :=
  okState_inj (Host.Outcome.next.inj h)

/-- A check that raises a fault has been passed by a command that completes. -/
theorem of_guard {p : Prop} [Decidable p] {code : FaultCode}
    (h : (if p then raise code s else body) = .next (okState data u)) : ¬p ∧ body = .next (okState data u) := by
  split at h
  · exact absurd h (raise_ne_okState _ _ _ _)
  · exact ⟨‹_›, h⟩

theorem of_checked (h : checked s body = .next (okState data u)) : Ready s ∧ body = .next (okState data u) := by
  unfold checked at h
  split at h
  · exact absurd h (refuse_ne_okState _ _ _)
  next hf =>
    obtain ⟨hc, hbody⟩ := of_guard h
    exact ⟨⟨by simpa using hf, by simpa using hc⟩, hbody⟩

theorem of_withColumn {c : Nat} (h : withColumn c s body = .next (okState data u)) :
    c < s.cfg.ncol ∧ body = .next (okState data u) := by
  obtain ⟨hc, hbody⟩ := of_guard h
  exact ⟨Nat.not_le.1 hc, hbody⟩

/-- A check that a command goes on from, and else faults. -/
theorem of_demand {p : Prop} [Decidable p] {code : FaultCode}
    (h : (if p then body else raise code s) = .next (okState data u)) : body = .next (okState data u) := by
  split at h
  · exact h
  · exact absurd h (raise_ne_okState _ _ _ _)

end

/-- A command that completes has passed its checks, one after another, and had its effect. -/
theorem effect_of_exec {i : Instr} {s u : State} {data : BitVec 64} (h : exec i s = .next (okState data u)) :
    Effect s i u := by
  cases i with
  | bwWrite n d =>
    obtain ⟨-, h⟩ := of_checked h
    obtain rfl := eq_of_complete_eq (of_guard h).2
    exact .bwWrite n d
  | bwWriteBit b =>
    obtain rfl := eq_of_complete_eq (of_checked h).2
    exact .bwWriteBit b
  | bwFlush =>
    obtain rfl := eq_of_complete_eq (of_checked h).2
    exact .bwFlush
  | bwEnd =>
    obtain rfl := eq_of_complete_eq (of_checked h).2
    exact .bwEnd
  | egEncode n =>
    obtain rfl := eq_of_complete_eq (of_checked h).2
    exact .egEncode n
  | aegEncode c n =>
    obtain ⟨hc, h⟩ := of_withColumn (of_checked h).2
    obtain rfl := eq_of_complete_eq (of_guard h).2
    exact .aegEncode c n hc
  | predFeed c d =>
    obtain ⟨hc, h⟩ := of_withColumn (of_checked h).2
    obtain rfl := eq_of_complete_eq (of_demand h)
    exact .predFeed c d hc
  | colWrite c d =>
    obtain ⟨hc, h⟩ := of_withColumn (of_checked h).2
    obtain rfl := eq_of_complete_eq (of_demand h)
    exact .colWrite c d hc
  | colReset c =>
    obtain ⟨hc, h⟩ := of_withColumn (of_checked h).2
    obtain rfl := eq_of_complete_eq h
    exact .colReset c hc
  | tabWriteRow vs =>
    obtain ⟨hr, h⟩ := of_checked h
    obtain rfl := eq_of_complete_eq (of_demand h)
    exact .tabWriteRow vs hr.notClosed
  | tabEndBlock =>
    obtain ⟨hr, h⟩ := of_checked h
    obtain rfl := eq_of_complete_eq h
    exact .tabEndBlock hr.notClosed
  | tabClose =>
    obtain rfl := eq_of_complete_eq (of_checked h).2
    exact .tabClose
  | statusRead =>
    obtain rfl := eq_of_complete_eq h
    exact .statusRead
  | frByte b =>
    obtain rfl := eq_of_complete_eq (of_checked h).2
    exact .frByte b
  | frStart =>
    obtain rfl := eq_of_complete_eq (of_checked h).2
    exact .frStart
  | frEnd =>
    obtain rfl := eq_of_complete_eq (of_checked h).2
    exact .frEnd
  | strCompress len ws =>
    obtain ⟨-, h⟩ := of_checked h
    obtain rfl := eq_of_complete_eq (of_demand h)
    exact .strCompress len ws

/-- Everything a command can leave: its effect and an `ok` response, a fault raised from the state before it, or a
refusal. -/
theorem exec_cases {i : Instr} {s t : State} (h : exec i s = .next t) :
    (∃ data u, t = okState data u ∧ Effect s i u) ∨
      (∃ code, s.faulted = false ∧ code ≠ .none ∧ code ≠ .refused ∧ t = faultState code s) ∨
      (s.faulted = true ∧ t = refusedState s) := by
  have hends := exec_commandEnds i s
  rw [h] at hends
  cases hends with
  | completed data u => exact .inl ⟨data, u, rfl, effect_of_exec h⟩
  | faulted code hs hnone hrefused => exact .inr (.inl ⟨code, hs, hnone, hrefused, rfl⟩)
  | refused hs => exact .inr (.inr ⟨hs, rfl⟩)

theorem exec_next (i : Instr) (s : State) : ∃ t, exec i s = .next t := by
  have hends := exec_commandEnds i s
  generalize exec i s = o at hends ⊢
  cases hends
  all_goals exact ⟨_, rfl⟩

/-! ### OUT and its flag (10_state.md R24) -/

/-- OUT and `FR.hadEscape` are both as before, or bytes were appended and the flag says whether the last one is `ESC`. -/
def FlagTracks (s t : State) : Prop :=
  (t.out = s.out ∧ t.hadEscape = s.hadEscape) ∨ ∃ b bs, t.out = s.out ++ bs ++ [b] ∧ t.hadEscape = (b == 0x54)

theorem FlagTracks.refl (s : State) : FlagTracks s s := .inl ⟨rfl, rfl⟩

theorem FlagTracks.trans {s t u : State} (h : FlagTracks s t) (k : FlagTracks t u) : FlagTracks s u := by
  rcases k with ⟨hout, hflag⟩ | ⟨b, bs, hout, hflag⟩
  · unfold FlagTracks
    rwa [hout, hflag]
  · rcases h with ⟨hout', -⟩ | ⟨b', bs', hout', -⟩
    · exact .inr ⟨b, bs, by rw [hout, hout'], hflag⟩
    · exact .inr ⟨b, bs' ++ [b'] ++ bs, by simp [hout, hout'], hflag⟩

theorem FlagTracks.out_le {s t : State} (h : FlagTracks s t) : s.out <+: t.out := by
  rcases h with ⟨hout, -⟩ | ⟨b, bs, hout, -⟩
  · rw [hout]
  · exact ⟨bs ++ [b], by rw [hout, List.append_assoc]⟩

theorem flagTracks_frAccept (b : Byte) (s : State) : FlagTracks s (frAccept b s) := by
  rw [frAccept_eq_escapeBytes]
  refine .inr ⟨b, if needsDbl s.hadEscape b then [dblByte] else [], ?_, rfl⟩
  rw [escapeBytes]
  split <;> simp

/-- A marker's function byte is not `ESC`, so the flag that it clears is true to it. -/
theorem flagTracks_frMark {f : Byte} (hf : (f == 0x54) = false) (s : State) : FlagTracks s (frMark f s) := by
  rw [frMark_eq_marker]
  exact .inr ⟨f, [0x54], by simp, hf.symm⟩

theorem flagTracks_bwWriteBit (s : State) (b : Bool) : FlagTracks s (bwWriteBit s b) := by
  unfold bwWriteBit
  dsimp only
  split
  · exact flagTracks_frAccept _ _
  · exact .refl s

theorem flagTracks_bwFlush (s : State) : FlagTracks s (bwFlush s) := by
  unfold bwFlush
  split
  · exact flagTracks_frAccept _ _
  · exact .refl s

/-! ### What every command leaves alone -/

/-- Configuration, port and responses are as before, and OUT has moved with its flag. -/
structure OutputFrame (s t : State) : Prop where
  cfg : t.cfg = s.cfg
  port : t.port = s.port
  responses : t.responses = s.responses
  flag : FlagTracks s t

theorem OutputFrame.refl (s : State) : OutputFrame s s := ⟨rfl, rfl, rfl, .refl s⟩

theorem OutputFrame.trans {s t u : State} (h : OutputFrame s t) (k : OutputFrame t u) : OutputFrame s u :=
  ⟨k.cfg.trans h.cfg, k.port.trans h.port, k.responses.trans h.responses, h.flag.trans k.flag⟩

/-- Of the block state and the columns, only the columns in cs may have changed. -/
structure ColumnFrame (cs : Set Nat) (s t : State) : Prop extends OutputFrame s t where
  block : t.block = s.block
  cols : ∀ e, e ∉ cs → t.cols[e]? = s.cols[e]?

section
variable {cs : Set Nat}

theorem ColumnFrame.refl (s : State) : ColumnFrame cs s s := ⟨.refl s, rfl, fun _ _ => rfl⟩

theorem ColumnFrame.trans {s t u : State} (h : ColumnFrame cs s t) (k : ColumnFrame cs t u) : ColumnFrame cs s u :=
  ⟨h.toOutputFrame.trans k.toOutputFrame, k.block.trans h.block, fun e he => (k.cols e he).trans (h.cols e he)⟩

theorem columnFrame_of_streamOnly {s t : State} (h : StreamOnly s t) (hf : FlagTracks s t) : ColumnFrame cs s t :=
  ⟨⟨h.cfg, h.port, h.responses, hf⟩, h.block, fun _ _ => by rw [h.cols]⟩

theorem columnFrame_foldl {α : Type} {f : State → α → State} (hf : ∀ s a, ColumnFrame cs s (f s a)) (as : List α)
    (s : State) : ColumnFrame cs s (as.foldl f s) := by
  induction as generalizing s with
  | nil => exact .refl s
  | cons a as ih => exact (hf s a).trans (ih _)

theorem columnFrame_frAccept (b : Byte) (s : State) : ColumnFrame cs s (frAccept b s) :=
  columnFrame_of_streamOnly (streamOnly_frAccept b s) (flagTracks_frAccept b s)

theorem columnFrame_frMark {f : Byte} (hf : (f == 0x54) = false) (s : State) : ColumnFrame cs s (frMark f s) :=
  columnFrame_of_streamOnly (streamOnly_frMark f s) (flagTracks_frMark hf s)

theorem columnFrame_bwWrite (d n : Nat) (s : State) : ColumnFrame cs s (bwWrite d n s) :=
  columnFrame_foldl (fun s b => columnFrame_of_streamOnly (streamOnly_bwWriteBit s b) (flagTracks_bwWriteBit s b)) _ s

theorem columnFrame_bwFlush (s : State) : ColumnFrame cs s (bwFlush s) :=
  columnFrame_of_streamOnly (streamOnly_bwFlush s) (flagTracks_bwFlush s)

theorem columnFrame_bwEnd (s : State) : ColumnFrame cs s (bwEnd s) :=
  (columnFrame_bwWrite 1 1 s).trans (columnFrame_bwFlush _)

theorem columnFrame_egEncode (n : Nat) (s : State) : ColumnFrame cs s (egEncode n s) :=
  ((columnFrame_bwWrite _ _ s).trans (columnFrame_bwWrite _ _ _)).trans (columnFrame_bwWrite _ _ _)

theorem columnFrame_setUnit {c : Nat} (hc : c ∈ cs) (u : ColUnit) (s : State) : ColumnFrame cs s (setUnit c u s) :=
  ⟨⟨rfl, rfl, rfl, .inl ⟨rfl, rfl⟩⟩, rfl, fun _ he => List.getElem?_set_ne (ne_of_mem_of_not_mem hc he)⟩

theorem columnFrame_aegEncode {c : Nat} (hc : c ∈ cs) (n : Nat) (s : State) : ColumnFrame cs s (aegEncode c n s) :=
  ((columnFrame_egEncode _ s).trans (columnFrame_bwWrite _ _ _)).trans (columnFrame_setUnit hc _ _)

theorem columnFrame_predictAndFeed {c : Nat} (hc : c ∈ cs) (v : Int) (s : State) :
    ColumnFrame cs s (predictAndFeed c v s).2 := columnFrame_setUnit hc _ s

theorem columnFrame_colWrite {c : Nat} (hc : c ∈ cs) (v : Int) (s : State) : ColumnFrame cs s (colWrite c v s) := by
  have hfeed := columnFrame_predictAndFeed hc v s
  unfold colWrite
  dsimp only
  split
  · exact hfeed.trans (columnFrame_bwWrite _ _ _)
  · exact hfeed.trans (((columnFrame_bwWrite _ _ _).trans (columnFrame_bwWrite _ _ _)).trans
      (columnFrame_aegEncode hc _ _))

theorem columnFrame_colFresh {c : Nat} (hc : c ∈ cs) (s : State) : ColumnFrame cs s (colFresh c s) :=
  columnFrame_setUnit hc _ s

theorem columnFrame_emitSymbol (s : State) (node : Nat) : ColumnFrame cs s (emitSymbol s node) := by
  unfold emitSymbol
  split
  · exact columnFrame_bwWrite _ _ s
  · exact .refl s

theorem columnFrame_emitMatchGroup (syms : List Nat) (s : State) : ColumnFrame cs s (emitMatchGroup syms s) :=
  (columnFrame_egEncode _ s).trans (columnFrame_foldl columnFrame_emitSymbol syms _)

theorem columnFrame_emitLiteralGroup (lits : List Byte) (s : State) : ColumnFrame cs s (emitLiteralGroup lits s) :=
  (columnFrame_egEncode _ s).trans
    (columnFrame_foldl (f := emitLiteral) (fun s b => columnFrame_bwWrite b.toNat 8 s) lits _)

theorem columnFrame_strRounds (cfg : Config) (k : Nat) (first : Bool) (bs : List Byte) (s : State) :
    ColumnFrame cs s (strRounds cfg k first bs s) := by
  induction k generalizing first bs s with
  | zero => exact .refl s
  | succ k ih =>
    unfold strRounds
    dsimp only
    have hmatch := columnFrame_emitMatchGroup (cs := cs) (matchRun cfg bs.length bs).1 s
    split
    · exact hmatch
    · have hboth := hmatch.trans (columnFrame_emitLiteralGroup (literalRun cfg (matchRun cfg bs.length bs).2).1 _)
      split
      · exact hboth
      · exact hboth.trans (ih _ _ _)

theorem columnFrame_strCompress (bs : List Byte) (s : State) : ColumnFrame cs s (strCompress bs s) :=
  columnFrame_strRounds _ _ _ _ _

theorem columnFrame_headerColumn (s : State) (c : Nat) : ColumnFrame cs s (headerColumn s c) :=
  ((columnFrame_strCompress _ s).trans (columnFrame_bwWrite _ _ _)).trans (columnFrame_bwWrite _ _ _)

end

theorem columnFrame_freshColumns (s : State) : ColumnFrame Set.univ s (freshColumns s) :=
  columnFrame_foldl (fun s c => columnFrame_colFresh (Set.mem_univ c) s) _ s

theorem columnFrame_codeRow (vs : List Word) (s : State) : ColumnFrame Set.univ s (codeRow vs s) :=
  columnFrame_foldl (fun s c => columnFrame_colWrite (Set.mem_univ c) _ s) _ s

/-! ### The block controller's own writes (45_tablog.md R180) -/

theorem outputFrame_setBlock (s : State) (b : BlockState) : OutputFrame s (s.setBlock b) := ⟨rfl, rfl, rfl, .refl _⟩

theorem outputFrame_tabStartBlock (s : State) : OutputFrame s (tabStartBlock s) := by
  have hmark := (columnFrame_freshColumns s).trans (columnFrame_frMark (f := startByte) (by decide) _)
  have hcounts := hmark.trans
    ((columnFrame_egEncode (s.cfg.formatVersion + 1) _).trans (columnFrame_egEncode s.cfg.ncol _))
  have hheader := hcounts.trans (columnFrame_foldl columnFrame_headerColumn (List.range s.cfg.ncol) _)
  exact hheader.toOutputFrame.trans (outputFrame_setBlock _ _)

theorem outputFrame_openBlock (s : State) : OutputFrame s (openBlock s) := by
  unfold openBlock
  split
  · exact outputFrame_tabStartBlock s
  · exact .refl s

theorem openBlock_block (s : State) : (openBlock s).block = .inBlock := by
  unfold openBlock
  split
  · rfl
  · assumption

theorem columnFrame_endMarker (s : State) : ColumnFrame ∅ s (frMark endByte (bwEnd s)) :=
  (columnFrame_bwEnd s).trans (columnFrame_frMark (by decide) _)

theorem outputFrame_tabEndBlock (s : State) : OutputFrame s (tabEndBlock s) :=
  (columnFrame_endMarker s).toOutputFrame.trans (outputFrame_setBlock _ _)

theorem tabEndBlock_cols (s : State) : (tabEndBlock s).cols = s.cols :=
  List.ext_getElem? fun e => (columnFrame_endMarker s).cols e (Set.notMem_empty e)

theorem outputFrame_tabClose (s : State) : OutputFrame s (tabClose s) := by
  unfold tabClose
  dsimp only
  split
  · exact (outputFrame_tabEndBlock s).trans ⟨rfl, rfl, rfl, .refl _⟩
  · exact ⟨rfl, rfl, rfl, .refl _⟩

theorem tabClose_block (s : State) : (tabClose s).block = .noBlock := by
  unfold tabClose
  dsimp only
  split
  · rfl
  · assumption

theorem tabClose_cols (s : State) : (tabClose s).cols = s.cols := by
  unfold tabClose
  dsimp only
  split
  · exact tabEndBlock_cols s
  · rfl

/-! ### The frame of an effect -/

/-- The columns that a command names: the one of its index, or none. -/
def namedColumns : Instr → Set Nat
  | .aegEncode c _ => {c.toNat}
  | .predFeed c _ => {c.toNat}
  | .colWrite c _ => {c.toNat}
  | .colReset c => {c.toNat}
  | .bwWrite _ _ | .bwWriteBit _ | .bwFlush | .bwEnd | .egEncode _ | .tabWriteRow _ | .tabEndBlock | .tabClose
  | .statusRead | .frByte _ | .frStart | .frEnd | .strCompress _ _ => ∅

/-- A command outside the block controller leaves the block state, and the columns it does not name. -/
theorem Effect.columnFrame {i : Instr} {s u : State} (h : Effect s i u) (hrow : ∀ vs, i ≠ .tabWriteRow vs)
    (hend : i ≠ .tabEndBlock) (hclose : i ≠ .tabClose) : ColumnFrame (namedColumns i) s u := by
  cases h with
  | bwWrite n d => exact columnFrame_bwWrite _ _ s
  | bwWriteBit b => exact columnFrame_bwWrite _ _ s
  | bwFlush => exact columnFrame_bwFlush s
  | bwEnd => exact columnFrame_bwEnd s
  | egEncode n => exact columnFrame_egEncode _ s
  | aegEncode c n hc => exact columnFrame_aegEncode (Set.mem_singleton _) _ s
  | predFeed c d hc => exact columnFrame_predictAndFeed (Set.mem_singleton _) _ s
  | colWrite c d hc => exact columnFrame_colWrite (Set.mem_singleton _) _ s
  | colReset c hc => exact columnFrame_colFresh (Set.mem_singleton _) s
  | tabWriteRow vs => exact absurd rfl (hrow vs)
  | tabEndBlock => exact absurd rfl hend
  | tabClose => exact absurd rfl hclose
  | statusRead => exact .refl s
  | frByte b => exact columnFrame_frAccept b s
  | frStart => exact columnFrame_frMark (by decide) s
  | frEnd => exact columnFrame_frMark (by decide) s
  | strCompress len ws => exact columnFrame_strCompress _ s

theorem Effect.outputFrame {i : Instr} {s u : State} (h : Effect s i u) : OutputFrame s u := by
  cases i
  case tabWriteRow vs =>
    cases h
    exact (outputFrame_openBlock s).trans (columnFrame_codeRow vs _).toOutputFrame
  case tabEndBlock =>
    cases h
    exact (outputFrame_openBlock s).trans (outputFrame_tabEndBlock _)
  case tabClose =>
    cases h
    exact outputFrame_tabClose s
  all_goals exact (h.columnFrame nofun nofun nofun).toOutputFrame

/-- A command whose response is `ok` has completed. -/
theorem completed_of_response {i : Instr} {s t : State} {data : BitVec 64} (h : exec i s = .next t)
    (hresp : t.responses = s.responses ++ [⟨true, .none, data⟩]) : ∃ u, t = okState data u ∧ Effect s i u := by
  rcases exec_cases h with ⟨data', u, rfl, heff⟩ | ⟨code, -, -, -, rfl⟩ | ⟨-, rfl⟩
  · have hlast := List.append_inj_right' hresp rfl
    obtain rfl : data' = data := congrArg Response.data (List.singleton_inj.1 hlast)
    exact ⟨u, rfl, heff⟩
  · simp [faultState] at hresp
  · simp [refusedState] at hresp

/-! ### The statements -/

/-- Settles O13: a completed command's response stands behind its effect, which has none; the two other ways to end are s
itself with a response. -/
theorem everyCommandRespondsOnce : Obligations.EveryCommandRespondsOnce := by
  unfold Obligations.EveryCommandRespondsOnce
  intro i s
  obtain ⟨t, ht⟩ := exec_next i s
  rcases exec_cases ht with ⟨data, u, rfl, heff⟩ | ⟨code, -, -, -, rfl⟩ | ⟨-, rfl⟩
  · obtain ⟨hcfg, hport, hresp, -⟩ := heff.outputFrame
    exact ⟨_, _, ht, congrArg (· ++ _) hresp, hcfg, hport⟩
  · exact ⟨_, _, ht, rfl, rfl, rfl⟩
  · exact ⟨_, _, ht, rfl, rfl, rfl⟩

/-- Settles O45: the block controller's three commands end in the write of their block state, or of the block that was open
already; every other effect leaves it (`Effect.columnFrame`). -/
theorem blockStateMachine : Obligations.BlockStateMachine := by
  unfold Obligations.BlockStateMachine
  intro i s t data hexec hresp
  obtain ⟨u, rfl, heff⟩ := completed_of_response hexec hresp
  refine ⟨?_, ?_, ?_⟩
  · rintro ⟨vs, rfl⟩
    cases heff
    exact (columnFrame_codeRow vs _).block.trans (openBlock_block s)
  · rintro (rfl | rfl)
    · cases heff
      rfl
    · cases heff
      exact tabClose_block s
  · intro hrow hend hclose
    exact (heff.columnFrame hrow hend hclose).block

/-- Settles O52: the flag moves with OUT in every effect, and a command that does not complete writes neither. -/
theorem escapeFlagTracksLastByte : Obligations.EscapeFlagTracksLastByte := by
  unfold Obligations.EscapeFlagTracksLastByte
  intro i s t hexec
  rcases exec_cases hexec with ⟨data, u, rfl, heff⟩ | ⟨code, -, -, -, rfl⟩ | ⟨-, rfl⟩
  · exact heff.outputFrame.flag
  · exact .inl ⟨rfl, rfl⟩
  · exact .inl ⟨rfl, rfl⟩

/-- Settles O57: the frame of an effect is the columns that its command names (`Effect.columnFrame`), and TAB_CLOSE, the
one command of the block controller in the second clause, ends the block without a write of a column. -/
theorem columnsChangeOnlyWhereNamed : Obligations.ColumnsChangeOnlyWhereNamed := by
  unfold Obligations.ColumnsChangeOnlyWhereNamed
  intro i s t hexec
  rcases exec_cases hexec with ⟨data, u, rfl, heff⟩ | ⟨code, -, -, -, rfl⟩ | ⟨-, rfl⟩
  · constructor
    · rintro c d (rfl | rfl | rfl | rfl)
      all_goals exact (heff.columnFrame nofun nofun nofun).cols
    · intro hnone hrow hend
      by_cases hclose : i = .tabClose
      · subst hclose
        cases heff
        exact tabClose_cols s
      · refine List.ext_getElem? fun e => (heff.columnFrame hrow hend hclose).cols e ?_
        cases i
        case aegEncode c d => exact absurd rfl (hnone c d).1
        case predFeed c d => exact absurd rfl (hnone c d).2.1
        case colWrite c d => exact absurd rfl (hnone c d).2.2.1
        case colReset c => exact absurd rfl (hnone c 0).2.2.2
        all_goals exact Set.notMem_empty e
  · exact ⟨fun _ _ _ _ _ => rfl, fun _ _ _ => rfl⟩
  · exact ⟨fun _ _ _ _ _ => rfl, fun _ _ _ => rfl⟩

end Sys2Proof.Machine
end

section
/-! Operands and what makes a command fault by them, and STATUS: column words, packed strings, the checks that fail, and the
fields of the status word; the statements of 30_encoding.md R76 and R77, 60_exceptions.md R240 and R243, 47_string_trie.md
R223 and 45_tablog.md R190. -/

namespace Sys2Proof.Machine

/-! ### Well-formed column words (30_encoding.md R76) -/

/-- Every word's low W bits, read as the type, are a value of it. -/
theorem holds_columnValue (t : ColumnType) (d : Word) : t.holds (columnValue t d) = true := by
  rw [columnValue]
  split
  next ht => exact (holds_iff_of_signed ht _).2 ⟨BitVec.le_toInt _, BitVec.toInt_lt⟩
  next ht =>
    refine (holds_iff_of_unsigned ht _).2 ⟨Int.natCast_nonneg _, ?_⟩
    exact_mod_cast (d.setWidth t.bits).isLt

theorem columnWordOk_iff (t : ColumnType) (d : Word) : columnWordOk t d = true ↔ ∃ v, Carries t d v := by
  constructor
  · intro hok
    have hv := holds_columnValue t d
    rw [columnWordOk_eq, beq_iff_eq, columnWord_of_holds hv] at hok
    exact ⟨_, hv, hok⟩
  · rintro ⟨v, hd⟩
    exact columnWordOk_of_carries hd

theorem columnWordOk_eq_false {t : ColumnType} {d : Word} (h : ∀ v, ¬ Carries t d v) : columnWordOk t d = false := by
  rw [Bool.eq_false_iff, Ne, columnWordOk_iff, not_exists]
  exact h

/-- Settles O33: a well-formed word is the 64-bit form of the value it is read as, and no other value has that form. -/
theorem columnWordCarriesValue : Obligations.ColumnWordCarriesValue := by
  unfold Obligations.ColumnWordCarriesValue
  intro t d
  refine ⟨columnWordOk_iff t d, fun v hd => ⟨columnValue_of_carries hd, ?_⟩⟩
  rw [columnWord_of_holds hd.1]
  exact hd.2.symm

/-! ### The checks of R243 that fail -/

/-- Settles O19: each command's own first check fails, before it looks at its operand word. -/
theorem columnIndexAndBitCountFault : Obligations.ColumnIndexAndBitCountFault := by
  unfold Obligations.ColumnIndexAndBitCountFault
  intro s d hr
  have hcheck : ∀ {c : Byte}, s.cfg.ncol ≤ c.toNat → ∀ body,
      checked s (withColumn c.toNat s body) = .next (faultState .columnRange s) := fun hc body => by
    rw [checked_ready hr, withColumn_ge hc]
  refine ⟨fun c hc => ⟨hcheck hc _, hcheck hc _, hcheck hc _, hcheck hc _⟩, fun n hn => ?_⟩
  change execBwWrite n d s = _
  rw [execBwWrite, checked_ready hr, if_pos hn, raise_eq]

/-- One bad word makes a row bad (45_tablog.md R187). -/
theorem rowOk_eq_false {cfg : Config} {vs : List Word} {i : Nat} (hi : i < cfg.ncol)
    (hbad : columnWordOk (cfg.col i).type (vs.getD i 0) = false) : rowOk cfg vs = false :=
  List.all_eq_false.2 ⟨i, List.mem_range.2 hi, by rw [hbad]; decide⟩

/-- Settles O20: the operand's check is the command's last, and a word that carries no value does not pass it. -/
theorem valueRangeFaults : Obligations.ValueRangeFaults := by
  unfold Obligations.ValueRangeFaults
  intro s hr
  refine ⟨fun c n hc hn => ?_, fun c d hc hd => ?_, fun vs i _ hi hd => ?_⟩
  · change execAegEncode c n s = _
    rw [execAegEncode, checked_ready hr, withColumn_lt hc, if_pos hn, raise_eq]
  · have hbad := columnWordOk_eq_false hd
    have hcheck : ∀ body, checked s (withColumn c.toNat s (withColumnWord c.toNat d s body)) =
        .next (faultState .valueRange s) := fun body => by
      rw [checked_ready hr, withColumn_lt hc, withColumnWord_bad hbad]
    exact ⟨hcheck _, hcheck _⟩
  · change execTabWriteRow vs s = _
    rw [execTabWriteRow, checked_ready hr, rowOk_eq_false hi (columnWordOk_eq_false hd)]
    exact raise_eq _ _

/-! ### Packed strings (30_encoding.md R77) -/

theorem packedByte_cons_of_lt (w : Word) (ws : List Word) {i : Nat} (hi : i < 8) :
    packedByte (w :: ws) i = w.extractLsb' (8 * i) 8 := by
  rw [packedByte, Nat.div_eq_of_lt hi, Nat.mod_eq_of_lt hi]
  rfl

theorem packedByte_cons_add (w : Word) (ws : List Word) (i : Nat) : packedByte (w :: ws) (8 + i) = packedByte ws i := by
  rw [packedByte, Nat.add_div_left i (by decide), Nat.add_mod_left]
  rfl

/-- The bytes of the operand words are the packed bytes in order. -/
theorem bytesOfWords_eq_map_packedByte (ws : List Word) :
    bytesOfWords ws = (List.range (8 * ws.length)).map (packedByte ws) := by
  induction ws with
  | nil => rfl
  | cons w ws ih =>
    rw [List.length_cons, Nat.mul_succ, Nat.add_comm, List.range_add, List.map_append, List.map_map, bytesOfWords_cons, ih]
    have hword : wordBytes w = (List.range 8).map (packedByte (w :: ws)) :=
      List.map_congr_left fun i hi => (packedByte_cons_of_lt w ws (List.mem_range.1 hi)).symm
    rw [hword]
    exact congrArg (_ ++ ·) (List.map_congr_left fun i _ => (packedByte_cons_add w ws i).symm)

theorem paddingClear_iff (len : Nat) (ws : List Word) :
    paddingClear len ws = true ↔ ∀ i, len ≤ i → i < 8 * ws.length → packedByte ws i = 0 := by
  rw [paddingClear, bytesOfWords_eq_map_packedByte, ← List.map_drop, List.range_eq_range', List.drop_range', List.all_map,
    List.all_eq_true]
  simp only [List.mem_range'_1, Function.comp_apply, beq_iff_eq]
  constructor
  · intro h i hlo hhi
    exact h i (by omega)
  · intro h i hi
    exact h i (by omega) (by omega)

/-- As many words as R72 calls for hold the string. -/
theorem stringBytes_eq_map_packedByte {len : Nat} {ws : List Word} (h : ws.length = stringWords len) :
    stringBytes len ws = (List.range len).map (packedByte ws) := by
  have hlen : len ≤ 8 * ws.length := by
    rw [h, stringWords]
    omega
  rw [stringBytes, bytesOfWords_eq_map_packedByte, ← List.map_take, List.take_range, min_eq_left hlen]

/-- Settles O21: the byte is one of those that the padding check reads. -/
theorem stringPaddingFaults : Obligations.StringPaddingFaults := by
  unfold Obligations.StringPaddingFaults
  intro s len ws i hr _ hlo hhi hne
  have hbad : ¬ paddingClear len.toNat ws = true := fun hclear => hne ((paddingClear_iff _ _).1 hclear i hlo hhi)
  change execStrCompress len ws s = _
  rw [execStrCompress, checked_ready hr, if_neg hbad, raise_eq]

/-- Settles O53: clear padding passes the command's check, the words hold the string's bytes in order, and the rounds of
`STR_compress` are one append of its code (`strCompress_eq`). -/
theorem strCompressAppendsCode : Obligations.StrCompressAppendsCode := by
  unfold Obligations.StrCompressAppendsCode
  intro s len ws hr hb hlen hpad
  change execStrCompress len ws s = _
  rw [execStrCompress, checked_ready hr, if_pos ((paddingClear_iff _ _).2 hpad), stringBytes_eq_map_packedByte hlen,
    strCompress_eq _ hb, complete_eq]

/-! ### STATUS (10_state.md R34) -/

/-- A field of STATUS is cut out of the append of all of them. -/
theorem statusWord_extractLsb' (s : State) (start len : Nat) :
    (statusWord s).extractLsb' start len =
      BitVec.extractLsb' (n := 32 + 8 + 8 + 4 + 4 + 1 + 1 + 1 + 1 + 1 + 3) start len
        (0#32 ++ BitVec.ofNat 8 s.cfg.ncol ++ s.bwBuffer ++ 0#4 ++ s.faultCode.bits ++ 0#1 ++ BitVec.ofBool s.faulted ++
          BitVec.ofBool s.closed ++ BitVec.ofBool s.block.bit ++ BitVec.ofBool s.hadEscape ++ s.bwUsed) := rfl

/-- A flag of STATUS is a field of one bit. -/
theorem statusWord_getLsbD {s : State} {i : Nat} {b : Bool} (h : (statusWord s).extractLsb' i 1 = BitVec.ofBool b) :
    (statusWord s).getLsbD i = b := by
  rw [BitVec.getLsbD_eq_extractLsb', h]
  cases b <;> rfl

theorem BlockState.bit_eq (b : BlockState) : b.bit = (b == .inBlock) := by cases b <;> rfl

/-- Settles O44: every field stands in the append above those before it, and takes as many bits as it has. -/
theorem statusReadReturnsStatus : Obligations.StatusReadReturnsStatus := by
  unfold Obligations.StatusReadReturnsStatus
  refine ⟨fun s => ⟨statusWord s, complete_eq _ s, ?used, statusWord_getLsbD ?escape, statusWord_getLsbD ?block,
    statusWord_getLsbD ?closed, statusWord_getLsbD ?faulted, statusWord_getLsbD ?zero, ?code, ?zeros, ?buffer, ?ncol,
    ?high⟩, rfl, rfl, rfl, rfl, rfl, rfl, rfl⟩
  all_goals
    rw [statusWord_extractLsb']
    repeat rw [BitVec.extractLsb'_append_eq_of_le (by decide)]
  case high => exact BitVec.extractLsb'_eq_self
  all_goals rw [BitVec.extractLsb'_append_eq_of_add_le (by decide)]
  case block => exact BitVec.extractLsb'_eq_self.trans (congrArg _ (BlockState.bit_eq _))
  case ncol => exact (congrArg BitVec.toNat BitVec.extractLsb'_eq_self).trans (BitVec.toNat_ofNat _ _)
  all_goals exact BitVec.extractLsb'_eq_self

end Sys2Proof.Machine
end

section
/-! The invariants: which configurations are well-formed, that a reset satisfies the invariants, and that every effect and
so every step keeps them; the statements of 00_scope.md R8 and 10_state.md R22 to R37. -/

namespace Sys2Proof.Machine

/-! ### Well-formed configurations (00_scope.md R8) -/

theorem wf_iff_configConditions (cfg : Config) : cfg.wf = true ↔ ConfigConditions cfg := by
  simp only [Config.wf, Bool.and_eq_true, decide_eq_true_eq, List.all_eq_true, predKind_wf_iff, l12aInitFits_iff,
    fitsAt_iff, trieWf_iff]
  constructor
  · rintro ⟨⟨⟨⟨⟨⟨hcols, hkinds⟩, hsel, hinit⟩, hnames⟩, hversion⟩, ⟨⟨h8, h16⟩, h32⟩, h64⟩, htrie⟩
    refine ⟨hcols, hkinds, hinit, hsel, hnames, hversion, fun w => ?_, htrie⟩
    cases w
    · exact h8
    · exact h16
    · exact h32
    · exact h64
  · intro h
    exact ⟨⟨⟨⟨⟨⟨h.columns, h.slLength⟩, h.selector, h.l12aInit⟩, h.names⟩, h.version⟩,
      ⟨⟨h.maxState .one, h.maxState .two⟩, h.maxState .four⟩, h.maxState .eight⟩, h.trie⟩

/-! ### Reset (10_state.md R37) -/

theorem cols_getElem?_of_lt {cfg : Config} {c : Nat} (hc : c < cfg.ncol) : cfg.cols[c]? = some (cfg.col c) := by
  have hget := List.getElem?_eq_getElem hc
  rw [Config.col, List.getD_eq_getElem?_getD, hget, Option.getD_some]

theorem fresh_aeg_toNat (cfg : Config) (cc : ColumnConfig) :
    (ColUnit.fresh cfg cc).aeg.toNat = 4 * cc.type.width.bytes := by
  rw [ColUnit.fresh_aeg]
  cases cc.type.width <;> rfl

/-- A fresh unit of a well-formed configuration fits its column: only the configuration decides it. -/
theorem fresh_fits_of_wf {cfg : Config} (h : cfg.wf = true) {cc : ColumnConfig} (hcc : cc ∈ cfg.cols) :
    (ColUnit.fresh cfg cc).fits cfg cc = true := by
  have hconf := (wf_iff_configConditions cfg).1 h
  rw [ColUnit.fits, Bool.and_eq_true, decide_eq_true_eq, fresh_aeg_toNat, ColUnit.fresh_pred]
  refine ⟨(hconf.maxState _).1, ?_⟩
  cases hk : cc.kind with
  | l12a =>
    obtain ⟨h0, h1⟩ := hconf.l12aInit cc hcc hk
    exact (fits_l12a_iff hk _ _ _).2 ⟨(holds_iff _ _).2 h0, (holds_iff _ _).2 h1⟩
  | sl n => exact (fits_sl_iff hk []).2 ⟨Nat.zero_le n, nofun⟩

theorem unitsFit_freshUnits {cfg : Config} (h : cfg.wf = true) : unitsFit cfg cfg.cols (freshUnits cfg) = true := by
  refine (unitsFit_iff _ _ _).2 ⟨List.length_map _, fun c cc u hc hu => ?_⟩
  rw [freshUnits, List.getElem?_map, hc] at hu
  obtain rfl := Option.some.inj hu
  exact fresh_fits_of_wf h (List.mem_of_getElem? hc)

/-- Every register at its reset value satisfies the invariants, whatever OUT, the port and the responses hold. -/
theorem inv_resetBlock {s : State} (h : s.cfg.wf = true) : (resetBlock s).Inv :=
  ⟨h, Nat.one_pos, nofun, nofun, iff_of_true rfl rfl, nofun, unitsFit_freshUnits h⟩

/-- Settles O59: a state with the reset values is one that a reset leaves, and the fresh units stand in column order. -/
theorem resetStateSatisfiesInv : Obligations.ResetStateSatisfiesInv := by
  unfold Obligations.ResetStateSatisfiesInv
  have hinv : ∀ cfg : Config, cfg.wf = true → (State.resetWith cfg).Inv := fun cfg h =>
    inv_resetBlock (s := State.resetWith cfg) h
  refine ⟨hinv _ (by decide), hinv, fun cfg => ?_⟩
  refine ⟨rfl, rfl, rfl, rfl, rfl, rfl, rfl, rfl, List.length_map _, fun c hc => ?_⟩
  have hunit : (State.resetWith cfg).cols[c]? = some (ColUnit.fresh cfg (cfg.col c)) := by
    rw [State.resetWith, List.getElem?_map, cols_getElem?_of_lt hc, Option.map_some]
  rw [hunit, ColUnit.fresh_eq]
  cases (cfg.col c).kind with
  | l12a => rw [PredState.fresh_l12a]
  | sl n => rw [PredState.fresh_sl]

/-! ### Every effect keeps the invariants -/

theorem inv_bwWrite {s : State} (h : s.Inv) (d n : Nat) : (bwWrite d n s).Inv := by
  rw [bwWrite_eq h.buffer]
  exact inv_appendBits h _

theorem inv_bwFlush {s : State} (h : s.Inv) : (bwFlush s).Inv := by
  unfold bwFlush
  split
  · exact inv_dropBits (inv_frAccept h _)
  · exact h

theorem inv_egEncode {s : State} (h : s.Inv) (n : Nat) : (egEncode n s).Inv := by
  rw [egEncode_eq h.buffer]
  exact inv_appendBits h _

theorem inv_strCompress {s : State} (h : s.Inv) (bs : List Byte) : (strCompress bs s).Inv := by
  rw [strCompress_eq bs h.buffer]
  exact inv_appendBits h _

/-- Each value of a row is what its word's low bits are read as, so it is one of the column's type. -/
theorem inv_codeRow {s : State} (h : s.Inv) (vs : List Word) : (codeRow vs s).Inv := by
  suffices hfold : ∀ (cs : List Nat) (t : State), t.Inv → (∀ c ∈ cs, c < t.cfg.ncol) →
      (cs.foldl (fun t i => colWrite i (columnValue (t.cfg.col i).type (vs.getD i 0)) t) t).Inv from
    hfold _ s h fun _ hc => List.mem_range.1 hc
  intro cs
  induction cs with
  | nil => exact fun t ht _ => ht
  | cons c cs ih =>
    intro t ht hlt
    have hcfg := (columnFrame_colWrite (Set.mem_univ c) (columnValue (t.cfg.col c).type (vs.getD c 0)) t).cfg
    refine ih _ (inv_colWrite ht (hlt c List.mem_cons_self) (holds_columnValue _ _)) fun d hd => ?_
    rw [hcfg]
    exact hlt d (List.mem_cons_of_mem c hd)

theorem inv_openBlock {s : State} (h : s.Inv) (hopen : s.closed = false) : (openBlock s).Inv := by
  unfold openBlock
  split
  · exact inv_tabStartBlock h hopen
  · exact h

theorem inv_tabClose {s : State} (h : s.Inv) : (tabClose s).Inv := by
  have hclose : ∀ t : State, t.Inv → t.block = .noBlock → ((t.setBits 0 0).setClosed true).Inv := fun t ht hb => by
    obtain ⟨hcfg, hbuf, hesc, -, hcode, href, hunits⟩ := inv_dropBits ht
    exact ⟨hcfg, hbuf, hesc, fun _ => hb, hcode, href, hunits⟩
  unfold tabClose
  dsimp only
  split
  · exact hclose _ (inv_tabEndBlock h) rfl
  · exact hclose s h ‹_›

theorem Effect.inv {i : Instr} {s u : State} (heff : Effect s i u) (h : s.Inv) : u.Inv := by
  cases heff with
  | bwWrite n d => exact inv_bwWrite h _ _
  | bwWriteBit b => exact inv_bwWrite h _ _
  | bwFlush => exact inv_bwFlush h
  | bwEnd => exact inv_bwFlush (inv_bwWrite h 1 1)
  | egEncode n => exact inv_egEncode h _
  | aegEncode c n hc => exact inv_aegEncode h hc _
  | predFeed c d hc => exact inv_predictAndFeed h hc (holds_columnValue _ _)
  | colWrite c d hc => exact inv_colWrite h hc (holds_columnValue _ _)
  | colReset c hc => exact inv_colFresh h hc
  | tabWriteRow vs hopen => exact inv_codeRow (inv_openBlock h hopen) vs
  | tabEndBlock hopen => exact inv_tabEndBlock (inv_openBlock h hopen)
  | tabClose => exact inv_tabClose h
  | statusRead => exact h
  | frByte b => exact inv_frAccept h b
  | frStart => exact inv_frMark h _
  | frEnd => exact inv_frMark h _
  | strCompress len ws => exact inv_strCompress h _

theorem inv_exec {i : Instr} {s t : State} (h : s.Inv) (hexec : exec i s = .next t) : t.Inv := by
  rcases exec_cases hexec with ⟨data, u, rfl, heff⟩ | ⟨code, -, hnone, hrefused, rfl⟩ | ⟨-, rfl⟩
  · exact inv_respond (heff.inv h) _
  · exact inv_respond (inv_setFault h hnone hrefused) _
  · exact inv_respond h _

end Sys2Proof.Machine
end

section
/-! One step of the block: what it does for each thing that can stand at the command port, and what every step keeps; the
statements of 00_scope.md R6 to R8, 10_state.md R33, 60_exceptions.md R244 and R248, and 70_reset_and_hazards.md R260 to
R269. -/

namespace Sys2Proof.Machine

/-! ### One step, by what the port holds -/

section
variable {s : State} (hwf : s.cfg.wf = true)
include hwf

theorem step_of_wait (hf : fetch s.cfg.ncol s.port = .wait) : step s = .next s := by
  simp only [step, if_pos hwf, hf]

theorem step_of_reset {rest : List HostInput} (hf : fetch s.cfg.ncol s.port = .reset rest) :
    step s = .next (resetBlock (s.setPort rest)) := by
  simp only [step, if_pos hwf, hf]

theorem step_of_run {i : Instr} {rest : List HostInput} (hf : fetch s.cfg.ncol s.port = .run i rest) :
    step s = exec i (s.setPort rest) := by
  simp only [step, if_pos hwf, hf]

/-- An illegal header is refused while a fault is recorded, and else faults (60_exceptions.md R243 steps 1 and 2). -/
theorem step_of_illegal {rest : List HostInput} (hf : fetch s.cfg.ncol s.port = .illegal rest) :
    step s =
      .next (if s.faulted then refusedState (s.setPort rest) else faultState .illegalCommand (s.setPort rest)) := by
  simp only [step, if_pos hwf, hf, illegalHeader, State.setPort_faulted, refuse_eq, raise_eq]
  exact (apply_ite Host.Outcome.next (s.faulted = true) _ _).symm

end

theorem step_of_not_wf {s : State} (hwf : s.cfg.wf = false) : step s = .refused .illFormedConfiguration := by
  simp [step, hwf]

/-- Everything that a step from s can be, by what the block takes from its port. -/
inductive StepTakes (s : State) : State → Prop where
  | wait (hf : fetch s.cfg.ncol s.port = .wait) : StepTakes s s
  | reset (rest : List HostInput) (hf : fetch s.cfg.ncol s.port = .reset rest) :
      StepTakes s (resetBlock (s.setPort rest))
  | refused (rest : List HostInput) (hf : fetch s.cfg.ncol s.port = .illegal rest) (hs : s.faulted = true) :
      StepTakes s (refusedState (s.setPort rest))
  | illegal (rest : List HostInput) (hf : fetch s.cfg.ncol s.port = .illegal rest) (hs : s.faulted = false) :
      StepTakes s (faultState .illegalCommand (s.setPort rest))
  | run (i : Instr) (rest : List HostInput) (t : State) (hf : fetch s.cfg.ncol s.port = .run i rest)
      (hexec : exec i (s.setPort rest) = .next t) : StepTakes s t

/-- The one inversion of `step`. -/
theorem stepTakes_of_step {s t : State} (h : step s = .next t) : s.cfg.wf = true ∧ StepTakes s t := by
  cases hwf : s.cfg.wf with
  | false =>
    rw [step_of_not_wf hwf] at h
    cases h
  | true =>
    refine ⟨rfl, ?_⟩
    cases hf : fetch s.cfg.ncol s.port with
    | wait =>
      rw [step_of_wait hwf hf] at h
      cases h
      exact .wait hf
    | reset rest =>
      rw [step_of_reset hwf hf] at h
      cases h
      exact .reset rest hf
    | illegal rest =>
      rw [step_of_illegal hwf hf] at h
      cases h
      split
      · exact .refused rest hf ‹_›
      · exact .illegal rest hf (by simpa using ‹¬ s.faulted = true›)
    | run i rest =>
      rw [step_of_run hwf hf] at h
      exact .run i rest t hf h

theorem step_next {s : State} (hwf : s.cfg.wf = true) : ∃ t, step s = .next t := by
  cases hf : fetch s.cfg.ncol s.port with
  | wait => exact ⟨_, step_of_wait hwf hf⟩
  | reset rest => exact ⟨_, step_of_reset hwf hf⟩
  | illegal rest => exact ⟨_, step_of_illegal hwf hf⟩
  | run i rest =>
    rw [step_of_run hwf hf]
    exact exec_next i _

/-! ### Incomplete commands (70_reset_and_hazards.md R269) -/

theorem decode_of_commandIncomplete {ncol : Nat} {ws : List Word} (h : commandIncomplete ncol ws) :
    ∃ r, decode ncol ws = .error r ∧ (r = .noHeader ∨ r = .incomplete) := by
  rcases h with rfl | ⟨h, ds, op, rfl, hmask, hlen⟩
  · exact ⟨_, rfl, .inl rfl⟩
  · refine ⟨_, ?_, .inr rfl⟩
    simp only [decode, (headerOpcode_eq_ok_iff_mask h op).2 hmask, if_pos hlen]

theorem fetch_of_commandIncomplete {ncol : Nat} {ws : List Word} (h : commandIncomplete ncol ws) :
    fetch ncol (ws.map .word) = .wait ∧ ∀ p, fetch ncol (ws.map .word ++ .reset :: p) = .reset p := by
  obtain ⟨r, hdec, hr⟩ := decode_of_commandIncomplete h
  exact fetch_incomplete hdec hr

/-- A step that changes nothing is the only one there ever is. -/
theorem run_of_step_self {s : State} (h : step s = .next s) (k : Nat) : Host.Core.run Sys2Proof.core k s = .next s := by
  have hcore : Sys2Proof.core.step s = .next s := h
  induction k with
  | zero => rfl
  | succ k ih =>
    simp only [Host.Core.run, hcore]
    exact ih

/-! ### What stands at the port after a step -/

/-- The port after the next event is taken: a function of NCOL and the port. -/
def portAfter (ncol : Nat) (port : List HostInput) : List HostInput :=
  match fetch ncol port with
  | .wait => port
  | .reset rest => rest
  | .illegal rest => rest
  | .run _ rest => rest

theorem step_port {s t : State} (h : step s = .next t) : t.port = portAfter s.cfg.ncol s.port := by
  cases (stepTakes_of_step h).2 with
  | wait hf => simp only [portAfter, hf]
  | reset rest hf => simp only [portAfter, hf]; rfl
  | refused rest hf => simp only [portAfter, hf]; rfl
  | illegal rest hf => simp only [portAfter, hf]; rfl
  | run i rest t hf hexec =>
    obtain ⟨t', r, ht', -, -, hport⟩ := everyCommandRespondsOnce i (s.setPort rest)
    obtain rfl := Host.Outcome.next.inj (hexec.symm.trans ht')
    simp only [portAfter, hf]
    exact hport

/-- With no reset presented, every word at the port is a leading one. -/
theorem leadingWords_of_no_reset {p : List HostInput} (h : HostInput.reset ∉ p) : (leadingWords p).2 = [] := by
  induction p with
  | nil => rfl
  | cons x p ih =>
    cases x with
    | word w => exact ih (List.not_mem_of_not_mem_cons h)
    | reset => exact absurd List.mem_cons_self h

theorem fetch_ne_reset {ncol : Nat} {p : List HostInput} (h : HostInput.reset ∉ p) (rest : List HostInput) :
    fetch ncol p ≠ .reset rest := by
  have hmore := leadingWords_of_no_reset h
  unfold fetch
  dsimp only
  rw [hmore]
  split <;> simp [noCommand]

/-! ### A block that takes no commands -/

/-- While a fault is recorded or the block is closed, a command's response, and a fault, are all that it leaves. -/
theorem exec_of_not_ready {i : Instr} {s t : State} (hs : s.faulted = true ∨ s.closed = true)
    (h : exec i s = .next t) :
    t.closed = s.closed ∧ (s.faulted = true → t = { s with port := t.port, responses := t.responses }) := by
  by_cases hi : i = .statusRead
  · subst hi
    cases h
    exact ⟨rfl, fun _ => rfl⟩
  · by_cases hf : s.faulted = true
    · rw [faultedBlockRefuses i s hf hi] at h
      cases h
      exact ⟨rfl, fun _ => rfl⟩
    · rw [closedBlockFaults i s (Bool.eq_false_iff.2 hf) (hs.resolve_left hf) hi] at h
      cases h
      exact ⟨rfl, fun hs' => absurd hs' hf⟩

/-! ### The statements -/

/-- Settles O6: the words are taken whole from the head of the port (`fetch_run`). -/
theorem stepRunsDecodedCommand : Obligations.StepRunsDecodedCommand := by
  unfold Obligations.StepRunsDecodedCommand
  intro s ws i rest hwf hdec hport
  exact step_of_run hwf (by rw [hport, fetch_run hdec])

/-- Settles O7: a header that no row selects is one that the decoder rejects, and it is taken alone (`fetch_illegal`). -/
theorem illegalHeaderFaults : Obligations.IllegalHeaderFaults := by
  unfold Obligations.IllegalHeaderFaults
  intro s h rest hwf hmask hport
  cases hop : headerOpcode h with
  | ok op => exact absurd ((headerOpcode_eq_ok_iff_mask h op).1 hop) (hmask op)
  | error r => exact step_of_illegal hwf (by rw [hport, fetch_illegal hop (headerOpcode_error_ne hop)])

/-- Settles O8: the first step waits and so changes nothing, and then so does every other. -/
theorem incompleteCommandWaits : Obligations.IncompleteCommandWaits := by
  unfold Obligations.IncompleteCommandWaits
  intro s ws k hwf hport hinc
  exact run_of_step_self (step_of_wait hwf (by rw [hport, (fetch_of_commandIncomplete hinc).1])) k

/-- Settles O9: the reset is taken from behind the words that wait. -/
theorem resetDropsIncompleteCommand : Obligations.ResetDropsIncompleteCommand := by
  unfold Obligations.ResetDropsIncompleteCommand
  intro s ws rest hwf hport hinc
  exact step_of_reset hwf (by rw [hport, (fetch_of_commandIncomplete hinc).2])

/-- Settles O11: the step is the reset of R37 (`resetLeavesListedValues`) on the port that is left, and an empty port is
waited at. -/
theorem resetWritesEveryRegister : Obligations.ResetWritesEveryRegister := by
  unfold Obligations.ResetWritesEveryRegister
  intro s rest hwf hport
  refine ⟨_, step_of_reset hwf (by rw [hport, fetch_reset]), resetLeavesListedValues (s.setPort rest), ?_⟩
  rintro rfl
  exact step_of_wait hwf rfl

/-- Settles O12: the check is the conditions one by one (`wf_iff_configConditions`), and with them met whatever the port
holds is answered by a next state. -/
theorem onlyIllFormedConfigurationStops : Obligations.OnlyIllFormedConfigurationStops := by
  unfold Obligations.OnlyIllFormedConfigurationStops
  exact fun s => ⟨wf_iff_configConditions s.cfg, step_next, step_of_not_wf⟩

/-- Settles O14: what a step leaves at the port is a function of NCOL and the port before it (`step_port`). -/
theorem nextCommandStartIgnoresState : Obligations.NextCommandStartIgnoresState := by
  unfold Obligations.NextCommandStartIgnoresState
  intro s₁ s₂ t₁ t₂ hncol hport h₁ h₂
  rw [step_port h₁, step_port h₂, hncol, hport]

/-- Settles O18: without a reset a step takes a command or an illegal header, and neither gets past the checks of a block
that is faulted or closed (`exec_of_not_ready`). -/
theorem stickyFlagsUntilReset : Obligations.StickyFlagsUntilReset := by
  unfold Obligations.StickyFlagsUntilReset
  intro s t hreset hstep
  cases (stepTakes_of_step hstep).2 with
  | wait hf => exact ⟨fun _ => rfl, id⟩
  | reset rest hf => exact absurd hf (fetch_ne_reset hreset rest)
  | refused rest hf hs => exact ⟨fun _ => rfl, id⟩
  | illegal rest hf hs => exact ⟨fun hs' => absurd hs' (by simp [hs]), id⟩
  | run i rest t hf hexec =>
    refine ⟨fun hs => ?_, fun hc => ?_⟩
    · exact (exec_of_not_ready (s := s.setPort rest) (.inl hs) hexec).2 hs
    · exact (exec_of_not_ready (s := s.setPort rest) (.inr hc) hexec).1.trans hc

/-- Settles O58: a reset writes neither OUT nor the configuration, an illegal header only faults, and a command's effect only
appends to OUT. -/
theorem outOnlyGrowsAndConfigurationStays : Obligations.OutOnlyGrowsAndConfigurationStays := by
  unfold Obligations.OutOnlyGrowsAndConfigurationStays
  intro s t hstep
  cases (stepTakes_of_step hstep).2 with
  | wait hf => exact ⟨List.prefix_rfl, rfl⟩
  | reset rest hf => exact ⟨List.prefix_rfl, rfl⟩
  | refused rest hf hs => exact ⟨List.prefix_rfl, rfl⟩
  | illegal rest hf hs => exact ⟨List.prefix_rfl, rfl⟩
  | run i rest t hf hexec =>
    rcases exec_cases hexec with ⟨data, u, rfl, heff⟩ | ⟨code, -, -, -, rfl⟩ | ⟨-, rfl⟩
    · exact ⟨heff.outputFrame.flag.out_le, heff.outputFrame.cfg⟩
    · exact ⟨List.prefix_rfl, rfl⟩
    · exact ⟨List.prefix_rfl, rfl⟩

/-- Settles O60: a reset satisfies the invariants whatever was before it, an illegal header records a fault that is not
REFUSED, and every command keeps them (`inv_exec`). -/
theorem stepKeepsInv : Obligations.StepKeepsInv := by
  unfold Obligations.StepKeepsInv
  intro s t h hstep
  cases (stepTakes_of_step hstep).2 with
  | wait hf => exact h
  | reset rest hf => exact inv_resetBlock h.config
  | refused rest hf hs => exact inv_respond (inv_setPort h rest) _
  | illegal rest hf hs => exact inv_respond (inv_setFault (inv_setPort h rest) (by decide) (by decide)) _
  | run i rest t hf hexec => exact inv_exec (inv_setPort h rest) hexec

end Sys2Proof.Machine
end

section
/-! Sequences of commands: several fields on one bit stream, and a coder that is driven to a bound; the statements of
20_memory.md R54, 40_bitwriter.md R104, 41_elias_gamma.md R123, 42_adaptive_golomb.md R134 and R136, and 43_predictors.md
R157. -/

namespace Sys2Proof.Machine

/-! ### The BitWriter (40_bitwriter.md R104, 20_memory.md R54) -/

/-- BW_WRITE_BIT has no check of its own. -/
theorem exec_bwWriteBit_of_ready {s : State} (hr : Ready s) (b : Bool) :
    exec (.bwWriteBit b) s = .next (okState 0 (bwWrite b.toNat 1 s)) :=
  checked_ready hr _

/-- Bits that fill one byte leave as that byte. -/
theorem appendBits_of_full {s : State} {bits : List Bool} (h : (pendingBits s ++ bits).length = 8) :
    (appendBits bits s).bwUsed = 0 ∧
      (appendBits bits s).out = s.out ++ escapeBytes s.hadEscape [byteOfBits (pendingBits s ++ bits)] := by
  have hwhole := wholeBytes_eight (pendingBits s ++ bits) [] h
  have hleft := leftoverBits_eight (pendingBits s ++ bits) [] h
  rw [List.append_nil] at hwhole hleft
  simp only [appendBits, State.setBits_bwUsed, State.setBits_out, State.setEscape_out, State.setOut_out, hwhole, hleft]
  exact ⟨rfl, rfl⟩

/-- Settles O23: on a clean buffer the one bit is an append, and with seven bits pending it fills the byte. -/
theorem bwWriteBitAppendsBit : Obligations.BwWriteBitAppendsBit := by
  unfold Obligations.BwWriteBitAppendsBit
  intro s b hr hb
  refine ⟨?_, fun hseven => appendBits_of_full ?_⟩
  · rw [exec_bwWriteBit_of_ready hr, bwWrite_eq hb, fieldBits_one]
  · rw [List.length_append, pendingBits_length, hseven]
    rfl

theorem execAll_cons {i : Instr} {is : List Instr} {s t : State} (h : exec i s = .next t) :
    execAll (i :: is) s = execAll is t := by
  rw [execAll, h]

theorem ready_okState {s : State} (hr : Ready s) (data : BitVec 64) : Ready (okState data s) :=
  ⟨hr.notFaulted, hr.notClosed⟩

theorem ready_appendBits {s : State} (hr : Ready s) (bits : List Bool) : Ready (appendBits bits s) :=
  ⟨hr.notFaulted, hr.notClosed⟩

/-- A sequence of BW_WRITE commands is one append of all their fields. -/
theorem execAll_bwWrite {fields : List (Byte × Word)} {s : State} (hr : Ready s) (hb : BufferClean s)
    (hn : ∀ f ∈ fields, f.1.toNat ≤ 64) :
    ∃ rs, execAll (fields.map fun f => .bwWrite f.1 f.2) s =
      some ((appendBits (fields.flatMap fun f => fieldBits f.2.toNat f.1.toNat) s).setResponses rs) := by
  induction fields generalizing s with
  | nil => exact ⟨s.responses, congrArg some (appendBits_nil hb).symm⟩
  | cons f fields ih =>
    have hexec := bwWriteAppendsField s f.1 f.2 hr hb (hn f List.mem_cons_self)
    obtain ⟨rs, hrest⟩ := ih (ready_okState (ready_appendBits hr _) 0) (bufferClean_appendBits (fieldBits _ _) s)
      fun g hg => hn g (List.mem_cons_of_mem f hg)
    refine ⟨rs, ?_⟩
    rw [List.map_cons, execAll_cons hexec, hrest, List.flatMap_cons, ← appendBits_appendBits]
    rfl

/-- Settles O26: the bytes that left are the whole bytes of the one stream that the fields make (`execAll_bwWrite`), and
packing loses and moves no bit of it (`byteBits_wholeBytes`). -/
theorem fieldsReadBackFromStream : Obligations.FieldsReadBackFromStream := by
  unfold Obligations.FieldsReadBackFromStream
  intro s fields hr hb hn
  obtain ⟨rs, hall⟩ := execAll_bwWrite hr hb hn
  refine ⟨_, wholeBytes (pendingBits s ++ fields.flatMap fun f => fieldBits f.2.toNat f.1.toNat), hall, rfl, ?_⟩
  exact (congrArg (_ ++ ·) (pendingBits_appendBits _ s)).trans (byteBits_wholeBytes _)

/-! ### The Elias-gamma reader (41_elias_gamma.md R123) -/

/-- The leading zeros of a code end at its first 1. -/
theorem takeWhile_not_replicate (l : Nat) (rest : List Bool) :
    ((List.replicate l false ++ true :: rest).takeWhile fun b => !b) = List.replicate l false := by
  rw [List.takeWhile_append_of_pos (fun b hb => by rw [List.eq_of_mem_replicate hb]; rfl)]
  simp

/-- Settles O28: the zeros give L, and the L bits after the 1 are `n + 1` without its leading bit, `2^L`. -/
theorem eliasGammaRoundTrip : Obligations.EliasGammaRoundTrip := by
  unfold Obligations.EliasGammaRoundTrip
  intro n rest
  obtain ⟨hlo, hhi⟩ := (floorLog2_eq_iff n.succ_ne_zero).1 rfl
  rw [Nat.succ_eq_add_one] at hlo hhi
  have hmod : (n + 1) % 2 ^ floorLog2 (n + 1) = n + 1 - 2 ^ floorLog2 (n + 1) := by
    rw [Nat.mod_eq_sub_mod hlo, Nat.mod_eq_of_lt (by omega)]
  have hvalue : 2 ^ floorLog2 (n + 1) + (n + 1) % 2 ^ floorLog2 (n + 1) - 1 = n := by omega
  rw [egBits, List.append_assoc, List.cons_append, egDecode, takeWhile_not_replicate, List.length_replicate,
    List.drop_left' List.length_replicate]
  dsimp only
  rw [if_neg (by simp), List.take_left' (fieldBits_length _ _), List.drop_left' (fieldBits_length _ _),
    fieldValue_fieldBits, hvalue]

/-! ### The coder state (42_adaptive_golomb.md R134, R136) -/

theorem adaptState_zero_toNat (m : Nat) (a : BitVec 8) : (adaptState m a 0).toNat = a.toNat - 1 := by
  have ha := a.isLt
  rw [adaptState, if_pos rfl, BitVec.toNat_ofNat, Nat.mod_eq_of_lt (by omega)]

theorem adaptState_toNat_of_one_lt {m : Nat} (hm : m ≤ 255) (a : BitVec 8) {p : Nat} (hp : 1 < p) :
    (adaptState m a p).toNat = min (a.toNat + 1) m := by
  rw [adaptState, if_neg (by omega), if_pos hp, BitVec.toNat_ofNat, Nat.mod_eq_of_lt (by omega)]

theorem adaptState_one (m : Nat) (a : BitVec 8) : adaptState m a 1 = a := rfl

/-- Settles O31: the two moves stay within the byte of the state. -/
theorem aegStateAdapts : Obligations.AegStateAdapts := by
  unfold Obligations.AegStateAdapts
  intro m a p _ hm
  refine ⟨?_, adaptState_toNat_of_one_lt hm a, ?_⟩
  · rintro rfl
    rw [adaptState_zero_toNat]
    omega
  · rintro rfl
    exact adaptState_one m a

/-- One AEG_ENCODE on a column that has the unit u moves its coder state by the quotient at the shift of u. -/
theorem exec_aegEncode_of_unit {s : State} (h : s.Inv) (hr : Ready s) {c : Byte} {u : ColUnit}
    (hu : s.cols[c.toNat]? = some u) {n : Word} (hn : n.toNat < 2 ^ (s.cfg.col c.toNat).type.bits) :
    ∃ t v, exec (.aegEncode c n) s = .next t ∧ t.Inv ∧ Ready t ∧ t.cfg = s.cfg ∧ t.cols[c.toNat]? = some v ∧
      v.aeg = adaptState (s.cfg.maxState.at (s.cfg.col c.toNat).type.width) u.aeg
        (n.toNat / 2 ^ (u.aeg.toNat / 4)) := by
  have hexec := aegEncodeAppendsCodeAndAdapts s c n u h hr hu hn
  have hc : c.toNat < s.cols.length := (List.getElem?_eq_some_iff.1 hu).1
  exact ⟨_, _, hexec, inv_exec h hexec, ⟨hr.notFaulted, hr.notClosed⟩, rfl, List.getElem?_set_self hc, rfl⟩

/-- k times the same AEG_ENCODE on a column whose coder states that operand moves by f. -/
theorem execAll_aegEncode {s : State} (h : s.Inv) (hr : Ready s) {c : Byte} {u : ColUnit}
    (hu : s.cols[c.toNat]? = some u) {n : Word} (hn : n.toNat < 2 ^ (s.cfg.col c.toNat).type.bits) {f : Nat → Nat}
    (hf : ∀ a : BitVec 8, a.toNat ≤ s.cfg.maxState.at (s.cfg.col c.toNat).type.width →
      (adaptState (s.cfg.maxState.at (s.cfg.col c.toNat).type.width) a (n.toNat / 2 ^ (a.toNat / 4))).toNat = f a.toNat)
    (k : Nat) :
    ∃ t v, execAll (List.replicate k (.aegEncode c n)) s = some t ∧ t.cols[c.toNat]? = some v ∧
      v.aeg.toNat = f^[k] u.aeg.toNat := by
  induction k generalizing s u with
  | zero => exact ⟨s, u, rfl, hu, rfl⟩
  | succ k ih =>
    have hfits := inv_unit h (lt_ncol_of_getElem? h hu)
    rw [unitAt_of_getElem? hu] at hfits
    obtain ⟨t, v, hexec, ht, htr, hcfg, hv, haeg⟩ := exec_aegEncode_of_unit h hr hu hn
    obtain ⟨t', v', hall, hv', hiter⟩ := ih ht htr hv (by rwa [hcfg]) (by rwa [hcfg])
    refine ⟨t', v', ?_, hv', ?_⟩
    · rw [List.replicate_succ, execAll_cons hexec, hall]
    · rw [hiter, haeg, hf _ (fits_parts hfits).1, Function.iterate_succ_apply]

/-- One move up, not above the ceiling (R134). -/
def raisedState (m a : Nat) : Nat := min (a + 1) m

theorem iterate_raisedState {m a : Nat} (ha : a ≤ m) (k : Nat) : (raisedState m)^[k] a = min (a + k) m := by
  induction k with
  | zero => exact (min_eq_left ha).symm
  | succ k ih =>
    rw [Function.iterate_succ_apply', ih, raisedState]
    omega

/-- The greatest operand of a width raises every coder state below the ceiling: at the shift W − 1, where its quotient is
only 1, the state stands at the ceiling. -/
theorem adaptState_max {w m : Nat} (hw : 0 < w) (hw64 : w ≤ 64) (hm : m ≤ 4 * (w - 1)) {a : BitVec 8}
    (ha : a.toNat ≤ m) :
    (adaptState m a ((2 ^ w - 1) / 2 ^ (a.toNat / 4))).toNat = raisedState m a.toNat := by
  by_cases htop : a.toNat / 4 = w - 1
  · have hhalf : 2 * 2 ^ (w - 1) = 2 ^ w := mul_pow_sub_one hw.ne' 2
    have hpos : 0 < 2 ^ (w - 1) := Nat.two_pow_pos _
    have hquot : (2 ^ w - 1) / 2 ^ (w - 1) = 1 := Nat.div_eq_of_lt_le (by omega) (by omega)
    rw [htop, hquot, adaptState_one, raisedState]
    omega
  · have hshift : a.toNat / 4 + 2 ≤ w := by omega
    have hpow : 4 * 2 ^ (a.toNat / 4) ≤ 2 ^ w := by
      rw [show 4 * 2 ^ (a.toNat / 4) = 2 ^ (a.toNat / 4 + 2) by ring]
      exact Nat.pow_le_pow_right two_pos hshift
    have hpos : 0 < 2 ^ (a.toNat / 4) := Nat.two_pow_pos _
    refine adaptState_toNat_of_one_lt (by omega) a ?_
    exact (Nat.le_div_iff_mul_le hpos).2 (by omega)

theorem toNat_ofNat_max (t : ColumnType) : (BitVec.ofNat 64 (2 ^ t.bits - 1)).toNat = 2 ^ t.bits - 1 := by
  have hle : 2 ^ t.bits ≤ 2 ^ 64 := Nat.pow_le_pow_right two_pos (columnBits_le t)
  have hpos : 0 < 2 ^ t.bits := Nat.two_pow_pos _
  rw [BitVec.toNat_ofNat, Nat.mod_eq_of_lt (by omega)]

/-- Settles O32: the quotient of 0 is 0 at every shift, and that of the greatest operand raises the state unless it stands
at the ceiling (`adaptState_max`). -/
theorem aegStateConverges : Obligations.AegStateConverges := by
  unfold Obligations.AegStateConverges
  intro s c u k h hr hu
  have hfits := inv_unit h (lt_ncol_of_getElem? h hu)
  rw [unitAt_of_getElem? hu] at hfits
  constructor
  · have hdown : ∀ (m : Nat) (a : BitVec 8),
        (adaptState m a ((0 : Word).toNat / 2 ^ (a.toNat / 4))).toNat = a.toNat.pred := fun m a => by
      rw [show (0 : Word).toNat = 0 from rfl, Nat.zero_div]
      exact adaptState_zero_toNat m a
    obtain ⟨t, v, hall, hv, hiter⟩ := execAll_aegEncode h hr hu (Nat.two_pow_pos _) (fun a _ => hdown _ a) k
    exact ⟨t, v, hall, hv, hiter.trans (Nat.pred_iterate _ k)⟩
  · have hmax := toNat_ofNat_max (s.cfg.col c.toNat).type
    have hn : (BitVec.ofNat 64 (2 ^ (s.cfg.col c.toNat).type.bits - 1)).toNat < 2 ^ (s.cfg.col c.toNat).type.bits := by
      rw [hmax]
      exact Nat.sub_one_lt (Nat.two_pow_pos _).ne'
    obtain ⟨t, v, hall, hv, hiter⟩ := execAll_aegEncode h hr hu hn (fun a ha => by
      rw [hmax]
      exact adaptState_max (columnBits_pos _) (columnBits_le _) (inv_maxState h _).2 ha) k
    exact ⟨t, v, hall, hv, hiter.trans (iterate_raisedState (fits_parts hfits).1 k)⟩

/-! ### SimpleLinear (43_predictors.md R157) -/

/-- Settles O38: the history's ends are N − 1 steps apart, so the division is exact and the next step is in range. -/
theorem simpleLinearExactOnLinearSequence : Obligations.SimpleLinearExactOnLinearSequence := by
  unfold Obligations.SimpleLinearExactOnLinearSequence
  intro t n a d hn hv
  rw [show (do let i ← List.range n; pure (i : Int)) = (List.range n).map fun i : Nat => (i : Int) from
    bind_pure_comp _ _, List.map_map]
  obtain ⟨m, rfl⟩ : ∃ m, n = m + 1 := ⟨n - 1, by omega⟩
  have hfirst : ((List.range (m + 1)).map fun i : Nat => a + i * d).head? = some a := by
    simp [List.range_succ_eq_map]
  have hlast : ((List.range (m + 1)).map fun i : Nat => a + i * d).getLast? = some (a + m * d) := by
    simp [List.range_succ]
  have hstep : a + m * d + Int.tdiv (a + m * d - a) ((m + 1 : Nat) - 1) = a + (m + 1 : Nat) * d := by
    have hm : (m : Int) ≠ 0 := by omega
    rw [add_sub_cancel_left, Nat.cast_succ, add_sub_cancel_right, Int.mul_tdiv_cancel_left d hm]
    ring
  obtain ⟨hmin, hmax⟩ := (holds_iff t _).1 hv
  refine (slPredict_of_length_eq (by simp) hfirst hlast t).trans ?_
  rw [hstep, saturate, max_eq_left hmin, min_eq_left hmax]

end Sys2Proof.Machine
end

section
/-! Runs of the string compressor, and the escaper and its reader as functions of byte sequences; the statements of
47_string_trie.md R218 and R219, and 46_framing.md R206 and R207. -/

namespace Sys2Proof.Machine

/-! ### Where runs end (47_string_trie.md R218, R219) -/

/-- A match run goes on with the bytes that its first symbol left; the smaller bound is still enough for them. -/
theorem matchRun_cons_of_isFirst {cfg : Config} {b : Byte} (hb : isFirst cfg b = true) (rest : List Byte) :
    matchRun cfg (b :: rest).length (b :: rest) =
      let left := (b :: rest).drop (lookupSymbol cfg b rest).2
      ((lookupSymbol cfg b rest).1 :: (matchRun cfg left.length left).1, (matchRun cfg left.length left).2) := by
  obtain ⟨n, hn⟩ : ∃ n, (lookupSymbol cfg b rest).2 = n + 1 :=
    Nat.exists_eq_succ_of_ne_zero (Nat.one_le_iff_ne_zero.1 (lookupSymbol_len cfg b rest).1)
  have hbound := matchRun_bound cfg rest.length (rest.drop n) (List.drop_sublist n rest).length_le
  simp only [List.length_cons, matchRun, if_pos hb, hn, Nat.add_sub_cancel, List.drop_succ_cons, hbound]

theorem not_isFirst_of_matchRun_rest {cfg : Config} {k : Nat} {bs : List Byte} (hk : bs.length ≤ k) {b : Byte}
    {rest : List Byte} (h : (matchRun cfg k bs).2 = b :: rest) : isFirst cfg b = false := by
  induction k generalizing bs with
  | zero =>
    obtain rfl := List.length_eq_zero_iff.1 (Nat.le_zero.1 hk)
    simp [matchRun] at h
  | succ k ih =>
    cases bs with
    | nil => simp [matchRun] at h
    | cons c bs =>
      rw [matchRun] at h
      split at h
      next => exact ih ((List.drop_sublist _ bs).length_le.trans (Nat.le_of_succ_le_succ hk)) h
      next hc =>
        obtain ⟨rfl, -⟩ := List.cons.inj h
        exact Bool.eq_false_iff.2 hc

theorem isFirst_of_literalRun_rest {cfg : Config} {bs : List Byte} {b : Byte} {rest : List Byte}
    (h : (literalRun cfg bs).2 = b :: rest) : isFirst cfg b = true := by
  have hhead := List.head?_dropWhile_not (fun b => !isFirst cfg b) bs
  rw [show bs.dropWhile (fun b => !isFirst cfg b) = b :: rest from h] at hhead
  simpa using hhead

/-- Settles O55: by the first byte, what a match run is, and by induction on its rounds where it ends; a literal run is the
longest sequence of bytes that are no first characters. -/
theorem runsEndWhereTheyMust : Obligations.RunsEndWhereTheyMust := by
  unfold Obligations.RunsEndWhereTheyMust
  intro cfg bs
  refine ⟨?_, ?_, ?_, fun b rest => not_isFirst_of_matchRun_rest le_rfl, fun b rest => isFirst_of_literalRun_rest, ?_,
    literalRun_append cfg bs⟩
  · rintro b rest rfl hb node len left hlookup rfl
    rw [matchRun_cons_of_isFirst hb, hlookup]
  · rintro b rest rfl hb
    exact matchRun_of_not_isFirst hb rest
  · rintro rfl
    rfl
  · intro b hb
    simpa using List.mem_takeWhile_imp hb

/-! ### What the escaper adds (46_framing.md R206) -/

/-- At the start of a block the first byte passes as it is. -/
theorem escapeBytes_false_cons (b : Byte) (bs : List Byte) :
    escapeBytes false (b :: bs) = b :: escapeBytes (escapeAfter b) bs := rfl

theorem escapeBytes_cons_of_needsDbl {e : Bool} {b : Byte} (h : needsDbl e b = true) (bs : List Byte) :
    escapeBytes e (b :: bs) = dblByte :: b :: escapeBytes (escapeAfter b) bs := by
  rw [escapeBytes, if_pos h]
  rfl

theorem escapeBytes_cons_of_not_needsDbl {e : Bool} {b : Byte} (h : ¬ needsDbl e b = true) (bs : List Byte) :
    escapeBytes e (b :: bs) = b :: escapeBytes (escapeAfter b) bs := by
  rw [escapeBytes, if_neg h]
  rfl

/-- A function byte is not `ESC`. -/
theorem escapeAfter_of_isFunctionByte {b : Byte} (h : isFunctionByte b = true) : escapeAfter b = false := by
  rcases (isFunctionByte_iff b).1 h with rfl | rfl | rfl <;> rfl

/-- Behind a byte a, the escaper adds one byte for each pair of `ESC` and a function byte that a and the payload make. -/
theorem escapeBytes_length_after (a : Byte) (bs : List Byte) :
    (escapeBytes (escapeAfter a) bs).length =
      bs.length + (((a :: bs).zip bs).filter fun q => q.1 == 0x54 && isFunctionByte q.2).length := by
  induction bs generalizing a with
  | nil => rfl
  | cons b bs ih =>
    rw [List.zip_cons_cons, List.filter_cons]
    by_cases h : needsDbl (escapeAfter a) b = true
    · rw [escapeBytes_cons_of_needsDbl h, List.length_cons, List.length_cons, ih b]
      rw [needsDbl, escapeAfter, escByte] at h
      rw [if_pos h, List.length_cons, List.length_cons]
      omega
    · rw [escapeBytes_cons_of_not_needsDbl h, List.length_cons, ih b]
      rw [needsDbl, escapeAfter, escByte] at h
      rw [if_neg h, List.length_cons]
      omega

/-- An escaped byte is not `ESC`, so the byte after it is not escaped: each `DBL` stands for two bytes of payload, but for
one that an `ESC` before the payload calls for. -/
theorem two_mul_escapeBytes_length_le (e : Bool) (bs : List Byte) :
    2 * (escapeBytes e bs).length ≤ 3 * bs.length + e.toNat := by
  induction bs generalizing e with
  | nil => exact Nat.zero_le _
  | cons b bs ih =>
    have hrest := ih (escapeAfter b)
    by_cases h : needsDbl e b = true
    · obtain ⟨rfl, hb⟩ := Bool.and_eq_true_iff.1 h
      rw [escapeAfter_of_isFunctionByte hb, Bool.toNat_false] at hrest
      rw [escapeBytes_cons_of_needsDbl h, escapeAfter_of_isFunctionByte hb, List.length_cons, List.length_cons,
        List.length_cons, Bool.toNat_true]
      omega
    · have hflag := (escapeAfter b).toNat_le
      rw [escapeBytes_cons_of_not_needsDbl h, List.length_cons, List.length_cons]
      omega

/-- Behind a byte a, the escaper's output has no `ESC` directly before `START` or `END`. -/
theorem no_marker_in_escapeBytes_after (a : Byte) (bs : List Byte) :
    ∀ q ∈ (a :: escapeBytes (escapeAfter a) bs).zip (escapeBytes (escapeAfter a) bs),
      q.1 = 0x54 → q.2 ≠ 0x6C ∧ q.2 ≠ 0x23 := by
  induction bs generalizing a with
  | nil => nofun
  | cons b bs ih =>
    by_cases h : needsDbl (escapeAfter a) b = true
    · rw [escapeBytes_cons_of_needsDbl h, List.zip_cons_cons, List.zip_cons_cons]
      simp only [List.forall_mem_cons]
      exact ⟨fun _ => by decide, fun hdbl => absurd hdbl (by decide), ih b⟩
    · rw [escapeBytes_cons_of_not_needsDbl h, List.zip_cons_cons, List.forall_mem_cons]
      refine ⟨fun hesc => ?_, ih b⟩
      rw [needsDbl_iff] at h
      have hflag : escapeAfter a = true := beq_iff_eq.2 hesc
      exact ⟨fun hb => h ⟨hflag, .inl hb⟩, fun hb => h ⟨hflag, .inr (.inl hb)⟩⟩

/-- Settles O50: at the start of a block the first byte stands for the byte before the others. -/
theorem escaperExpansion : Obligations.EscaperExpansion := by
  unfold Obligations.EscaperExpansion
  intro p
  refine ⟨?_, two_mul_escapeBytes_length_le false p, ?_⟩
  · cases p with
    | nil => rfl
    | cons b bs =>
      rw [escapeBytes_false_cons, List.length_cons, escapeBytes_length_after, List.length_cons, List.tail_cons]
      omega
  · cases p with
    | nil => nofun
    | cons b bs =>
      rw [escapeBytes_false_cons]
      exact no_marker_in_escapeBytes_after b bs

/-! ### The reader (46_framing.md R207) -/

/-- Where the reader stands after a byte that left the flag e. -/
def readModeOf (e : Bool) : ReadMode := if e then .escaped else .plain

/-- The `ESC` that the reader holds back while it stands behind one. -/
def heldBack (e : Bool) : List Framed := if e then [.payload escByte] else []

/-- The payload byte that the reader gives at once: every byte but an `ESC`, which it holds back. -/
def readAtOnce (b : Byte) : List Framed := if escapeAfter b then [] else [.payload b]

theorem readAtOnce_heldBack (b : Byte) : readAtOnce b ++ heldBack (escapeAfter b) = [.payload b] := by
  by_cases h : b = escByte <;> simp [readAtOnce, heldBack, escapeAfter, h]

/-- A byte that was not escaped lets go of an `ESC` before it, and is then read as it is. -/
theorem readFramed_cons_of_not_needsDbl {e : Bool} {b : Byte} (h : ¬ needsDbl e b = true) (bs : List Byte) :
    readFramed (readModeOf e) (b :: bs) =
      heldBack e ++ (readAtOnce b ++ readFramed (readModeOf (escapeAfter b)) bs) := by
  cases e with
  | false => by_cases hb : b = escByte <;> simp [readFramed, readModeOf, heldBack, readAtOnce, escapeAfter, hb]
  | true =>
    simp only [needsDbl, isFunctionByte, Bool.true_and, Bool.or_eq_true, beq_iff_eq, not_or] at h
    obtain ⟨⟨hstart, hend⟩, hdbl⟩ := h
    by_cases hb : b = escByte
    · subst hb
      rfl
    · simp [readFramed, readModeOf, heldBack, readAtOnce, escapeAfter, hstart, hend, hdbl, hb]

/-- An escaped byte lets go of the `ESC` before it, and is read behind the `DBL`. -/
theorem readFramed_dbl_cons (b : Byte) (bs : List Byte) :
    readFramed .escaped (dblByte :: b :: bs) = .payload escByte :: .payload b :: readFramed .plain bs := rfl

/-- The reader on an escaped payload and the end marker, from where the byte before the payload left it. -/
theorem readFramed_escapeBytes (e : Bool) (bs : List Byte) :
    readFramed (readModeOf e) (escapeBytes e bs ++ [escByte, endByte]) =
      heldBack e ++ (bs.map .payload ++ [.blockEnd]) := by
  induction bs generalizing e with
  | nil => cases e <;> rfl
  | cons b bs ih =>
    by_cases h : needsDbl e b = true
    · obtain ⟨rfl, hb⟩ := Bool.and_eq_true_iff.1 h
      have hrest := ih false
      rw [escapeBytes_cons_of_needsDbl h, escapeAfter_of_isFunctionByte hb]
      exact (readFramed_dbl_cons b _).trans (congrArg (.payload escByte :: .payload b :: ·) hrest)
    · rw [escapeBytes_cons_of_not_needsDbl h, List.cons_append, readFramed_cons_of_not_needsDbl h, ih,
        ← List.append_assoc (readAtOnce b), readAtOnce_heldBack]
      rfl

/-- Settles O51: the start marker leaves the reader where the payload starts. -/
theorem readerUndoesEscaping : Obligations.ReaderUndoesEscaping := by
  unfold Obligations.ReaderUndoesEscaping
  intro p
  exact congrArg (Framed.blockStart :: ·) (readFramed_escapeBytes false p)

end Sys2Proof.Machine
end

section
/-! Rows and whole blocks: the columns of a row in order, the rows of a block behind its header, and the bytes that a block
leaves; the statements of 45_tablog.md R187, R189, R191 and R192. -/

namespace Sys2Proof.Machine

/-! ### The codes of a row, one more column at a time (R61, R187) -/

section
variable {ccs : List ColumnConfig} {us : List ColUnit} {vs : List Int} {n : Nat} {cc : ColumnConfig} {u : ColUnit}
  {v : Int}

theorem rowBits_take_succ (hcc : ccs[n]? = some cc) (hu : us[n]? = some u) (hv : vs[n]? = some v) :
    rowBits (ccs.take (n + 1)) us vs = rowBits (ccs.take n) us vs ++ colBits cc u v := by
  induction n generalizing ccs us vs with
  | zero =>
    obtain ⟨ccs, rfl⟩ := List.head?_eq_some_iff.1 (List.head?_eq_getElem?.trans hcc)
    obtain ⟨us, rfl⟩ := List.head?_eq_some_iff.1 (List.head?_eq_getElem?.trans hu)
    obtain ⟨vs, rfl⟩ := List.head?_eq_some_iff.1 (List.head?_eq_getElem?.trans hv)
    simp [rowBits]
  | succ n ih =>
    cases ccs with
    | nil => simp at hcc
    | cons cc' ccs => cases us with
      | nil => simp at hu
      | cons u' us => cases vs with
        | nil => simp at hv
        | cons v' vs =>
          rw [List.getElem?_cons_succ] at hcc hu hv
          simp only [List.take_succ_cons, rowBits, ih hcc hu hv, List.append_assoc]

theorem rowBits_nil (us : List ColUnit) (vs : List Int) : rowBits [] us vs = [] := by
  cases us <;> cases vs <;> rfl

theorem rowNext_nil (cfg : Config) (us : List ColUnit) (vs : List Int) : rowNext cfg [] us vs = us := by
  cases us <;> cases vs <;> rfl

theorem rowNext_take_succ (cfg : Config) (hcc : ccs[n]? = some cc) (hu : us[n]? = some u) (hv : vs[n]? = some v) :
    rowNext cfg (ccs.take (n + 1)) us vs = (rowNext cfg (ccs.take n) us vs).set n (colNext cfg cc u v) := by
  induction n generalizing ccs us vs with
  | zero =>
    obtain ⟨ccs, rfl⟩ := List.head?_eq_some_iff.1 (List.head?_eq_getElem?.trans hcc)
    obtain ⟨us, rfl⟩ := List.head?_eq_some_iff.1 (List.head?_eq_getElem?.trans hu)
    obtain ⟨vs, rfl⟩ := List.head?_eq_some_iff.1 (List.head?_eq_getElem?.trans hv)
    simp [rowNext, rowNext_nil]
  | succ n ih =>
    cases ccs with
    | nil => simp at hcc
    | cons cc' ccs => cases us with
      | nil => simp at hu
      | cons u' us => cases vs with
        | nil => simp at hv
        | cons v' vs =>
          rw [List.getElem?_cons_succ] at hcc hu hv
          simp only [List.take_succ_cons, rowNext, ih hcc hu hv, List.set_cons_succ]

/-- The columns before column n do not touch its unit. -/
theorem rowNext_take_getElem? (cfg : Config) (ccs : List ColumnConfig) (us : List ColUnit) (vs : List Int) (n : Nat) :
    (rowNext cfg (ccs.take n) us vs)[n]? = us[n]? := by
  induction n generalizing ccs us vs with
  | zero => rw [List.take_zero, rowNext_nil]
  | succ n ih =>
    cases ccs with
    | nil => rw [List.take_nil, rowNext_nil]
    | cons cc ccs => cases us with
      | nil => rfl
      | cons u us => cases vs with
        | nil => rfl
        | cons v vs => exact ih ccs us vs

end

/-! ### Coding a row (R187) -/

theorem RowFits.getElem? {cfg : Config} {vals : List Int} (h : RowFits cfg vals) {c : Nat} (hc : c < cfg.ncol) :
    ∃ v, vals[c]? = some v ∧ (cfg.col c).type.holds v = true := by
  have hlen : c < vals.length := h.length_eq ▸ hc
  refine ⟨vals[c], List.getElem?_eq_getElem hlen, ?_⟩
  have hcol : cfg.col c = cfg.cols[c] :=
    Option.some.inj ((cols_getElem?_of_lt hc).symm.trans (List.getElem?_eq_getElem hc))
  rw [hcol]
  exact h.get hc hlen

/-- Word c of a row command carries value c (30_encoding.md R76). -/
theorem RowFits.carries {cfg : Config} {vals : List Int} (h : RowFits cfg vals) {c : Nat} {v : Int} (hc : c < cfg.ncol)
    (hv : vals[c]? = some v) : Carries (cfg.col c).type ((vals.map (BitVec.ofInt 64)).getD c 0) v := by
  obtain ⟨v', hv', hholds⟩ := h.getElem? hc
  obtain rfl := Option.some.inj (hv.symm.trans hv')
  refine ⟨hholds, ?_⟩
  rw [List.getD_eq_getElem?_getD, List.getElem?_map, hv]
  rfl

theorem rowOk_of_rowFits {cfg : Config} {vals : List Int} (h : RowFits cfg vals) :
    rowOk cfg (vals.map (BitVec.ofInt 64)) = true := by
  refine List.all_eq_true.2 fun c hc => ?_
  obtain ⟨v, hv, -⟩ := h.getElem? (List.mem_range.1 hc)
  exact columnWordOk_of_carries (h.carries (List.mem_range.1 hc) hv)

/-- The first n columns of a row have just been coded from s. -/
def codedColumns (n : Nat) (vals : List Int) (s : State) : State :=
  { appendBits (rowBits (s.cfg.cols.take n) s.cols vals) s with
    cols := rowNext s.cfg (s.cfg.cols.take n) s.cols vals }

theorem codedColumns_ncol (vals : List Int) (s : State) : codedColumns s.cfg.ncol vals s = codedRow vals s := by
  rw [codedColumns, Config.ncol, List.take_length]
  rfl

/-- Coding a row is one append of the codes of its columns, and their units: each column finds its own unit as it was before
the row. -/
theorem foldl_colWrite {s : State} (h : s.Inv) {vals : List Int} (hvals : RowFits s.cfg vals) {n : Nat}
    (hn : n ≤ s.cfg.ncol) :
    (List.range n).foldl
        (fun t i => colWrite i (columnValue (t.cfg.col i).type ((vals.map (BitVec.ofInt 64)).getD i 0)) t) s =
      codedColumns n vals s ∧ (codedColumns n vals s).Inv := by
  induction n with
  | zero =>
    have hnone : codedColumns 0 vals s = s := by
      rw [codedColumns, List.take_zero, rowNext_nil, rowBits_nil, appendBits_nil h.buffer]
    rw [hnone]
    exact ⟨rfl, h⟩
  | succ n ih =>
    have hc : n < s.cfg.ncol := hn
    obtain ⟨hfold, hinv⟩ := ih hc.le
    obtain ⟨v, hv, hholds⟩ := hvals.getElem? hc
    have hcc := cols_getElem?_of_lt hc
    have hu : s.cols[n]? = some (unitAt s n) := by
      rw [unitAt, List.getD_eq_getElem?_getD, List.getElem?_eq_getElem ((inv_length h).symm ▸ hc), Option.getD_some]
    have hwrite := colWrite_eq_of_getElem? hinv (c := n) (u := unitAt s n) (v := v)
      ((rowNext_take_getElem? _ _ _ _ _).trans hu) hholds
    have hnext : colWrite n v (codedColumns n vals s) = codedColumns (n + 1) vals s := by
      rw [hwrite]
      conv_rhs => rw [codedColumns, rowBits_take_succ hcc hu hv, rowNext_take_succ _ hcc hu hv, ← appendBits_appendBits]
      rfl
    refine ⟨?_, hnext ▸ inv_colWrite hinv hc hholds⟩
    rw [List.range_succ, List.foldl_append, hfold, List.foldl_cons, List.foldl_nil]
    exact (congrArg (colWrite n · _) (columnValue_of_carries (hvals.carries hc hv))).trans hnext

theorem codeRow_eq {s : State} (h : s.Inv) {vals : List Int} (hvals : RowFits s.cfg vals) :
    codeRow (vals.map (BitVec.ofInt 64)) s = codedRow vals s :=
  (foldl_colWrite h hvals le_rfl).1.trans (codedColumns_ncol vals s)

/-! ### The commands, past the general checks (R187, R189) -/

/-- TAB_WRITE_ROW of a row in range codes it in the block that is open, once there is one. -/
theorem exec_rowCommand_of_ready {s : State} (hr : Ready s) {vals : List Int} (hvals : RowFits s.cfg vals) :
    exec (rowCommand vals) s = .next (okState 0 (codeRow (vals.map (BitVec.ofInt 64)) (openBlock s))) := by
  change execTabWriteRow _ s = _
  rw [execTabWriteRow, checked_ready hr, if_pos (rowOk_of_rowFits hvals), complete_eq]

/-- TAB_CLOSE has no check of its own. -/
theorem exec_tabClose_of_ready {s : State} (hr : Ready s) : exec .tabClose s = .next (okState 0 (tabClose s)) :=
  checked_ready hr _

theorem tabClose_of_inBlock {s : State} (hb : s.block = .inBlock) :
    tabClose s = ((tabEndBlock s).setBits 0 0).setClosed true := by
  rw [tabClose, hb]

theorem tabClose_of_noBlock {s : State} (hb : s.block = .noBlock) : tabClose s = (s.setBits 0 0).setClosed true := by
  rw [tabClose, hb]

theorem inv_startedBlock {s : State} (h : s.Inv) (hr : Ready s) : (startedBlock s).Inv := by
  rw [← tabStartBlock_eq_startedBlock h]
  exact inv_tabStartBlock h hr.notClosed

/-- Settles O41: the row's words pass the command's check, and the columns are coded in order (`codeRow_eq`), in the block
that stands open or in the one just started. -/
theorem tabWriteRowCodesRow : Obligations.TabWriteRowCodesRow := by
  unfold Obligations.TabWriteRowCodesRow
  intro s vals h hr hvals
  rw [exec_rowCommand_of_ready hr hvals]
  constructor
  · intro hopen
    rw [openBlock_of_inBlock hopen, codeRow_eq h hvals]
  · intro hnone
    rw [openBlock_of_noBlock hnone, tabStartBlock_eq_startedBlock h, codeRow_eq (inv_startedBlock h hr) hvals]

/-- Settles O43: an ended block has no bits pending, so dropping them tells only outside a block. -/
theorem tabCloseEndsBlockAndCloses : Obligations.TabCloseEndsBlockAndCloses := by
  unfold Obligations.TabCloseEndsBlockAndCloses
  intro s hr hb
  rw [exec_tabClose_of_ready hr]
  constructor
  · intro hopen
    rw [tabClose_of_inBlock hopen, tabEndBlock_eq_endedBlock hb]
    rfl
  · intro hnone
    rw [tabClose_of_noBlock hnone]
    rfl

/-! ### The rows of a block, then its end -/

/-- Rows have just been coded from s, inside a block. -/
def codedRows (rows : List (List Int)) (s : State) : State :=
  { appendBits (rowsBits s.cfg s.cols rows) s with cols := rowsNext s.cfg s.cols rows }

theorem codedRows_nil {s : State} (h : BufferClean s) : codedRows [] s = s := by
  cases rows : s.cols <;> rw [codedRows, rows, rowsBits, rowsNext, ← rows, appendBits_nil h]

theorem codedRows_cons (vals : List Int) (rows : List (List Int)) (s : State) :
    codedRows (vals :: rows) s = codedRows rows (codedRow vals s) := by
  rw [codedRows, rowsBits, rowsNext, ← appendBits_appendBits]
  rfl

/-- The state that the commands of a block leave, but for its responses. -/
theorem execAll_blockCommands_inBlock {rows : List (List Int)} {s : State} (h : s.Inv) (hr : Ready s)
    (hb : s.block = .inBlock) (hrows : ∀ vals ∈ rows, RowFits s.cfg vals) :
    ∃ rs, execAll (blockCommands rows) s = some ((endedBlock (codedRows rows s)).setResponses rs) := by
  induction rows generalizing s with
  | nil =>
    have hend := (tabEndBlockEndsBlock s h hr).1 hb
    refine ⟨(okState 0 (endedBlock s)).responses, (execAll_cons hend).trans ?_⟩
    rw [codedRows_nil h.buffer]
    rfl
  | cons vals rows ih =>
    have hrow := (tabWriteRowCodesRow s vals h hr (hrows vals List.mem_cons_self)).1 hb
    obtain ⟨rs, hrest⟩ := ih (inv_exec h hrow) ⟨hr.notFaulted, hr.notClosed⟩ hb fun w hw =>
      hrows w (List.mem_cons_of_mem vals hw)
    refine ⟨rs, (execAll_cons hrow).trans (hrest.trans ?_)⟩
    rw [codedRows_cons]
    rfl

/-- Outside a block the first command starts one, whether it is a row or the end. -/
theorem execAll_blockCommands_noBlock {rows : List (List Int)} {s : State} (h : s.Inv) (hr : Ready s)
    (hb : s.block = .noBlock) (hrows : ∀ vals ∈ rows, RowFits s.cfg vals) :
    ∃ rs, execAll (blockCommands rows) s = some ((endedBlock (codedRows rows (startedBlock s))).setResponses rs) := by
  have hstart := inv_startedBlock h hr
  cases rows with
  | nil =>
    have hend := (tabEndBlockEndsBlock s h hr).2 hb
    refine ⟨(okState 0 (endedBlock (startedBlock s))).responses, (execAll_cons hend).trans ?_⟩
    rw [codedRows_nil hstart.buffer]
    rfl
  | cons vals rows =>
    have hrow := (tabWriteRowCodesRow s vals h hr (hrows vals List.mem_cons_self)).2 hb
    obtain ⟨rs, hrest⟩ := execAll_blockCommands_inBlock (rows := rows) (inv_exec h hrow) ⟨hr.notFaulted, hr.notClosed⟩ rfl
      fun w hw => hrows w (List.mem_cons_of_mem vals hw)
    refine ⟨rs, (execAll_cons hrow).trans (hrest.trans ?_)⟩
    rw [codedRows_cons]
    rfl

/-! ### The bytes of a block (R191) -/

/-- The end bit goes behind the bits that fill no whole byte, and zeros above it. -/
theorem bitsToBytes_append_true (bs : List Bool) :
    bitsToBytes (bs ++ [true]) = wholeBytes bs ++ [byteOfBits (leftoverBits bs ++ [true])] := by
  have hlt := leftoverBits_length_lt bs
  rw [bitsToBytes, wholeBytes_append, leftoverBits_append, List.append_assoc]
  congr 1
  by_cases hfull : (leftoverBits bs ++ [true]).length = 8
  · have hwhole := wholeBytes_eight (leftoverBits bs ++ [true]) [] hfull
    have hleft := leftoverBits_eight (leftoverBits bs ++ [true]) [] hfull
    rw [List.append_nil] at hwhole hleft
    rw [hwhole, hleft]
    rfl
  · have hshort : (leftoverBits bs ++ [true]).length < 8 := by
      rw [List.length_append, List.length_singleton] at hfull ⊢
      omega
    rw [wholeBytes_short hshort, leftoverBits_short hshort, if_neg (by simp)]
    rfl

/-- A block on the wire when these bits are pending before it: its header goes behind them. -/
def blockBytesAfter (pending : List Bool) (cfg : Config) (rows : List (List Int)) : List Byte :=
  [escByte, startByte] ++
    escapeBytes false (bitsToBytes (pending ++ headerBits cfg ++ rowsBits cfg (freshUnits cfg) rows ++ [true])) ++
    [escByte, endByte]

theorem blockBytesAfter_nil (cfg : Config) (rows : List (List Int)) :
    blockBytesAfter [] cfg rows = blockBytes cfg rows := rfl

/-- Ending a block sends the whole bytes of its stream, and then the others with the end bit. -/
theorem endedBlock_appendBits_out (bits : List Bool) (s : State) :
    (endedBlock (appendBits bits s)).out =
      s.out ++ escapeBytes s.hadEscape (bitsToBytes (pendingBits s ++ bits ++ [true])) ++ [escByte, endByte] := by
  rw [bitsToBytes_append_true, escapeBytes_append, ← pendingBits_appendBits, ← List.append_assoc]
  rfl

theorem endedBlock_codedRows_out (rows : List (List Int)) (s : State) :
    (endedBlock (codedRows rows (startedBlock s))).out = s.out ++ blockBytesAfter (pendingBits s) s.cfg rows := by
  have hstream := endedBlock_appendBits_out (headerBits s.cfg ++ rowsBits s.cfg (freshUnits s.cfg) rows)
    { s with cols := freshUnits s.cfg, out := s.out ++ [escByte, startByte], hadEscape := false }
  rw [← appendBits_appendBits] at hstream
  refine Eq.trans hstream ?_
  simp only [blockBytesAfter, List.append_assoc]
  rfl

/-- What a whole block from outside one leaves in OUT and in the column units. -/
theorem execAll_blockCommands {rows : List (List Int)} {s : State} (h : s.Inv) (hr : Ready s)
    (hb : s.block = .noBlock) (hrows : ∀ vals ∈ rows, RowFits s.cfg vals) :
    ∃ t, execAll (blockCommands rows) s = some t ∧ t.out = s.out ++ blockBytesAfter (pendingBits s) s.cfg rows ∧
      t.bwUsed = 0 ∧ t.block = .noBlock ∧ t.cols = rowsNext s.cfg (freshUnits s.cfg) rows := by
  obtain ⟨rs, hall⟩ := execAll_blockCommands_noBlock h hr hb hrows
  exact ⟨_, hall, endedBlock_codedRows_out rows s, rfl, rfl, rfl⟩

/-- Settles O46: from an aligned stream no bits are pending, and the header starts on a byte. -/
theorem blockLayoutOnTheWire : Obligations.BlockLayoutOnTheWire := by
  unfold Obligations.BlockLayoutOnTheWire
  intro s rows h hr hb haligned hrows
  obtain ⟨t, hall, hout, hrest⟩ := execAll_blockCommands h hr hb hrows
  rw [(pendingBits_eq_nil_iff s).2 haligned, blockBytesAfter_nil] at hout
  exact ⟨t, hall, hout, hrest⟩

/-- Settles O47: the bytes of a block are a function of the pending bits, the configuration and the rows
(`execAll_blockCommands`). -/
theorem blockIgnoresEarlierBlocks : Obligations.BlockIgnoresEarlierBlocks := by
  unfold Obligations.BlockIgnoresEarlierBlocks
  intro s₁ s₂ rows h₁ h₂ hr₁ hr₂ hb₁ hb₂ hcfg hpending hrows
  obtain ⟨t₁, hall₁, hout₁, -, -, hcols₁⟩ := execAll_blockCommands h₁ hr₁ hb₁ hrows
  obtain ⟨t₂, hall₂, hout₂, -, -, hcols₂⟩ := execAll_blockCommands h₂ hr₂ hb₂ (hcfg ▸ hrows)
  rw [← hcfg] at hout₂ hcols₂
  rw [← hpending] at hout₂
  exact ⟨t₁, t₂, _, hall₁, hall₂, hout₁, hout₂, hcols₁.trans hcols₂.symm⟩

end Sys2Proof.Machine
end
